-- ==== Sys2Proof/Word.lean ====
section
/-! DEFINITION. The word types of the block (spec/00_scope.md rules R8, R11). -/

namespace Sys2Proof

/-- A binary128 bit pattern (R400). -/
abbrev Quad := BitVec 128

/-- A 64-bit interface register or bus word (R201, R202). -/
abbrev Word := BitVec 64

/-- A text-buffer byte (R125). -/
abbrev Byte := BitVec 8

/-- A 13-bit byte offset in the interface window (R200). -/
abbrev Offset := BitVec 13

end Sys2Proof
end

