-- ==== Sys2Proof/Syntax.lean ====
section
/-! DEFINITION. The commands of the block, one constructor per row of spec/opcode_table.json (spec/30_encoding.md rule R304). -/

namespace Sys2Proof

/-- A command of `binary128_adder command set 1`. Every operand and result sits in a fixed register (R301); only
CONST and LIMIT carry a field, the selector K, an unsigned table index (R302). -/
inductive Instr where
  /-- CLASS (OP 0x01): A → RI (R430). -/
  | classify
  /-- SIGN (OP 0x02): A → RI (R431). -/
  | sign
  /-- DECOMP (OP 0x03): A → RI, R (R432). -/
  | decomp
  /-- COMPOSE (OP 0x04): N, A → R (R433). -/
  | compose
  /-- ISNAN (OP 0x05): A → RI (R434). -/
  | isnan
  /-- ISINF (OP 0x06): A → RI (R435). -/
  | isinf
  /-- ISFIN (OP 0x07): A → RI (R436). -/
  | isfin
  /-- ADD (OP 0x10): A, B → R (R500). -/
  | add
  /-- SUB (OP 0x11): A, B → R (R501). -/
  | sub
  /-- MUL (OP 0x12): A, B → R (R502). -/
  | mul
  /-- DIV (OP 0x13): A, B → R (R503). -/
  | div
  /-- NEG (OP 0x14): A → R (R504). -/
  | neg
  /-- ABS (OP 0x15): A → R (R505). -/
  | abs
  /-- FLOOR (OP 0x16): A → R (R506). -/
  | floor
  /-- CEIL (OP 0x17): A → R (R507). -/
  | ceil
  /-- MOD (OP 0x18): A, B → R (R508). -/
  | mod
  /-- MODULO (OP 0x19): A, B → R (R509). -/
  | modulo
  /-- CMP (OP 0x20): A, B → RI (R601). -/
  | cmp
  /-- CEQ (OP 0x21): A, B → RI (R602). -/
  | ceq
  /-- CNE (OP 0x22): A, B → RI (R603). -/
  | cne
  /-- CLT (OP 0x23): A, B → RI (R604). -/
  | clt
  /-- CLE (OP 0x24): A, B → RI (R605). -/
  | cle
  /-- CGT (OP 0x25): A, B → RI (R606). -/
  | cgt
  /-- CGE (OP 0x26): A, B → RI (R607). -/
  | cge
  /-- CUN (OP 0x27): A, B → RI (R608). -/
  | cun
  /-- CVTI (OP 0x30): N → R (R700). -/
  | cvti
  /-- CVTD (OP 0x31): N → R (R710). -/
  | cvtd
  /-- CONST (OP 0x32): K → R (R720). -/
  | const (k : Nat)
  /-- LIMIT (OP 0x33): K → R or RI (R730). -/
  | limit (k : Nat)
  /-- SQRT (OP 0x40): A → R (R810). -/
  | sqrt
  /-- EXP (OP 0x41): A → R (R811). -/
  | exp
  /-- LOG (OP 0x42): A → R (R812). -/
  | log
  /-- POW (OP 0x43): A, B → R (R813). -/
  | pow
  /-- POWI (OP 0x44): A, N → R (R814). -/
  | powi
  /-- SIN (OP 0x45): A → R (R815). -/
  | sin
  /-- COS (OP 0x46): A → R (R816). -/
  | cos
  /-- SINCOS (OP 0x47): A → R, R2 (R817). -/
  | sincos
  /-- TAN (OP 0x48): A → R (R818). -/
  | tan
  /-- COT (OP 0x49): A → R (R819). -/
  | cot
  /-- SINH (OP 0x4A): A → R (R820). -/
  | sinh
  /-- COSH (OP 0x4B): A → R (R821). -/
  | cosh
  /-- TANH (OP 0x4C): A → R (R822). -/
  | tanh
  /-- ASIN (OP 0x4D): A → R (R823). -/
  | asin
  /-- ACOS (OP 0x4E): A → R (R824). -/
  | acos
  /-- ATAN (OP 0x4F): A → R (R825). -/
  | atan
  /-- ATAN2 (OP 0x50): A (y), B (x) → R (R826). -/
  | atan2
  /-- PARSE (OP 0x60): TBUF, TLEN → R (R900). -/
  | parse
  /-- FORMAT (OP 0x61): A, FOPT → TBUF, TLEN, RI (R930). -/
  | format
  deriving DecidableEq, Repr

end Sys2Proof
end

