-- ==== Sys2Proof/WellFormed.lean ====
section
/-! DEFINITION. Which commands have an encoding (spec/30_encoding.md rule R301). -/

namespace Sys2Proof

/-- The one check a command term has: its selector fits the 8-bit field K (R301). -/
def Instr.selectorFits (i : Instr) : Bool :=
  match i with
  | .const k => decide (k < 256)
  | .limit k => decide (k < 256)
  | .classify | .sign | .decomp | .compose | .isnan | .isinf | .isfin => true
  | .add | .sub | .mul | .div | .neg | .abs | .floor | .ceil | .mod | .modulo => true
  | .cmp | .ceq | .cne | .clt | .cle | .cgt | .cge | .cun => true
  | .cvti | .cvtd => true
  | .sqrt | .exp | .log | .pow | .powi | .sin | .cos | .sincos | .tan | .cot => true
  | .sinh | .cosh | .tanh | .asin | .acos | .atan | .atan2 => true
  | .parse | .format => true

/-- A command is well formed when it has an encoding. A K outside the command's table is well formed: it encodes,
and the command answers BAD_OPERAND (R302). -/
abbrev Instr.WellFormed (i : Instr) : Prop := i.selectorFits = true

end Sys2Proof
end

