-- ==== Sys2Proof/Decode.lean ====
section
/-! DEFINITION. The decoder and the encoder of the 64-bit command word (spec/30_encoding.md rules R300 to R306). -/

namespace Sys2Proof

/-- Why a command word is invalid (R303); the engine answers ILLEGAL_CMD to each. -/
inductive Illegal where
  /-- Bits 63:16 are not zero. -/
  | reservedBits
  /-- OP is not an assigned opcode (R305). -/
  | unassignedOpcode
  /-- K is not zero on an opcode that takes no selector. -/
  | unusedSelector
  deriving DecidableEq, Repr

/-- OP, bits 7:0 of the command word (R301). -/
def opField (v : Word) : Nat := (v.extractLsb' 0 8).toNat

/-- K, bits 15:8 of the command word (R301, R302). -/
def kField (v : Word) : Nat := (v.extractLsb' 8 8).toNat

/-- The reserved bits 63:16 of the command word (R301). -/
def reservedField (v : Word) : Nat := (v.extractLsb' 16 48).toNat

/-- A command without a selector is valid only when K is 0 (R303). -/
def withoutSelector (i : Instr) (k : Nat) : Except Illegal Instr :=
  if k = 0 then .ok i else .error .unusedSelector

/-- The opcode map of R304; every other OP is reserved and illegal (R305). -/
def decodeFields (op k : Nat) : Except Illegal Instr :=
  match op with
  | 0x01 => withoutSelector .classify k
  | 0x02 => withoutSelector .sign k
  | 0x03 => withoutSelector .decomp k
  | 0x04 => withoutSelector .compose k
  | 0x05 => withoutSelector .isnan k
  | 0x06 => withoutSelector .isinf k
  | 0x07 => withoutSelector .isfin k
  | 0x10 => withoutSelector .add k
  | 0x11 => withoutSelector .sub k
  | 0x12 => withoutSelector .mul k
  | 0x13 => withoutSelector .div k
  | 0x14 => withoutSelector .neg k
  | 0x15 => withoutSelector .abs k
  | 0x16 => withoutSelector .floor k
  | 0x17 => withoutSelector .ceil k
  | 0x18 => withoutSelector .mod k
  | 0x19 => withoutSelector .modulo k
  | 0x20 => withoutSelector .cmp k
  | 0x21 => withoutSelector .ceq k
  | 0x22 => withoutSelector .cne k
  | 0x23 => withoutSelector .clt k
  | 0x24 => withoutSelector .cle k
  | 0x25 => withoutSelector .cgt k
  | 0x26 => withoutSelector .cge k
  | 0x27 => withoutSelector .cun k
  | 0x30 => withoutSelector .cvti k
  | 0x31 => withoutSelector .cvtd k
  | 0x32 => .ok (.const k)
  | 0x33 => .ok (.limit k)
  | 0x40 => withoutSelector .sqrt k
  | 0x41 => withoutSelector .exp k
  | 0x42 => withoutSelector .log k
  | 0x43 => withoutSelector .pow k
  | 0x44 => withoutSelector .powi k
  | 0x45 => withoutSelector .sin k
  | 0x46 => withoutSelector .cos k
  | 0x47 => withoutSelector .sincos k
  | 0x48 => withoutSelector .tan k
  | 0x49 => withoutSelector .cot k
  | 0x4A => withoutSelector .sinh k
  | 0x4B => withoutSelector .cosh k
  | 0x4C => withoutSelector .tanh k
  | 0x4D => withoutSelector .asin k
  | 0x4E => withoutSelector .acos k
  | 0x4F => withoutSelector .atan k
  | 0x50 => withoutSelector .atan2 k
  | 0x60 => withoutSelector .parse k
  | 0x61 => withoutSelector .format k
  | _ => .error .unassignedOpcode

/-- The command a 64-bit word encodes, or the name of what makes it invalid (`Valid` of R303). -/
def decode (v : Word) : Except Illegal Instr :=
  if reservedField v ≠ 0 then .error .reservedBits else decodeFields (opField v) (kField v)

/-- The opcode of a command (R304). -/
def opcodeOf (i : Instr) : Nat :=
  match i with
  | .classify => 0x01
  | .sign => 0x02
  | .decomp => 0x03
  | .compose => 0x04
  | .isnan => 0x05
  | .isinf => 0x06
  | .isfin => 0x07
  | .add => 0x10
  | .sub => 0x11
  | .mul => 0x12
  | .div => 0x13
  | .neg => 0x14
  | .abs => 0x15
  | .floor => 0x16
  | .ceil => 0x17
  | .mod => 0x18
  | .modulo => 0x19
  | .cmp => 0x20
  | .ceq => 0x21
  | .cne => 0x22
  | .clt => 0x23
  | .cle => 0x24
  | .cgt => 0x25
  | .cge => 0x26
  | .cun => 0x27
  | .cvti => 0x30
  | .cvtd => 0x31
  | .const _ => 0x32
  | .limit _ => 0x33
  | .sqrt => 0x40
  | .exp => 0x41
  | .log => 0x42
  | .pow => 0x43
  | .powi => 0x44
  | .sin => 0x45
  | .cos => 0x46
  | .sincos => 0x47
  | .tan => 0x48
  | .cot => 0x49
  | .sinh => 0x4A
  | .cosh => 0x4B
  | .tanh => 0x4C
  | .asin => 0x4D
  | .acos => 0x4E
  | .atan => 0x4F
  | .atan2 => 0x50
  | .parse => 0x60
  | .format => 0x61

/-- The selector K of a command: 0 for every command without one (R301). -/
def selectorOf (i : Instr) : Nat :=
  match i with
  | .const k => k
  | .limit k => k
  | .classify | .sign | .decomp | .compose | .isnan | .isinf | .isfin | .add | .sub | .mul | .div | .neg | .abs | .floor | .ceil | .mod | .modulo | .cmp | .ceq | .cne | .clt | .cle | .cgt | .cge | .cun | .cvti | .cvtd | .sqrt | .exp | .log | .pow | .powi | .sin | .cos | .sincos | .tan | .cot | .sinh | .cosh | .tanh | .asin | .acos | .atan | .atan2 | .parse | .format => 0

/-- The full word of a command, `K·256 + OP` (R304). -/
def encode (i : Instr) : Word := BitVec.ofNat 64 (selectorOf i * 256 + opcodeOf i)

/-- The command read from a table row's `nbits` bits of value `w`, every bit above them 0. A command is one 64-bit
bus write, so the word needs no layout in memory (R300, R306). -/
def decodeTableWord (nbits w : Nat) : Option Instr :=
  (decode (BitVec.ofNat 64 (w % 2 ^ nbits))).toOption

end Sys2Proof
end

