-- ==== Sys2Proof/Machine/Layout.lean ====
section
/-! DEFINITION. The binary128 layout, classes, exact values and normalizer (spec/40_classify.md rules R400 to R404, R420). -/

namespace Sys2Proof.Machine

/-- The sign bit s (R400). -/
def quadSign (q : Quad) : Bool := q.getLsbD 127

/-- The biased exponent E (R400). -/
def quadExp (q : Quad) : Nat := (q.extractLsb' 112 15).toNat

/-- The fraction T (R400). -/
def quadFrac (q : Quad) : Nat := (q.extractLsb' 0 112).toNat

/-- The quad of sign s, biased exponent E and fraction T, in that order from the top (R11, R400). -/
def mkQuad (s : Bool) (e t : Nat) : Quad :=
  BitVec.ofBool s ++ BitVec.ofNat 15 e ++ BitVec.ofNat 112 t

/-- ±0 with sign s (41_arith.md). -/
def signedZero (s : Bool) : Quad := mkQuad s 0 0

/-- ±∞ with sign s (41_arith.md). -/
def signedInf (s : Bool) : Quad := mkQuad s 32767 0

/-- ±1.0 with sign s (R404). -/
def signedOne (s : Bool) : Quad := mkQuad s 16383 0

/-- A quad with its sign bit flipped (R504). -/
def flipSign (q : Quad) : Quad := q ^^^ BitVec.twoPow 128 127

/-- A quad with its sign bit cleared (R505). -/
def clearSign (q : Quad) : Quad := q &&& ~~~(BitVec.twoPow 128 127)

/-- A quad's low 127 bits under the sign s: `s ++ q[126:0]`. -/
def withSign (s : Bool) (q : Quad) : Quad := BitVec.ofBool s ++ q.extractLsb' 0 127

/-- The six classes of R401. -/
inductive QuadClass where
  | zero
  | subnormal
  | normal
  | infinity
  | quietNaN
  | signalingNaN
  deriving DecidableEq, Repr

/-- The class of a pattern; T[111] = 1 is quiet (R401, R402). -/
def quadClass (q : Quad) : QuadClass :=
  if quadExp q = 0 then
    if quadFrac q = 0 then .zero else .subnormal
  else if quadExp q ≤ 32766 then .normal
  else if quadFrac q = 0 then .infinity
  else if q.getLsbD 111 then .quietNaN
  else .signalingNaN

/-- A NaN of either kind (R401). -/
def isNaN (q : Quad) : Bool :=
  match quadClass q with
  | .quietNaN | .signalingNaN => true
  | .zero | .subnormal | .normal | .infinity => false

/-- ±∞ (R401). -/
def isInf (q : Quad) : Bool :=
  match quadClass q with
  | .infinity => true
  | .zero | .subnormal | .normal | .quietNaN | .signalingNaN => false

/-- ±0 (R401). -/
def isZero (q : Quad) : Bool :=
  match quadClass q with
  | .zero => true
  | .subnormal | .normal | .infinity | .quietNaN | .signalingNaN => false

/-- Zero, Subnormal or Normal: the patterns that have a value (R403). -/
def isFinite (q : Quad) : Bool :=
  match quadClass q with
  | .zero | .subnormal | .normal => true
  | .infinity | .quietNaN | .signalingNaN => false

/-- The exact value of a finite quad (R403); the value given to a pattern that has none is used by no rule. -/
def val (q : Quad) : ℚ :=
  (-1) ^ (quadSign q).toNat *
    (if quadExp q = 0 then (quadFrac q : ℚ) * 2 ^ (-16494 : ℤ)
     else (2 ^ 112 + (quadFrac q : ℚ)) * 2 ^ ((quadExp q : ℤ) - 16383 - 112))

/-- 2^16494, the number of smallest subnormals in 1 (R403, R404). Every finite quad is an integer multiple of
2^−16494, so exact sums, remainders and comparisons are integer arithmetic in that unit. -/
def unit : Nat := 2 ^ 16494

/-- |val(q)| in units of 2^−16494 (R403). -/
def magnitude (q : Quad) : Nat :=
  if quadExp q = 0 then quadFrac q else (2 ^ 112 + quadFrac q) * 2 ^ (quadExp q - 1)

/-- val(q) in units of 2^−16494 (R403). -/
def scaled (q : Quad) : Int :=
  if quadSign q then -(magnitude q : Int) else (magnitude q : Int)

/-- +1.0 (R404). -/
def oneQuad : Quad := signedOne false

/-- `int(y)` of R813: finite and integral. -/
def isInteger (y : Quad) : Bool := isFinite y && (magnitude y % unit == 0)

/-- `oddint(y)` of R813: finite, integral and odd. -/
def isOddInteger (y : Quad) : Bool := isInteger y && (magnitude y / unit % 2 == 1)

/-- y < 0, for y not a NaN: a zero of either sign is not. -/
def isNegative (y : Quad) : Bool := quadSign y && !isZero y

/-- |x| < 1, for x not a NaN. -/
def belowOne (x : Quad) : Bool := isFinite x && decide (magnitude x < unit)

/-- |val(x)| > 1, for a finite x. -/
def aboveOne (x : Quad) : Bool := decide (unit < magnitude x)

/-- The number of bits of a natural number, 0 for 0. -/
def bitLength (n : Nat) : Nat := if n = 0 then 0 else n.log2 + 1

/-- The normalizer: sign, 113-bit significand M with its top bit set, and exponent X with
|val(q)| = M·2^(X − 112), for a finite nonzero q (R420). -/
def normalize (q : Quad) : Bool × Nat × Int :=
  if quadExp q = 0 then
    (quadSign q, quadFrac q <<< (113 - bitLength (quadFrac q)), -16382 - ((113 - bitLength (quadFrac q) : Nat) : Int))
  else (quadSign q, 2 ^ 112 + quadFrac q, (quadExp q : Int) - 16383)

end Sys2Proof.Machine
end

