-- ==== Sys2Proof/Laws/Layout.lean ====
section
/-! SUPPORT. The fields, classes and exact values of a quad: what each accessor gives on a built quad, and each class
by its fields. -/

namespace Sys2Proof.Machine

theorem quadExp_lt (q : Quad) : quadExp q < 2 ^ 15 := (q.extractLsb' 112 15).isLt

theorem quadFrac_lt (q : Quad) : quadFrac q < 2 ^ 112 := (q.extractLsb' 0 112).isLt

theorem mkQuad_getLsbD (s : Bool) (e t i : Nat) (hi : i < 128) :
    (mkQuad s e t).getLsbD i =
      if i < 112 then t.testBit i else if i < 127 then e.testBit (i - 112) else s := by
  unfold mkQuad
  rw [BitVec.getLsbD_append, BitVec.getLsbD_append, BitVec.getLsbD_ofNat, BitVec.getLsbD_ofNat, BitVec.getLsbD_ofBool]
  by_cases h1 : i < 112
  · simp [h1]
  · by_cases h2 : i < 127
    · have : i - 112 < 15 := by omega
      simp [h1, h2, this]
    · have h3 : ¬ i - 112 < 15 := by omega
      have h4 : i - 112 - 15 = 0 := by omega
      simp [h1, h2, h3, h4]

@[simp] theorem quadSign_mkQuad (s : Bool) (e t : Nat) : quadSign (mkQuad s e t) = s := by
  unfold quadSign
  rw [mkQuad_getLsbD _ _ _ _ (by omega)]
  simp

theorem quadExp_mkQuad (s : Bool) (e t : Nat) (h : e < 2 ^ 15) : quadExp (mkQuad s e t) = e := by
  unfold quadExp
  have : (mkQuad s e t).extractLsb' 112 15 = BitVec.ofNat 15 e := by
    apply BitVec.eq_of_getLsbD_eq
    intro i hi
    rw [BitVec.getLsbD_extractLsb', mkQuad_getLsbD _ _ _ _ (by omega), BitVec.getLsbD_ofNat]
    have h1 : ¬ 112 + i < 112 := by omega
    have h2 : 112 + i < 127 := by omega
    have h3 : 112 + i - 112 = i := by omega
    simp [hi, h2, h3]
  rw [this, BitVec.toNat_ofNat, Nat.mod_eq_of_lt h]

theorem quadFrac_mkQuad (s : Bool) (e t : Nat) (h : t < 2 ^ 112) : quadFrac (mkQuad s e t) = t := by
  unfold quadFrac
  have : (mkQuad s e t).extractLsb' 0 112 = BitVec.ofNat 112 t := by
    apply BitVec.eq_of_getLsbD_eq
    intro i hi
    rw [BitVec.getLsbD_extractLsb', mkQuad_getLsbD _ _ _ _ (by omega), BitVec.getLsbD_ofNat]
    simp [hi]
  rw [this, BitVec.toNat_ofNat, Nat.mod_eq_of_lt h]

/-- Two quads with the same fields are the same quad (R400). -/
theorem quad_ext {p q : Quad} (hs : quadSign p = quadSign q) (he : quadExp p = quadExp q)
    (ht : quadFrac p = quadFrac q) : p = q := by
  have he' := BitVec.eq_of_toNat_eq he
  have ht' := BitVec.eq_of_toNat_eq ht
  apply BitVec.eq_of_getLsbD_eq
  intro i hi
  by_cases h1 : i < 112
  · have := congrArg (fun x : BitVec 112 => x.getLsbD i) ht'
    simpa [BitVec.getLsbD_extractLsb', h1] using this
  · by_cases h2 : i < 127
    · have := congrArg (fun x : BitVec 15 => x.getLsbD (i - 112)) he'
      have h3 : i - 112 < 15 := by omega
      have h4 : 112 + (i - 112) = i := by omega
      simpa [BitVec.getLsbD_extractLsb', h3, h4] using this
    · have h3 : i = 127 := by omega
      rw [h3]
      exact hs

/-- A quad is built from its own fields (R400). -/
theorem mkQuad_fields (q : Quad) : mkQuad (quadSign q) (quadExp q) (quadFrac q) = q :=
  quad_ext (quadSign_mkQuad _ _ _) (quadExp_mkQuad _ _ _ (quadExp_lt q)) (quadFrac_mkQuad _ _ _ (quadFrac_lt q))

theorem isNaN_iff (q : Quad) : isNaN q = true ↔ quadExp q = 32767 ∧ quadFrac q ≠ 0 := by
  have := quadExp_lt q
  unfold isNaN quadClass
  split_ifs <;> simp <;> omega

theorem isInf_iff (q : Quad) : isInf q = true ↔ quadExp q = 32767 ∧ quadFrac q = 0 := by
  have := quadExp_lt q
  unfold isInf quadClass
  split_ifs <;> simp <;> omega

theorem isZero_iff (q : Quad) : isZero q = true ↔ quadExp q = 0 ∧ quadFrac q = 0 := by
  have := quadExp_lt q
  unfold isZero quadClass
  split_ifs <;> simp <;> omega

theorem isFinite_iff (q : Quad) : isFinite q = true ↔ quadExp q < 32767 := by
  have := quadExp_lt q
  unfold isFinite quadClass
  split_ifs <;> simp <;> omega

/-- A quad is exactly one of: a NaN, an infinity, a finite value (R401). -/
theorem quad_trichotomy (q : Quad) :
    (isNaN q = true ∧ isInf q = false ∧ isFinite q = false) ∨
      (isNaN q = false ∧ isInf q = true ∧ isFinite q = false) ∨
        (isNaN q = false ∧ isInf q = false ∧ isFinite q = true) := by
  unfold isNaN isInf isFinite
  cases quadClass q <;> simp

theorem isFinite_of_isZero {q : Quad} (h : isZero q = true) : isFinite q = true := by
  rw [isZero_iff] at h
  rw [isFinite_iff]
  omega

/-- An infinity is ±∞ of its own sign (R401). -/
theorem isInf_iff_eq (q : Quad) : isInf q = true ↔ q = signedInf (quadSign q) := by
  constructor
  · intro h
    obtain ⟨h1, h2⟩ := (isInf_iff q).1 h
    have := mkQuad_fields q
    rw [h1, h2] at this
    exact this.symm
  · intro h
    rw [isInf_iff, h]
    exact ⟨quadExp_mkQuad _ _ _ (by decide), quadFrac_mkQuad _ _ _ (by decide)⟩

/-- A zero is ±0 of its own sign (R401). -/
theorem isZero_iff_eq (q : Quad) : isZero q = true ↔ q = signedZero (quadSign q) := by
  constructor
  · intro h
    obtain ⟨h1, h2⟩ := (isZero_iff q).1 h
    have := mkQuad_fields q
    rw [h1, h2] at this
    exact this.symm
  · intro h
    rw [isZero_iff, h]
    exact ⟨quadExp_mkQuad _ _ _ (by decide), quadFrac_mkQuad _ _ _ (by decide)⟩

@[simp] theorem quadSign_signedZero (s : Bool) : quadSign (signedZero s) = s := quadSign_mkQuad _ _ _

@[simp] theorem quadSign_signedInf (s : Bool) : quadSign (signedInf s) = s := quadSign_mkQuad _ _ _

@[simp] theorem quadSign_signedOne (s : Bool) : quadSign (signedOne s) = s := quadSign_mkQuad _ _ _

@[simp] theorem isZero_signedZero (s : Bool) : isZero (signedZero s) = true := by cases s <;> decide

@[simp] theorem isNaN_signedZero (s : Bool) : isNaN (signedZero s) = false := by cases s <;> decide

@[simp] theorem isInf_signedInf (s : Bool) : isInf (signedInf s) = true := by cases s <;> decide

@[simp] theorem isNaN_signedInf (s : Bool) : isNaN (signedInf s) = false := by cases s <;> decide

@[simp] theorem isFinite_signedOne (s : Bool) : isFinite (signedOne s) = true := by cases s <;> decide

/-- A subnormal or normal pattern built from fields in range is finite (R401). -/
theorem isFinite_mkQuad (s : Bool) (e t : Nat) (h : e < 32767) : isFinite (mkQuad s e t) = true := by
  rw [isFinite_iff, quadExp_mkQuad _ _ _ (by omega)]
  exact h

theorem magnitude_mkQuad (s : Bool) (e t : Nat) (he : e < 2 ^ 15) (ht : t < 2 ^ 112) :
    magnitude (mkQuad s e t) = if e = 0 then t else (2 ^ 112 + t) * 2 ^ (e - 1) := by
  unfold magnitude
  rw [quadExp_mkQuad _ _ _ he, quadFrac_mkQuad _ _ _ ht]

/-- A finite quad is zero exactly when its magnitude is (R403). -/
theorem magnitude_eq_zero_iff (q : Quad) : magnitude q = 0 ↔ isZero q = true := by
  rw [isZero_iff]
  unfold magnitude
  split
  · rename_i h
    simp [h]
  · rename_i h
    have h2 : 0 < 2 ^ (quadExp q - 1) := Nat.two_pow_pos _
    constructor
    · intro h3
      rcases Nat.mul_eq_zero.1 h3 with h3 | h3
      · have : 0 < 2 ^ 112 := Nat.two_pow_pos _
        omega
      · omega
    · intro h3
      exact absurd h3.1 h

theorem unit_pos : 0 < unit := Nat.two_pow_pos _

/-- 2^16494 as a rational power of two. -/
theorem unit_cast : (unit : ℚ) = 2 ^ (16494 : ℤ) := by
  rw [unit, Nat.cast_pow]
  exact (zpow_natCast _ _).symm

/-- The exact value is the scaled integer over 2^16494 (R403). -/
theorem val_eq_scaled (q : Quad) : val q = (scaled q : ℚ) / (unit : ℚ) := by
  have hsign : ∀ x : ℚ, (-1) ^ (quadSign q).toNat * x = if quadSign q then -x else x := by
    intro x
    cases quadSign q <;> simp
  have hmag : (if quadExp q = 0 then (quadFrac q : ℚ) * 2 ^ (-16494 : ℤ)
      else (2 ^ 112 + (quadFrac q : ℚ)) * 2 ^ ((quadExp q : ℤ) - 16383 - 112)) = (magnitude q : ℚ) / (unit : ℚ) := by
    rw [unit_cast, div_eq_mul_inv, ← zpow_neg]
    unfold magnitude
    split
    · rfl
    · rename_i h
      have h1 : ((quadExp q : ℤ) - 16383 - 112) = ((quadExp q - 1 : ℕ) : ℤ) + -16494 := by omega
      rw [h1, zpow_add₀ (by norm_num), zpow_natCast, Nat.cast_mul, Nat.cast_pow, Nat.cast_add, Nat.cast_pow, ← mul_assoc]
      rfl
  rw [val, hsign, hmag, scaled]
  split
  · rw [Int.cast_neg, Int.cast_natCast, neg_div]
  · rw [Int.cast_natCast]

theorem natAbs_scaled (q : Quad) : (scaled q).natAbs = magnitude q := by
  unfold scaled
  split <;> simp

/-- |val(q)| is the magnitude over 2^16494 (R403). -/
theorem abs_val (q : Quad) : |val q| = (magnitude q : ℚ) / (unit : ℚ) := by
  have hu : (0 : ℚ) < (unit : ℚ) := Nat.cast_pos.2 unit_pos
  rw [val_eq_scaled, abs_div, abs_of_pos hu, ← Int.cast_abs, Int.abs_eq_natAbs, natAbs_scaled, Int.cast_natCast]

/-- What a sign-bit operation does to the fields (R504, R505, R903). -/
theorem flipSign_getLsbD (q : Quad) (i : Nat) (hi : i < 128) :
    (flipSign q).getLsbD i = if i = 127 then !q.getLsbD 127 else q.getLsbD i := by
  unfold flipSign
  rw [BitVec.getLsbD_xor, BitVec.getLsbD_twoPow]
  by_cases h : i = 127
  · subst h; simp
  · have : ¬ 127 = i := fun h' => h h'.symm
    simp [h, this]

theorem clearSign_getLsbD (q : Quad) (i : Nat) (hi : i < 128) :
    (clearSign q).getLsbD i = if i = 127 then false else q.getLsbD i := by
  unfold clearSign
  rw [BitVec.getLsbD_and, BitVec.getLsbD_not, BitVec.getLsbD_twoPow]
  by_cases h : i = 127
  · subst h; simp
  · have : ¬ 127 = i := fun h' => h h'.symm
    simp [h, this, hi]

theorem withSign_getLsbD (s : Bool) (q : Quad) (i : Nat) (hi : i < 128) :
    (withSign s q).getLsbD i = if i = 127 then s else q.getLsbD i := by
  unfold withSign
  rw [BitVec.getLsbD_append, BitVec.getLsbD_extractLsb', BitVec.getLsbD_ofBool]
  by_cases h : i = 127
  · subst h; simp
  · have h2 : i < 127 := by omega
    simp [h, h2]

/-- Quads that agree below bit 127 have the same exponent and fraction. -/
theorem fields_eq_of_low {p q : Quad} (h : ∀ i, i < 127 → p.getLsbD i = q.getLsbD i) :
    quadExp p = quadExp q ∧ quadFrac p = quadFrac q := by
  constructor
  · refine congrArg BitVec.toNat ?_
    apply BitVec.eq_of_getLsbD_eq
    intro i hi
    rw [BitVec.getLsbD_extractLsb', BitVec.getLsbD_extractLsb', h _ (by omega)]
  · refine congrArg BitVec.toNat ?_
    apply BitVec.eq_of_getLsbD_eq
    intro i hi
    rw [BitVec.getLsbD_extractLsb', BitVec.getLsbD_extractLsb', h _ (by omega)]

theorem flipSign_fields (q : Quad) :
    quadSign (flipSign q) = (!quadSign q) ∧ quadExp (flipSign q) = quadExp q ∧ quadFrac (flipSign q) = quadFrac q := by
  refine ⟨by unfold quadSign; rw [flipSign_getLsbD _ _ (by omega)]; simp, ?_⟩
  exact fields_eq_of_low fun i hi => by rw [flipSign_getLsbD _ _ (by omega), if_neg (by omega)]

theorem clearSign_fields (q : Quad) :
    quadSign (clearSign q) = false ∧ quadExp (clearSign q) = quadExp q ∧ quadFrac (clearSign q) = quadFrac q := by
  refine ⟨by unfold quadSign; rw [clearSign_getLsbD _ _ (by omega)]; simp, ?_⟩
  exact fields_eq_of_low fun i hi => by rw [clearSign_getLsbD _ _ (by omega), if_neg (by omega)]

theorem withSign_fields (s : Bool) (q : Quad) :
    quadSign (withSign s q) = s ∧ quadExp (withSign s q) = quadExp q ∧ quadFrac (withSign s q) = quadFrac q := by
  refine ⟨by unfold quadSign; rw [withSign_getLsbD _ _ _ (by omega)]; simp, ?_⟩
  exact fields_eq_of_low fun i hi => by rw [withSign_getLsbD _ _ _ (by omega), if_neg (by omega)]

theorem withSign_quadSign (q : Quad) : withSign (quadSign q) q = q :=
  quad_ext (withSign_fields _ q).1 (withSign_fields _ q).2.1 (withSign_fields _ q).2.2

/-- The sign of a value (R403). -/
theorem val_lt_zero_iff (q : Quad) : val q < 0 ↔ quadSign q = true ∧ isZero q = false := by
  rw [val_eq_scaled, div_lt_iff₀ (Nat.cast_pos.2 unit_pos), zero_mul, Int.cast_lt_zero]
  have := magnitude_eq_zero_iff q
  unfold scaled
  cases hs : quadSign q <;> cases hz : isZero q <;> simp_all
  omega

/-- `int(y)` of R813 over the exact value. -/
theorem exists_int_of_isInteger {q : Quad} (h : isInteger q = true) : ∃ k : ℤ, val q = k := by
  unfold isInteger at h
  rw [Bool.and_eq_true, beq_iff_eq] at h
  obtain ⟨j, hj⟩ := Nat.dvd_of_mod_eq_zero h.2
  have hu : (unit : ℚ) ≠ 0 := Nat.cast_ne_zero.2 unit_pos.ne'
  rw [val_eq_scaled]
  unfold scaled
  rw [hj]
  generalize unit = n at *
  split
  · exact ⟨-j, by push_cast; field_simp⟩
  · exact ⟨j, by push_cast; field_simp⟩

end Sys2Proof.Machine
end

