-- ==== Sys2Proof/Machine/Rounding.lean ====
section
/-! DEFINITION. The rounder (spec/40_classify.md rules R421, R422), over exact fractions of natural numbers and
over the integer square root. The same rule over the reals stands in Machine/Accuracy.lean. -/

namespace Sys2Proof.Machine

/-- The last four lines of R421: the quad of sign s for an integer m < 2^113 at quantum 2^qe. -/
def packQuantum (s : Bool) (qe : Int) (m : Nat) : Quad :=
  if qe > 16271 then signedInf s
  else if m = 0 then signedZero s
  else if m < 2 ^ 112 then mkQuad s 0 m
  else mkQuad s (qe + 16495).toNat (m - 2 ^ 112)

/-- The last five lines of R421: the same for a rounded m, which may have carried into the next binade. -/
def packRounded (s : Bool) (qe : Int) (m : Nat) : Quad :=
  if m = 2 ^ 113 then packQuantum s (qe + 1) (2 ^ 112) else packQuantum s qe m

/-- The integer nearest to n/d, the even one when n/d is halfway between two (R422). -/
def rneDiv (n d : Nat) : Nat :=
  let f := n / d
  let r := n % d
  if 2 * r > d ∨ (2 * r = d ∧ f % 2 = 1) then f + 1 else f

/-- 2^e ≤ n/d, for any integer e. -/
def powTwoLe (e : Int) (n d : Nat) : Bool := decide (2 ^ e.toNat * d ≤ n * 2 ^ (-e).toNat)

/-- The largest r + x with x < 2^k and 2^(r + x) ≤ n, one bit a step from the top. -/
def log2From : Nat → Nat → Nat → Nat
  | 0, _, r => r
  | k + 1, n, r => if 2 ^ (r + 2 ^ k) ≤ n then log2From k n (r + 2 ^ k) else log2From k n r

/-- floor(log2(n)) for positive n. Every number a command rounds has fewer than 2^17 bits, where the search is the
faster way to it. -/
def natLog2 (n : Nat) : Nat := if n < 2 ^ 131072 then log2From 17 n 0 else n.log2

/-- floor(log2(n/d)) for positive n and d: the difference of the bit lengths, or one less. -/
def floorLog2 (n d : Nat) : Int :=
  let k : Int := (natLog2 n : Int) - (natLog2 d : Int)
  if powTwoLe k n d then k else k - 1

/-- The quantum exponent of a value whose floor(log2) is e (R421). -/
def quantumExp (e : Int) : Int := max e (-16382) - 112

/-- RoundPack(s, n/d): the quad nearest to (−1)^s·n/d under round-to-nearest, ties-to-even (R421). -/
def roundPack (s : Bool) (n d : Nat) : Quad :=
  if n = 0 then signedZero s
  else
    let qe := quantumExp (floorLog2 n d)
    packRounded s qe (rneDiv (n * 2 ^ (-qe).toNat) (d * 2 ^ qe.toNat))

/-- RoundPack(sign(v), |v|) for v = n/d with an integer n (R421). -/
def roundSigned (n : Int) (d : Nat) : Quad := roundPack (decide (n < 0)) n.natAbs d

/-- The largest r + x with x < 2^k and (r + x)² ≤ n, one bit a step from the top. -/
def isqrtFrom : Nat → Nat → Nat → Nat
  | 0, _, r => r
  | k + 1, n, r => if (r + 2 ^ k) * (r + 2 ^ k) ≤ n then isqrtFrom k n (r + 2 ^ k) else isqrtFrom k n r

/-- floor(sqrt(n)) for n < 2^226. -/
def isqrt (n : Nat) : Nat := isqrtFrom 113 n 0

/-- RoundPack(0, sqrt(M·2^(X − 112))) for a normalized M (R420, R421, R810). floor(log2) of the root is floor(X/2),
so the root over its quantum is sqrt(M·2^(112 + X mod 2)); it is above the middle of f and f + 1 exactly when that
integer exceeds f² + f, and never at the middle. -/
def roundRoot (m : Nat) (x : Int) : Quad :=
  let n := m * 2 ^ (112 + (x % 2).toNat)
  let f := isqrt n
  packRounded false (quantumExp (x / 2)) (if f * f + f < n then f + 1 else f)

end Sys2Proof.Machine
end

