-- ==== Sys2Proof/Machine/Accuracy.lean ====
section
/-! DEFINITION. The rules that speak of exact reals: RoundPack over the reals (spec/40_classify.md rules R421, R422),
the unit in the last place and the accuracy contract (spec/44_transcendental.md rules R800, R801). -/

namespace Sys2Proof.Machine

/-- The exact real value of a finite quad (R403). -/
noncomputable def valReal (q : Quad) : ℝ := (val q : ℝ)

/-- `RNE_int(x)` for real x ≥ 0 (R422). -/
noncomputable def rneReal (x : ℝ) : Nat :=
  open Classical in
  if x - ⌊x⌋₊ > 1 / 2 ∨ (x - ⌊x⌋₊ = 1 / 2 ∧ ⌊x⌋₊ % 2 = 1) then ⌊x⌋₊ + 1 else ⌊x⌋₊

/-- `RoundPack(s, v)` for real v ≥ 0 (R421). -/
noncomputable def roundPackReal (s : Bool) (v : ℝ) : Quad :=
  open Classical in
  if v = 0 then signedZero s
  else packRounded s (quantumExp (Int.log 2 v)) (rneReal (v / 2 ^ quantumExp (Int.log 2 v)))

/-- The sign bit of a real: 1 for a negative one (R421). -/
noncomputable def signReal (y : ℝ) : Bool :=
  open Classical in decide (y < 0)

/-- The correctly rounded quad of a real, `RoundPack(sign(y), |y|)`. -/
noncomputable def nearestQuad (y : ℝ) : Quad := roundPackReal (signReal y) |y|

/-- `ulp(y)` (R800). -/
noncomputable def ulp (y : ℝ) : ℝ :=
  open Classical in
  if y = 0 then 2 ^ (-16494 : ℤ) else 2 ^ quantumExp (Int.log 2 |y|)

/-- `ACC(U, y, q)`: q is an acceptable result for the exact real y under the bound U (R801): the correctly rounded
one, or a finite one of y's sign within U units in the last place. -/
def Acc (u : ℚ) (y : ℝ) (q : Quad) : Prop :=
  q = nearestQuad y ∨
    (isFinite q = true ∧ |valReal q - y| ≤ (u : ℝ) * ulp y ∧ (y ≠ 0 → quadSign q = signReal y))

/-- The functions the engine holds only to the accuracy contract: every transcendental command but SQRT and POWI;
SINCOS uses sin and cos (R9, R802, R817). -/
inductive Fn where
  | exp
  | log
  | pow
  | sin
  | cos
  | tan
  | cot
  | sinh
  | cosh
  | tanh
  | asin
  | acos
  | atan
  | atan2
  deriving DecidableEq, Repr

/-- The exact mathematical value of a function at its operands (R811 to R826). The second operand is used by pow
alone and by atan2, whose angle is that of the point (val(x), val(y)) in (−π, π]. -/
noncomputable def exactValue (f : Fn) (a b : Quad) : ℝ :=
  match f with
  | .exp => Real.exp (valReal a)
  | .log => Real.log (valReal a)
  | .pow => valReal a ^ valReal b
  | .sin => Real.sin (valReal a)
  | .cos => Real.cos (valReal a)
  | .tan => Real.tan (valReal a)
  | .cot => Real.cos (valReal a) / Real.sin (valReal a)
  | .sinh => Real.sinh (valReal a)
  | .cosh => Real.cosh (valReal a)
  | .tanh => Real.tanh (valReal a)
  | .asin => Real.arcsin (valReal a)
  | .acos => Real.arccos (valReal a)
  | .atan => Real.arctan (valReal a)
  | .atan2 => Complex.arg ⟨valReal b, valReal a⟩

/-- A table of the functions FN_f, each a total function of its operands' bit patterns (R802). -/
abbrev FnTable := Fn → Quad → Quad → Quad

/-- The inputs at which a rule of R811 to R826 takes its last branch, `FN_f` (R803). -/
def ordinaryInput (f : Fn) (a b : Quad) : Bool :=
  isFinite a && isFinite b &&
    match f with
    | .exp | .sin | .cos | .tan | .cot | .sinh | .cosh | .tanh | .atan => !isZero a
    | .log => !isZero a && !quadSign a && a != oneQuad
    | .pow => !isZero a && !isZero b && a != oneQuad && !(isNegative a && !isInteger b)
    | .asin => !isZero a && !aboveOne a
    | .acos => !aboveOne a && a != oneQuad
    | .atan2 => !isZero a && !isZero b

/-- The table meets the accuracy contract, under the bounds U_f, at every input that is not special (R801, R802). -/
def MeetsContract (u : Fn → ℚ) (fn : FnTable) : Prop :=
  ∀ f a b, ordinaryInput f a b = true → Acc (u f) (exactValue f a b) (fn f a b)

/-- The values the rules name outright beside the contract: EXP(20000) = +∞ (R811), a sine is never zero at a nonzero
finite A (R815), SINH(12000) = +∞ and SINH(−12000) = −∞ (R820). -/
def HasNamedValues (fn : FnTable) : Prop :=
  ∀ a b, isFinite a = true →
    (val a = 20000 → fn .exp a b = signedInf false) ∧
      (isZero a = false → isZero (fn .sin a b) = false) ∧
      (val a = 12000 → fn .sinh a b = signedInf false) ∧
      (val a = -12000 → fn .sinh a b = signedInf true)

end Sys2Proof.Machine
end

