-- ==== Sys2Proof/Laws/Rounding.lean ====
section
/-! SUPPORT. What the integer functions of the rounder compute: powers of two below a fraction, floor(log2),
round-half-even division, the integer square root; and what a packed pattern is. -/

namespace Sys2Proof.Machine

/-- A comparison with a power of two of either sign, cleared of negative exponents. -/
theorem zpow_le_div_iff (b : ℕ) (hb : 0 < b) (e : ℤ) {n d : ℕ} (hd : 0 < d) :
    ((b : ℝ) ^ e ≤ (n : ℝ) / d) ↔ b ^ e.toNat * d ≤ n * b ^ (-e).toNat := by
  have hd' : (0 : ℝ) < d := Nat.cast_pos.2 hd
  have hb' : (0 : ℝ) < b := Nat.cast_pos.2 hb
  rw [le_div_iff₀ hd']
  have key : ((b : ℝ) ^ e.toNat * d ≤ n * (b : ℝ) ^ (-e).toNat) ↔ b ^ e.toNat * d ≤ n * b ^ (-e).toNat := by
    rw [← Nat.cast_pow, ← Nat.cast_pow, ← Nat.cast_mul, ← Nat.cast_mul, Nat.cast_le]
  rw [← key]
  rcases le_total 0 e with h | h
  · have h1 : ((e.toNat : ℕ) : ℤ) = e := Int.toNat_of_nonneg h
    have h2 : (-e).toNat = 0 := by omega
    rw [h2, pow_zero, mul_one]
    conv_lhs => rw [← h1, zpow_natCast]
  · have h1 : (((-e).toNat : ℕ) : ℤ) = -e := Int.toNat_of_nonneg (by omega)
    have h2 : e.toNat = 0 := by omega
    have h3 : e = -(((-e).toNat : ℕ) : ℤ) := by omega
    rw [h2, pow_zero, one_mul]
    conv_lhs => rw [h3, zpow_neg, zpow_natCast]
    have hp : (0 : ℝ) < (b : ℝ) ^ (-e).toNat := pow_pos hb' _
    rw [inv_mul_le_iff₀ hp, mul_comm]

theorem powTwoLe_iff (e : ℤ) {n d : ℕ} (hd : 0 < d) : powTwoLe e n d = true ↔ (2 : ℝ) ^ e ≤ (n : ℝ) / d := by
  have h := zpow_le_div_iff 2 (by decide) e (n := n) hd
  unfold powTwoLe
  rw [decide_eq_true_eq]
  exact_mod_cast h.symm

/-- The search keeps 2^r ≤ n < 2^(r + 2^k) and ends at floor(log2). -/
theorem log2From_spec (k n r : ℕ) (h1 : 2 ^ r ≤ n) (h2 : n < 2 ^ (r + 2 ^ k)) :
    2 ^ log2From k n r ≤ n ∧ n < 2 ^ (log2From k n r + 1) := by
  induction k generalizing r with
  | zero => simpa [log2From] using ⟨h1, h2⟩
  | succ k ih =>
    rw [log2From]
    split
    · rename_i h
      exact ih _ h (by rw [Nat.add_assoc, ← Nat.two_mul, ← Nat.pow_succ']; exact h2)
    · rename_i h
      exact ih _ h1 (Nat.lt_of_not_le h)

theorem natLog2_eq {n : ℕ} (hn : 0 < n) : natLog2 n = n.log2 := by
  unfold natLog2
  split
  · rename_i h
    obtain ⟨h1, h2⟩ := log2From_spec 17 n 0 hn (by rw [Nat.zero_add]; exact h)
    exact ((Nat.log2_eq_iff hn.ne').2 ⟨h1, h2⟩).symm
  · rfl

/-- floor(log2) as the rounder computes it is the one of the rule (R421). -/
theorem floorLog2_eq_log {n d : ℕ} (hn : 0 < n) (hd : 0 < d) : floorLog2 n d = Int.log 2 ((n : ℝ) / d) := by
  have hn' : (0 : ℝ) < n := Nat.cast_pos.2 hn
  have hd' : (0 : ℝ) < d := Nat.cast_pos.2 hd
  have hv : (0 : ℝ) < (n : ℝ) / d := div_pos hn' hd'
  have n1 : (2 : ℝ) ^ n.log2 ≤ n := by exact_mod_cast Nat.log2_self_le hn.ne'
  have n2 : (n : ℝ) < 2 ^ (n.log2 + 1) := by exact_mod_cast Nat.lt_log2_self
  have d1 : (2 : ℝ) ^ d.log2 ≤ d := by exact_mod_cast Nat.log2_self_le hd.ne'
  have d2 : (d : ℝ) < 2 ^ (d.log2 + 1) := by exact_mod_cast Nat.lt_log2_self
  have two : (2 : ℝ) ≠ 0 := by norm_num
  have lo : (2 : ℝ) ^ ((n.log2 : ℤ) - d.log2 - 1) ≤ (n : ℝ) / d := by
    rw [le_div_iff₀ hd']
    calc (2 : ℝ) ^ ((n.log2 : ℤ) - d.log2 - 1) * d
        ≤ (2 : ℝ) ^ ((n.log2 : ℤ) - d.log2 - 1) * 2 ^ (d.log2 + 1) := by gcongr
      _ = 2 ^ n.log2 := by
          rw [← zpow_natCast 2 (d.log2 + 1), ← zpow_add₀ two, ← zpow_natCast 2 n.log2]
          congr 1
          push_cast
          ring
      _ ≤ n := n1
  have hi : (n : ℝ) / d < 2 ^ ((n.log2 : ℤ) - d.log2 + 1) := by
    rw [div_lt_iff₀ hd']
    calc (n : ℝ) < 2 ^ (n.log2 + 1) := n2
      _ = (2 : ℝ) ^ ((n.log2 : ℤ) - d.log2 + 1) * 2 ^ d.log2 := by
          rw [← zpow_natCast 2 d.log2, ← zpow_add₀ two, ← zpow_natCast 2 (n.log2 + 1)]
          congr 1
          push_cast
          ring
      _ ≤ (2 : ℝ) ^ ((n.log2 : ℤ) - d.log2 + 1) * d := by gcongr
  have lo' : (n.log2 : ℤ) - d.log2 - 1 ≤ Int.log 2 ((n : ℝ) / d) :=
    (Int.zpow_le_iff_le_log (b := 2) (by norm_num) hv).1 (by exact_mod_cast lo)
  have hi' : Int.log 2 ((n : ℝ) / d) < (n.log2 : ℤ) - d.log2 + 1 :=
    (Int.lt_zpow_iff_log_lt (b := 2) (by norm_num) hv).1 (by exact_mod_cast hi)
  have mid : powTwoLe ((n.log2 : ℤ) - d.log2) n d = true ↔ (n.log2 : ℤ) - d.log2 ≤ Int.log 2 ((n : ℝ) / d) := by
    rw [powTwoLe_iff _ hd, ← Int.zpow_le_iff_le_log (b := 2) (by norm_num) hv]
    exact_mod_cast Iff.rfl
  simp only [floorLog2, natLog2_eq hn, natLog2_eq hd]
  split
  · rename_i h
    have h' := mid.1 h
    linarith
  · rename_i h
    have h' := not_le.1 fun h' => h (mid.2 h')
    linarith

/-- Round-half-even division is `RNE_int` of the quotient (R422). -/
theorem rneReal_div {n d : ℕ} (hd : 0 < d) : rneReal ((n : ℝ) / d) = rneDiv n d := by
  have hd' : (0 : ℝ) < d := Nat.cast_pos.2 hd
  have hf : ⌊(n : ℝ) / d⌋₊ = n / d := Nat.floor_div_eq_div n d
  have hsum : (n : ℝ) = d * ((n / d : ℕ) : ℝ) + ((n % d : ℕ) : ℝ) := by exact_mod_cast (Nat.div_add_mod n d).symm
  have hr : (n : ℝ) / d - ((n / d : ℕ) : ℝ) = ((n % d : ℕ) : ℝ) / d := by
    rw [eq_div_iff hd'.ne', sub_mul, div_mul_cancel₀ _ hd'.ne']
    linarith
  have hgt : ((n % d : ℕ) : ℝ) / d > 1 / 2 ↔ 2 * (n % d) > d := by
    rw [gt_iff_lt, div_lt_div_iff₀ (by norm_num) hd', one_mul, mul_comm]
    exact_mod_cast Iff.rfl
  have heq : ((n % d : ℕ) : ℝ) / d = 1 / 2 ↔ 2 * (n % d) = d := by
    rw [div_eq_div_iff hd'.ne' (by norm_num), one_mul, mul_comm]
    exact_mod_cast Iff.rfl
  unfold rneReal rneDiv
  rw [hf, hr]
  simp only [hgt, heq]

/-- The root search keeps r² ≤ n < (r + 2^k)² and ends at the integer square root. -/
theorem isqrtFrom_spec (k n r : ℕ) (h1 : r * r ≤ n) (h2 : n < (r + 2 ^ k) * (r + 2 ^ k)) :
    isqrtFrom k n r * isqrtFrom k n r ≤ n ∧ n < (isqrtFrom k n r + 1) * (isqrtFrom k n r + 1) := by
  induction k generalizing r with
  | zero => simpa [isqrtFrom] using ⟨h1, h2⟩
  | succ k ih =>
    rw [isqrtFrom]
    split
    · rename_i h
      exact ih _ h (by rw [Nat.add_assoc, ← Nat.two_mul, ← Nat.pow_succ']; exact h2)
    · rename_i h
      exact ih _ h1 (by omega)

/-- `isqrt` is the integer square root below 2^226 (R810). -/
theorem isqrt_spec (n : ℕ) (h : n < 2 ^ 226) : isqrt n * isqrt n ≤ n ∧ n < (isqrt n + 1) * (isqrt n + 1) :=
  isqrtFrom_spec 113 n 0 (Nat.zero_le _) (by rw [Nat.zero_add, ← Nat.pow_add]; exact h)

/-- A packed pattern has the sign given and is never a NaN (R421). -/
theorem packQuantum_sign (s : Bool) (qe : ℤ) (m : ℕ) : quadSign (packQuantum s qe m) = s := by
  unfold packQuantum
  split_ifs <;> exact quadSign_mkQuad _ _ _

theorem packQuantum_not_nan (s : Bool) (qe : ℤ) (m : ℕ) : isNaN (packQuantum s qe m) = false := by
  unfold packQuantum
  split_ifs with h1 h2 h3
  · exact isNaN_signedInf s
  · exact isNaN_signedZero s
  · rcases quad_trichotomy (mkQuad s 0 m) with h | h | h
    · rw [isFinite_mkQuad _ _ _ (by decide)] at h
      exact absurd h.2.2 (by decide)
    · exact h.1
    · exact h.1
  · rcases quad_trichotomy (mkQuad s (qe + 16495).toNat (m - 2 ^ 112)) with h | h | h
    · rw [isFinite_mkQuad _ _ _ (by omega)] at h
      exact absurd h.2.2 (by decide)
    · exact h.1
    · exact h.1

theorem packRounded_sign (s : Bool) (qe : ℤ) (m : ℕ) : quadSign (packRounded s qe m) = s := by
  unfold packRounded
  split_ifs <;> exact packQuantum_sign _ _ _

theorem packRounded_not_nan (s : Bool) (qe : ℤ) (m : ℕ) : isNaN (packRounded s qe m) = false := by
  unfold packRounded
  split_ifs <;> exact packQuantum_not_nan _ _ _

theorem roundPack_sign (s : Bool) (n d : ℕ) : quadSign (roundPack s n d) = s := by
  unfold roundPack
  split_ifs
  · exact quadSign_signedZero s
  · exact packRounded_sign _ _ _

theorem roundPack_not_nan (s : Bool) (n d : ℕ) : isNaN (roundPack s n d) = false := by
  unfold roundPack
  split_ifs
  · exact isNaN_signedZero s
  · exact packRounded_not_nan _ _ _

theorem roundPackReal_sign (s : Bool) (v : ℝ) : quadSign (roundPackReal s v) = s := by
  unfold roundPackReal
  split_ifs
  · exact quadSign_signedZero s
  · exact packRounded_sign _ _ _

theorem roundPackReal_not_nan (s : Bool) (v : ℝ) : isNaN (roundPackReal s v) = false := by
  unfold roundPackReal
  split_ifs
  · exact isNaN_signedZero s
  · exact packRounded_not_nan _ _ _

/-- The value of a pattern packed at a quantum in range (R421). -/
theorem packQuantum_value (s : Bool) {qe : ℤ} {m : ℕ} (h1 : -16494 ≤ qe) (h2 : qe ≤ 16271) (hm : m < 2 ^ 113)
    (hn : qe = -16494 ∨ 2 ^ 112 ≤ m) :
    isFinite (packQuantum s qe m) = true ∧ |val (packQuantum s qe m)| = (m : ℚ) * 2 ^ qe := by
  have hu : (0 : ℚ) < (unit : ℚ) := Nat.cast_pos.2 unit_pos
  have two : (2 : ℚ) ≠ 0 := by norm_num
  unfold packQuantum
  rw [if_neg (by omega)]
  by_cases h0 : m = 0
  · subst h0
    rw [if_pos rfl]
    refine ⟨isFinite_of_isZero (isZero_signedZero s), ?_⟩
    rw [abs_val, (magnitude_eq_zero_iff _).2 (isZero_signedZero s), Nat.cast_zero, zero_div, zero_mul]
  · rw [if_neg h0]
    by_cases h3 : m < 2 ^ 112
    · have h4 : qe = -16494 := by omega
      rw [if_pos h3]
      refine ⟨isFinite_mkQuad _ _ _ (by decide), ?_⟩
      rw [abs_val, magnitude_mkQuad _ _ _ (by decide) h3, if_pos rfl, unit_cast, h4, zpow_neg, div_eq_mul_inv]
    · rw [if_neg h3]
      have he : (qe + 16495).toNat < 32767 := by omega
      refine ⟨isFinite_mkQuad _ _ _ he, ?_⟩
      rw [abs_val, magnitude_mkQuad _ _ _ (by omega) (by omega), if_neg (by omega),
        show 2 ^ 112 + (m - 2 ^ 112) = m by omega, unit_cast, Nat.cast_mul, Nat.cast_pow, Nat.cast_ofNat, mul_div_assoc]
      rw [← zpow_natCast, ← zpow_sub₀ two, show (((qe + 16495).toNat - 1 : ℕ) : ℤ) - 16494 = qe by omega]

/-- The value of a rounded pattern, whether or not it carried into the next binade (R421). -/
theorem packRounded_value (s : Bool) {qe : ℤ} {m : ℕ} (h1 : -16494 ≤ qe) (h2 : qe ≤ 16271) (hm : m ≤ 2 ^ 113)
    (hn : qe = -16494 ∨ 2 ^ 112 ≤ m) (ho : qe = 16271 → m < 2 ^ 113) :
    isFinite (packRounded s qe m) = true ∧ |val (packRounded s qe m)| = (m : ℚ) * 2 ^ qe := by
  unfold packRounded
  split
  · rename_i h
    have hq : qe + 1 ≤ 16271 := by
      by_contra hc
      exact absurd (ho (by omega)) (by omega)
    have hlt : 2 ^ 112 < 2 ^ 113 := Nat.pow_lt_pow_right (by decide) (by decide)
    have hge : qe + 1 = -16494 ∨ 2 ^ 112 ≤ 2 ^ 112 := Or.inr (Nat.le_refl _)
    obtain ⟨hf, hval⟩ := packQuantum_value s (by omega) hq hlt hge
    have e : ((2 ^ 112 : ℕ) : ℚ) * 2 ^ (qe + 1) = ((2 ^ 113 : ℕ) : ℚ) * 2 ^ qe := by
      rw [zpow_add_one₀ (by norm_num)]
      push_cast
      ring
    rw [h, ← e]
    exact ⟨hf, hval⟩
  · exact packQuantum_value s h1 h2 (by omega) hn

/-- A pattern past the largest quantum is an infinity (R421). -/
theorem packRounded_inf (s : Bool) {qe : ℤ} {m : ℕ} (h : 16271 < qe ∨ (qe = 16271 ∧ m = 2 ^ 113)) :
    packRounded s qe m = signedInf s := by
  have past : ∀ k n, 16271 < k → packQuantum s k n = signedInf s := fun k n hk => if_pos hk
  unfold packRounded
  rcases h with h | ⟨h, hm⟩
  · split
    · exact past _ _ (by omega)
    · exact past _ _ h
  · rw [if_pos hm]
    exact past _ _ (by omega)

/-- `RNE_int(x)` is a nearest integer, and the even one when x is halfway (R422). -/
theorem rneReal_spec {x : ℝ} (hx : 0 ≤ x) :
    |x - rneReal x| ≤ 1 / 2 ∧ (|x - rneReal x| = 1 / 2 → rneReal x % 2 = 0) := by
  have h1 : (⌊x⌋₊ : ℝ) ≤ x := Nat.floor_le hx
  have h2 : x < ⌊x⌋₊ + 1 := Nat.lt_floor_add_one x
  unfold rneReal
  split_ifs with h
  · push_cast
    have h3 : x - ⌊x⌋₊ ≥ 1 / 2 := by exact h.elim (fun h => h.le) (fun h => h.1.ge)
    have ha : |x - ((⌊x⌋₊ : ℝ) + 1)| = ⌊x⌋₊ + 1 - x := by rw [abs_of_nonpos (by linarith)]; ring
    rw [ha]
    refine ⟨by linarith, fun h4 => ?_⟩
    rcases h with h | h
    · linarith
    · omega
  · rw [abs_of_nonneg (by linarith)]
    rw [not_or, not_and, not_lt] at h
    refine ⟨h.1, fun h4 => ?_⟩
    have := h.2 h4
    omega

/-- Rounding to an integer is monotone (R422). -/
theorem rneReal_mono {x y : ℝ} (hx : 0 ≤ x) (h : x ≤ y) : rneReal x ≤ rneReal y := by
  have hy := hx.trans h
  obtain ⟨a1, a2⟩ := rneReal_spec hx
  obtain ⟨b1, b2⟩ := rneReal_spec hy
  by_contra hlt
  have hlt' : rneReal y + 1 ≤ rneReal x := by omega
  have hc : ((rneReal y : ℝ)) + 1 ≤ rneReal x := by exact_mod_cast hlt'
  have a3 := (abs_le.1 a1).1
  have b3 := (abs_le.1 b1).2
  have hxy : x = y := by linarith
  rw [hxy] at hlt
  exact hlt le_rfl

theorem rneReal_natCast (n : ℕ) : rneReal (n : ℝ) = n := by
  have h := rneReal_div (n := n) (d := 1) Nat.one_pos
  rw [Nat.cast_one, div_one] at h
  rw [h]
  unfold rneDiv
  simp [Nat.mod_one]

/-- A value against its quantum: at least 2^112 of them unless the quantum is the smallest, and fewer than 2^113
(R421). -/
theorem div_quantum_bounds {v : ℝ} (hv : 0 < v) :
    0 < v / 2 ^ quantumExp (Int.log 2 v) ∧ v / 2 ^ quantumExp (Int.log 2 v) < 2 ^ 113 ∧
      -16494 ≤ quantumExp (Int.log 2 v) ∧
      (quantumExp (Int.log 2 v) = -16494 ∨ (2 : ℝ) ^ 112 ≤ v / 2 ^ quantumExp (Int.log 2 v)) := by
  have lo : (2 : ℝ) ^ Int.log 2 v ≤ v := by exact_mod_cast Int.zpow_log_le_self (b := 2) (by norm_num) hv
  have hi : v < (2 : ℝ) ^ (Int.log 2 v + 1) := by exact_mod_cast Int.lt_zpow_succ_log_self (b := 2) (by norm_num) v
  have hp : (0 : ℝ) < 2 ^ quantumExp (Int.log 2 v) := zpow_pos (by norm_num) _
  have two : (2 : ℝ) ≠ 0 := by norm_num
  refine ⟨div_pos hv hp, ?_, ?_, ?_⟩
  · rw [div_lt_iff₀ hp]
    refine hi.trans_le ?_
    rw [← zpow_natCast, ← zpow_add₀ two]
    refine zpow_le_zpow_right₀ (by norm_num) ?_
    unfold quantumExp
    have := le_max_left (Int.log 2 v) (-16382)
    push_cast
    omega
  · unfold quantumExp
    have := le_max_right (Int.log 2 v) (-16382)
    omega
  · by_cases h : Int.log 2 v ≤ -16382
    · left
      unfold quantumExp
      rw [max_eq_right h]
      rfl
    · right
      rw [le_div_iff₀ hp, ← zpow_natCast, ← zpow_add₀ two]
      refine le_trans (zpow_le_zpow_right₀ (by norm_num) ?_) lo
      unfold quantumExp
      rw [max_eq_left (by omega)]
      push_cast
      omega

/-- The integer RoundPack rounds to fits its field (R421). -/
theorem rneReal_quantum_bounds {v : ℝ} (hv : 0 < v) :
    rneReal (v / 2 ^ quantumExp (Int.log 2 v)) ≤ 2 ^ 113 ∧
      (quantumExp (Int.log 2 v) = -16494 ∨ 2 ^ 112 ≤ rneReal (v / 2 ^ quantumExp (Int.log 2 v))) := by
  obtain ⟨h0, h1, h2, h3⟩ := div_quantum_bounds hv
  have c : ∀ n : ℕ, rneReal ((2 : ℝ) ^ n) = 2 ^ n := by
    intro n
    have := rneReal_natCast (2 ^ n)
    rwa [Nat.cast_pow, Nat.cast_ofNat] at this
  refine ⟨?_, h3.imp_right fun h => ?_⟩
  · have := rneReal_mono h0.le h1.le
    rwa [c 113] at this
  · have := rneReal_mono (by positivity) h
    rwa [c 112] at this

/-- The overflow threshold against the quantum of the largest binade (R423). -/
theorem roundPackReal_overflow_iff {v : ℝ} (hv : 0 < v) :
    (16271 < quantumExp (Int.log 2 v) ∨
      (quantumExp (Int.log 2 v) = 16271 ∧ rneReal (v / 2 ^ quantumExp (Int.log 2 v)) = 2 ^ 113)) ↔
      (2 : ℝ) ^ (16384 : ℤ) - 2 ^ (16270 : ℤ) ≤ v := by
  have lo : (2 : ℝ) ^ Int.log 2 v ≤ v := by exact_mod_cast Int.zpow_log_le_self (b := 2) (by norm_num) hv
  have hi : v < (2 : ℝ) ^ (Int.log 2 v + 1) := by exact_mod_cast Int.lt_zpow_succ_log_self (b := 2) (by norm_num) v
  have hq : (0 : ℝ) < 2 ^ (16271 : ℤ) := zpow_pos (by norm_num) _
  have two : (2 : ℝ) ≠ 0 := by norm_num
  have e1 : (2 : ℝ) ^ (16384 : ℤ) = 2 ^ 113 * 2 ^ (16271 : ℤ) := by
    rw [← zpow_natCast, ← zpow_add₀ two]; rfl
  have e2 : (2 : ℝ) ^ (16270 : ℤ) = 1 / 2 * 2 ^ (16271 : ℤ) := by
    rw [show (16271 : ℤ) = 16270 + 1 by rfl, zpow_add_one₀ two]; ring
  have hqe : ∀ k : ℤ, -16494 < k → (quantumExp (Int.log 2 v) = k ↔ Int.log 2 v = k + 112) := by
    intro k hk
    unfold quantumExp
    constructor <;> intro h <;> omega
  by_cases hbig : 16384 ≤ Int.log 2 v
  · have h1 : 16271 < quantumExp (Int.log 2 v) := by unfold quantumExp; omega
    have h2 : (2 : ℝ) ^ (16384 : ℤ) ≤ v := (zpow_le_zpow_right₀ (by norm_num) hbig).trans lo
    have h3 : (0 : ℝ) < 2 ^ (16270 : ℤ) := zpow_pos (by norm_num) _
    exact ⟨fun _ => (sub_le_self _ h3.le).trans h2, fun _ => .inl h1⟩
  · have h1 : ¬ 16271 < quantumExp (Int.log 2 v) := by unfold quantumExp; omega
    rw [or_iff_right h1]
    by_cases hl : Int.log 2 v = 16383
    · have hq' : quantumExp (Int.log 2 v) = 16271 := (hqe _ (by omega)).2 hl
      rw [hq', and_iff_right rfl]
      obtain ⟨h0, hb, -, -⟩ := div_quantum_bounds hv
      rw [hq'] at h0 hb
      obtain ⟨a1, a2⟩ := rneReal_spec h0.le
      have hle := (rneReal_quantum_bounds hv).1
      rw [hq'] at hle
      rw [e1, e2, ← sub_mul, ← le_div_iff₀ hq]
      constructor
      · intro h
        rw [h] at a1
        have := (abs_le.1 a1).1
        push_cast at this
        linarith
      · intro h
        by_contra hne
        have hlt : rneReal (v / 2 ^ (16271 : ℤ)) + 1 ≤ 2 ^ 113 := by omega
        have hc : ((rneReal (v / 2 ^ (16271 : ℤ)) : ℝ)) + 1 ≤ 2 ^ 113 := by exact_mod_cast hlt
        have h4 := (abs_le.1 a1).2
        have h5 : v / 2 ^ (16271 : ℤ) - rneReal (v / 2 ^ (16271 : ℤ)) = 1 / 2 := by linarith
        have h6 : |v / 2 ^ (16271 : ℤ) - rneReal (v / 2 ^ (16271 : ℤ))| = 1 / 2 := by
          rw [h5, abs_of_pos (by norm_num)]
        have h7 := a2 h6
        have h8 : (rneReal (v / 2 ^ (16271 : ℤ)) : ℝ) + 1 = 2 ^ 113 := by linarith
        have h9 : rneReal (v / 2 ^ (16271 : ℤ)) + 1 = 2 ^ 113 := by exact_mod_cast h8
        omega
    · have hsm : Int.log 2 v + 1 ≤ 16383 := by omega
      have h2 : v < (2 : ℝ) ^ (16383 : ℤ) := hi.trans_le (zpow_le_zpow_right₀ (by norm_num) hsm)
      have e3 : (2 : ℝ) ^ (16383 : ℤ) = 2 ^ 112 * 2 ^ (16271 : ℤ) := by
        rw [← zpow_natCast, ← zpow_add₀ two]; rfl
      constructor
      · rintro ⟨h, -⟩
        exact absurd ((hqe _ (by omega)).1 h) (by omega)
      · intro h
        rw [e1, e2] at h
        rw [e3] at h2
        generalize (2 : ℝ) ^ (16271 : ℤ) = c at h h2 hq
        exfalso
        linarith

/-- RoundPack at and above the overflow threshold (R421, R423). -/
theorem roundPackReal_of_overflow (s : Bool) {v : ℝ} (h : (2 : ℝ) ^ (16384 : ℤ) - 2 ^ (16270 : ℤ) ≤ v) :
    roundPackReal s v = signedInf s := by
  have h0 : (2 : ℝ) ^ (16270 : ℤ) < 2 ^ (16384 : ℤ) := zpow_lt_zpow_right₀ (by norm_num) (by norm_num)
  have hv : 0 < v := (sub_pos.2 h0).trans_le h
  unfold roundPackReal
  rw [if_neg hv.ne']
  exact packRounded_inf s ((roundPackReal_overflow_iff hv).2 h)

/-- The value of RoundPack below the overflow threshold: a whole number of quanta (R421). -/
theorem roundPackReal_value (s : Bool) {v : ℝ} (hv : 0 < v) (h : v < (2 : ℝ) ^ (16384 : ℤ) - 2 ^ (16270 : ℤ)) :
    isFinite (roundPackReal s v) = true ∧
      |valReal (roundPackReal s v)| =
        rneReal (v / 2 ^ quantumExp (Int.log 2 v)) * 2 ^ quantumExp (Int.log 2 v) := by
  have hno := (roundPackReal_overflow_iff hv).not.2 (not_le.2 h)
  rw [not_or, not_and, not_lt] at hno
  obtain ⟨h1, h2⟩ := rneReal_quantum_bounds hv
  obtain ⟨-, -, h3, -⟩ := div_quantum_bounds hv
  have := packRounded_value s h3 hno.1 h1 h2 (fun he => lt_of_le_of_ne h1 (hno.2 he))
  unfold roundPackReal
  rw [if_neg hv.ne']
  refine ⟨this.1, ?_⟩
  unfold valReal
  rw [← Rat.cast_abs, this.2]
  push_cast
  rfl

/-- The significand of a finite quad, with the hidden bit of a normal one (R400, R403). -/
def significand (q : Quad) : Nat := if quadExp q = 0 then quadFrac q else 2 ^ 112 + quadFrac q

/-- The exponent of a finite quad's significand's unit (R400, R403). -/
def unitExp (q : Quad) : Int := max (quadExp q : Int) 1 - 16495

theorem significand_lt (q : Quad) : significand q < 2 ^ 113 := by
  have := quadFrac_lt q
  unfold significand
  split <;> omega

theorem significand_pos {q : Quad} (hz : isZero q = false) : 0 < significand q := by
  have h0 : ¬(quadExp q = 0 ∧ quadFrac q = 0) := by
    rw [← isZero_iff, hz]
    simp
  unfold significand
  split <;> omega

/-- |val(q)| is the significand times a power of two (R403). -/
theorem abs_val_eq_significand (q : Quad) : |val q| = (significand q : ℚ) * 2 ^ unitExp q := by
  have two : (2 : ℚ) ≠ 0 := by norm_num
  rw [abs_val, magnitude, unit_cast, significand, unitExp]
  split
  · rename_i h
    rw [h, show max ((0 : ℕ) : ℤ) 1 - 16495 = -16494 by rfl, zpow_neg, div_eq_mul_inv]
  · rename_i h
    have h1 : max (quadExp q : ℤ) 1 - 16495 = ((quadExp q - 1 : ℕ) : ℤ) - 16494 := by omega
    rw [h1, zpow_sub₀ two, Nat.cast_mul, mul_div_assoc, zpow_natCast, Nat.cast_pow 2 (quadExp q - 1),
      Nat.cast_ofNat]

theorem abs_valReal_eq_significand (q : Quad) : |valReal q| = (significand q : ℝ) * 2 ^ unitExp q := by
  unfold valReal
  rw [← Rat.cast_abs, abs_val_eq_significand]
  push_cast
  rfl

theorem val_of_isZero {q : Quad} (hz : isZero q = true) : val q = 0 := by
  rw [val_eq_scaled]
  have : scaled q = 0 := by
    rw [← Int.natAbs_eq_zero, natAbs_scaled]
    exact (magnitude_eq_zero_iff q).2 hz
  rw [this, Int.cast_zero, zero_div]

theorem val_eq_zero_iff (q : Quad) : val q = 0 ↔ isZero q = true := by
  refine ⟨fun h => ?_, val_of_isZero⟩
  have h1 := abs_val q
  rw [h, abs_zero, eq_comm, div_eq_zero_iff] at h1
  have hu : (unit : ℚ) ≠ 0 := (Nat.cast_pos.2 unit_pos).ne'
  rcases h1 with h1 | h1
  · exact (magnitude_eq_zero_iff q).1 (by exact_mod_cast h1)
  · exact absurd h1 hu

/-- floor(log2) of m·2^k for an m whose top bit is bit b. -/
theorem log_mul_zpow {m : ℕ} (b : ℕ) (k : ℤ) (h1 : 2 ^ b ≤ m) (h2 : m < 2 ^ (b + 1)) :
    Int.log 2 ((m : ℝ) * 2 ^ k) = b + k := by
  have two : (2 : ℝ) ≠ 0 := by norm_num
  have hk : (0 : ℝ) < 2 ^ k := zpow_pos (by norm_num) _
  have hm : 0 < m := (Nat.two_pow_pos b).trans_le h1
  have hv : (0 : ℝ) < (m : ℝ) * 2 ^ k := mul_pos (Nat.cast_pos.2 hm) hk
  have c1 : (2 : ℝ) ^ b ≤ m := by exact_mod_cast h1
  have c2 : (m : ℝ) < 2 ^ (b + 1) := by exact_mod_cast h2
  have lo : (2 : ℝ) ^ ((b : ℤ) + k) ≤ (m : ℝ) * 2 ^ k := by
    rw [zpow_add₀ two, zpow_natCast]
    exact mul_le_mul_of_nonneg_right c1 hk.le
  have hi : (m : ℝ) * 2 ^ k < 2 ^ ((b : ℤ) + k + 1) := by
    rw [show (b : ℤ) + k + 1 = ((b + 1 : ℕ) : ℤ) + k by push_cast; ring, zpow_add₀ two, zpow_natCast]
    exact mul_lt_mul_of_pos_right c2 hk
  have lo' := (Int.zpow_le_iff_le_log (b := 2) (by norm_num) hv).1 (by exact_mod_cast lo)
  have hi' := (Int.lt_zpow_iff_log_lt (b := 2) (by norm_num) hv).1 (by exact_mod_cast hi)
  omega

/-- The quantum RoundPack chooses for a quad's own value is the quad's own (R400, R421). -/
theorem quantumExp_log_abs_valReal {q : Quad} (hz : isZero q = false) :
    quantumExp (Int.log 2 |valReal q|) = unitExp q := by
  have hf := quadFrac_lt q
  have hp := significand_pos hz
  rw [abs_valReal_eq_significand]
  unfold significand unitExp at *
  by_cases he : quadExp q = 0
  · rw [if_pos he] at *
    rw [he, log_mul_zpow (quadFrac q).log2 _ (Nat.log2_self_le hp.ne') Nat.lt_log2_self]
    have : (quadFrac q).log2 < 112 := (Nat.log2_lt hp.ne').2 hf
    unfold quantumExp
    omega
  · rw [if_neg he, log_mul_zpow 112 _ (by omega) (by omega)]
    unfold quantumExp
    omega

theorem signReal_iff (y : ℝ) : signReal y = true ↔ y < 0 := by
  unfold signReal
  exact decide_eq_true_iff

/-- A real of magnitude 2^16384 or more rounds to an infinity (R421). -/
theorem nearestQuad_of_overflow {y : ℝ} {n : ℕ} (hn : 16384 ≤ n) (h : (2 : ℝ) ^ n ≤ y) : nearestQuad y = signedInf false ∧ nearestQuad (-y) = signedInf true := by
  have hp : 0 < y := lt_of_lt_of_le (by positivity) h
  have hle : (2 : ℝ) ^ (16384 : ℤ) - 2 ^ (16270 : ℤ) ≤ y := by
    refine (sub_le_self _ (by positivity)).trans (le_trans ?_ h)
    rw [← zpow_natCast]
    exact zpow_le_zpow_right₀ (by norm_num) (by exact_mod_cast hn)
  have hf : signReal y = false := by rw [← Bool.not_eq_true, signReal_iff]; exact not_lt.2 hp.le
  have ht : signReal (-y) = true := (signReal_iff (-y)).2 (neg_lt_zero.2 hp)
  unfold nearestQuad
  rw [abs_neg, abs_of_pos hp, hf, ht]
  exact ⟨roundPackReal_of_overflow _ hle, roundPackReal_of_overflow _ hle⟩

/-- The correctly rounded table meets the contract, so a table that does exists (R801, R802). -/
theorem exists_meetsContract (u : Fn → ℚ) : ∃ fn, MeetsContract u fn :=
  ⟨fun f a b => nearestQuad (exactValue f a b), fun _ _ _ _ => Or.inl rfl⟩

end Sys2Proof.Machine
end

