-- ==== Sys2Proof/Machine/Parameters.lean ====
section
/-! DEFINITION. What a block's implementation parameters are: the four rows of spec/00_scope.md rule R9, each with the limits
the rules set on it. The data carry their limits, so every choice of them is one the spec allows. -/

namespace Sys2Proof.Machine

/-- The implementation parameters of a block, with the limits of their ranges (R9). -/
structure Parameters where
  /-- TBUF_SIZE − 64, so that TBUF_SIZE is any number from 64 to 4096. -/
  tbufExtra : Fin 4033
  /-- NAN_PATTERN: the sign bit and T[110:0] of the quiet NaN that a command delivers, by the command, by which of its
  results it is (0 for R, 1 for R2) and by its operand values (R425). -/
  nanPattern : Instr → Nat → List Quad → BitVec 112
  /-- ADD and MUL of operands that are not NaNs commute bit for bit, so their NaN does not depend on the order (R510 (a)). -/
  nanPattern_comm : ∀ cmd ∈ [Instr.add, .mul], ∀ a b, isNaN a = false → isNaN b = false →
    nanPattern cmd 0 [a, b] = nanPattern cmd 0 [b, a]
  /-- ULP_BOUND_f: any rational ≥ 1/2. -/
  ulpBound : Fn → ℚ
  half_le_ulpBound : ∀ f, 1 / 2 ≤ ulpBound f
  /-- FN_f: any total functions of the operands that meet R801 at every input that is not special (R802), and have the
  values the rules name. -/
  fn : FnTable
  fn_contract : MeetsContract ulpBound fn
  fn_named : HasNamedValues fn

end Sys2Proof.Machine
end

