-- ==== Sys2Proof/Machine/TrigSign.lean ====
section
/-! DEFINITION. The sign of the sine and the cosine of a rational, from the terms of the series. Machine/SampleParameters.lean alone
uses it; no step does. -/

namespace Sys2Proof.Machine

/-- The first n terms of the series of the cosine (c) or the sine (not c) of x. -/
def trigPartial (c : Bool) (x : ℚ) (n : ℕ) : ℚ :=
  ∑ k ∈ Finset.range n, if c then (-1) ^ k * x ^ (2 * k) / (2 * k).factorial else (-1) ^ k * x ^ (2 * k + 1) / (2 * k + 1).factorial

/-- A bound on what the rest of the series adds, for |x| ≤ n. -/
def trigBound (x : ℚ) (n : ℕ) : ℚ := 2 * |x| ^ (2 * n) / (2 * n).factorial

/-- The cosine (c) or the sine (not c). -/
noncomputable def trigReal (c : Bool) (x : ℝ) : ℝ := if c then Real.cos x else Real.sin x

/-- Both series together are the series of exp(i·x). -/
theorem complex_partial (x : ℚ) (n : ℕ) :
    ∑ m ∈ Finset.range (2 * n), (((x : ℝ) : ℂ) * Complex.I) ^ m / (m.factorial : ℂ) =
      ((trigPartial true x n : ℝ) : ℂ) + ((trigPartial false x n : ℝ) : ℂ) * Complex.I := by
  induction n with
  | zero => simp [trigPartial]
  | succ n ih =>
    rw [show 2 * (n + 1) = 2 * n + 1 + 1 by ring, Finset.sum_range_succ, Finset.sum_range_succ, ih]
    have hI : Complex.I ^ (2 * n) = (-1) ^ n := by rw [pow_mul, Complex.I_sq]
    unfold trigPartial
    rw [Finset.sum_range_succ, Finset.sum_range_succ]
    simp only [if_true, Bool.false_eq_true, if_false, mul_pow, pow_succ Complex.I, hI]
    push_cast
    ring

theorem trig_error (c : Bool) (x : ℚ) {n : ℕ} (h : |x| ≤ n) :
    |trigReal c x - (trigPartial c x n : ℝ)| ≤ (trigBound x n : ℝ) := by
  have hx : ‖((x : ℝ) : ℂ) * Complex.I‖ = |(x : ℝ)| := by simp
  have hle : |(x : ℝ)| ≤ n := by exact_mod_cast h
  have hb := Complex.exp_bound' (x := ((x : ℝ) : ℂ) * Complex.I) (n := 2 * n) (by
    rw [hx, div_le_iff₀ (by positivity)]
    push_cast
    linarith)
  rw [complex_partial, hx] at hb
  set z := Complex.exp (((x : ℝ) : ℂ) * Complex.I) - (((trigPartial true x n : ℝ) : ℂ) + ((trigPartial false x n : ℝ) : ℂ) * Complex.I) with hz
  have hbound : |(x : ℝ)| ^ (2 * n) / ((2 * n).factorial : ℝ) * 2 = (trigBound x n : ℝ) := by
    unfold trigBound
    push_cast
    ring
  rw [hbound] at hb
  cases c
  · have : trigReal false x - (trigPartial false x n : ℝ) = z.im := by
      rw [hz, Complex.sub_im, Complex.exp_ofReal_mul_I_im]
      simp [trigReal]
    rw [this]
    exact (Complex.abs_im_le_norm z).trans hb
  · have : trigReal true x - (trigPartial true x n : ℝ) = z.re := by
      rw [hz, Complex.sub_re, Complex.exp_ofReal_mul_I_re]
      simp [trigReal]
    rw [this]
    exact (Complex.abs_re_le_norm z).trans hb

/-- n terms are enough to see the sign. -/
abbrev trigDecided (c : Bool) (x : ℚ) (n : ℕ) : Prop := |x| ≤ n ∧ trigBound x n < |trigPartial c x n|

/-- The sine and cosine of a nonzero rational are not 0, since π is irrational (R815, R818). -/
theorem trigReal_ne_zero (c : Bool) {x : ℚ} (hx : x ≠ 0) : trigReal c x ≠ 0 := by
  cases c
  · show Real.sin x ≠ 0
    rw [Ne, Real.sin_eq_zero_iff]
    rintro ⟨k, hk⟩
    have hk0 : (k : ℝ) ≠ 0 := by
      rintro h0
      rw [h0, zero_mul] at hk
      exact hx (by exact_mod_cast hk.symm)
    exact irrational_pi ⟨x / k, by push_cast; rw [← hk]; field_simp⟩
  · show Real.cos x ≠ 0
    rw [Ne, Real.cos_eq_zero_iff]
    rintro ⟨k, hk⟩
    have hk0 : (2 * (k : ℝ) + 1) ≠ 0 := by
      intro h
      have : (2 * k + 1 : ℤ) = 0 := by exact_mod_cast h
      omega
    exact irrational_pi ⟨2 * x / (2 * k + 1), by push_cast; rw [hk]; field_simp⟩

theorem exists_trigDecided (c : Bool) {x : ℚ} (hx : x ≠ 0) : ∃ n, trigDecided c x n := by
  have h0 := abs_pos.2 (trigReal_ne_zero c hx)
  have ht : Filter.Tendsto (fun n : ℕ => (trigBound x n : ℝ)) Filter.atTop (nhds 0) := by
    have h1 := (FloorSemiring.tendsto_pow_div_factorial_atTop |(x : ℝ)|).const_mul 2
    have h2 := h1.comp (Filter.tendsto_id.const_mul_atTop' (r := 2) (by norm_num) : Filter.Tendsto (fun n : ℕ => 2 * n) Filter.atTop Filter.atTop)
    rw [mul_zero] at h2
    refine h2.congr fun n => ?_
    simp only [Function.comp, trigBound]
    push_cast
    ring
  have he := (ht.eventually (gt_mem_nhds (half_pos h0))).and (Filter.eventually_ge_atTop ⌈|x|⌉₊)
  obtain ⟨n, hn, hge⟩ := he.exists
  have hxn : |x| ≤ n := (Nat.le_ceil _).trans (by exact_mod_cast hge)
  refine ⟨n, hxn, ?_⟩
  have herr := trig_error c x hxn
  have : |trigReal c x| ≤ |trigReal c x - (trigPartial c x n : ℝ)| + |(trigPartial c x n : ℝ)| := by
    simpa using abs_add_le (trigReal c x - (trigPartial c x n : ℝ)) (trigPartial c x n : ℝ)
  have : (trigBound x n : ℝ) < |(trigPartial c x n : ℝ)| := by linarith
  exact_mod_cast this

/-- The sign of the cosine (c) or the sine (not c) of a nonzero rational, from as many terms as it takes. -/
def trigNegative (c : Bool) (x : ℚ) : Bool :=
  if hx : x ≠ 0 then decide (trigPartial c x (Nat.find (exists_trigDecided c hx)) < 0) else false

theorem trigNegative_iff (c : Bool) {x : ℚ} (hx : x ≠ 0) : trigNegative c x = true ↔ trigReal c x < 0 := by
  unfold trigNegative
  rw [dif_pos hx, decide_eq_true_iff]
  obtain ⟨hn, hb⟩ := Nat.find_spec (exists_trigDecided c hx)
  have herr := abs_le.1 (trig_error c x hn)
  have hb' : (trigBound x (Nat.find (exists_trigDecided c hx)) : ℝ) < |(trigPartial c x (Nat.find (exists_trigDecided c hx)) : ℝ)| := by
    exact_mod_cast hb
  generalize Nat.find (exists_trigDecided c hx) = n at *
  rw [← Rat.cast_lt (K := ℝ), Rat.cast_zero]
  constructor
  · intro h
    rw [abs_of_neg h] at hb'
    linarith [herr.2]
  · intro h
    by_contra h'
    rw [abs_of_nonneg (not_lt.1 h')] at hb'
    linarith [herr.1]

end Sys2Proof.Machine
end

