-- ==== Sys2Proof/Machine/SampleParameters.lean ====
section
/-! DEFINITION. One choice of parameters in the ranges of spec/00_scope.md rule R9. It only shows that the type `Parameters` has
a value, without which no constant of that type could be declared; the block's own parameters are not known to be it, and no
step and no claim uses it. -/

namespace Sys2Proof.Machine

/-- The sign of a function's exact value at an ordinary input. -/
def sampleSign (f : Fn) (a b : Quad) : Bool :=
  match f with
  | .exp | .cosh | .acos => false
  | .log => decide (val a < 1)
  | .pow => decide (val a < 0) && decide ((val b).num % 2 = 1)
  | .sinh | .tanh | .asin | .atan | .atan2 => decide (val a < 0)
  | .sin => trigNegative false (val a)
  | .cos => trigNegative true (val a)
  | .tan | .cot => trigNegative true (val a) ^^ trigNegative false (val a)

/-- Where a power is negative (R813). -/
theorem pow_neg_iff {a b : Quad} (hz : isZero a = false) (h : isNegative a = true → isInteger b = true) :
    valReal a ^ valReal b < 0 ↔ val a < 0 ∧ (val b).num % 2 = 1 := by
  have h0 : val a ≠ 0 := fun h0 => by rw [(val_eq_zero_iff a).1 h0] at hz; cases hz
  unfold valReal
  by_cases hneg : val a < 0
  · obtain ⟨hs, -⟩ := (val_lt_zero_iff a).1 hneg
    obtain ⟨k, hk⟩ := exists_int_of_isInteger (h (by unfold isNegative; rw [hs, hz]; rfl))
    have hr : ((val a : ℚ) : ℝ) < 0 := by exact_mod_cast hneg
    rw [hk, Rat.num_intCast, Rat.cast_intCast, Real.rpow_intCast]
    rcases Int.even_or_odd k with he | ho
    · have := he.zpow_nonneg (val a : ℝ)
      have h2 := Int.even_iff.1 he
      constructor
      · intro h'; linarith
      · intro h'; omega
    · exact ⟨fun _ => ⟨hneg, Int.odd_iff.1 ho⟩, fun _ => ho.zpow_neg_iff.2 hr⟩
  · have hr : (0 : ℝ) < (val a : ℝ) := by exact_mod_cast lt_of_le_of_ne (not_lt.1 hneg) h0.symm
    exact ⟨fun h' => absurd h' (not_lt.2 (Real.rpow_pos_of_pos hr _).le), fun h' => absurd h'.1 hneg⟩

theorem div_trig_neg_iff {x : ℚ} (hx : x ≠ 0) :
    Real.sin x / Real.cos x < 0 ↔ (trigNegative true x ^^ trigNegative false x) = true := by
  have hs := trigNegative_iff false hx
  have hc := trigNegative_iff true hx
  have hs0 : Real.sin x ≠ 0 := trigReal_ne_zero false hx
  have hc0 : Real.cos x ≠ 0 := trigReal_ne_zero true hx
  change _ ↔ Real.sin x < 0 at hs
  change _ ↔ Real.cos x < 0 at hc
  rw [div_neg_iff]
  rcases hs0.lt_or_gt with h1 | h1 <;> rcases hc0.lt_or_gt with h2 | h2 <;>
    cases hbs : trigNegative false x <;> cases hbc : trigNegative true x <;>
    simp_all [not_lt.2, le_of_lt]

theorem sampleSign_eq {f : Fn} {a b : Quad} (h : ordinaryInput f a b = true) :
    signReal (exactValue f a b) = sampleSign f a b := by
  have cast_neg : ∀ q : Quad, (valReal q < 0) = (val q < 0) := fun q => by
    unfold valReal; exact propext Rat.cast_lt_zero
  have ne : ∀ {q : Quad}, isZero q = false → val q ≠ 0 := fun {q} hz h0 => by
    rw [(val_eq_zero_iff q).1 h0] at hz; cases hz
  unfold ordinaryInput at h
  rw [Bool.eq_iff_iff, signReal_iff]
  cases f <;> simp only [Bool.and_eq_true, Bool.not_eq_true', bne_iff_ne] at h <;>
    simp only [exactValue, sampleSign, decide_eq_true_iff, Bool.false_eq_true, Bool.and_eq_true, iff_false, not_lt]
  case exp => exact (Real.exp_pos _).le
  case cosh => exact (Real.cosh_pos _).le
  case acos => exact Real.arccos_nonneg _
  case log =>
    obtain ⟨-, ⟨hz, hs⟩, -⟩ := h
    have hp : 0 ≤ val a := by
      by_contra hn
      rw [not_le, val_lt_zero_iff, hs] at hn
      exact absurd hn.1 (by decide)
    have hr : (0 : ℝ) < valReal a := by
      unfold valReal; exact_mod_cast lt_of_le_of_ne hp (ne hz).symm
    rw [Real.log_neg_iff hr]
    unfold valReal
    exact_mod_cast Iff.rfl
  case pow =>
    obtain ⟨-, ⟨⟨hz, -⟩, -⟩, hn⟩ := h
    exact pow_neg_iff hz fun ha => by
      rw [ha, Bool.true_and] at hn
      simpa using hn
  case sinh => rw [Real.sinh_neg_iff, cast_neg]
  case tanh => rw [Real.tanh_eq_sinh_div_cosh, div_neg_iff]; simp [Real.cosh_pos, not_lt.2 (Real.cosh_pos _).le, cast_neg]
  case asin => rw [Real.arcsin_lt_zero, cast_neg]
  case atan => rw [← cast_neg]; exact Real.arctan_lt_zero
  case atan2 => rw [Complex.arg_neg_iff, cast_neg]
  case sin => exact (trigNegative_iff false (ne h.2)).symm
  case cos => exact (trigNegative_iff true (ne h.2)).symm
  case tan =>
    rw [show Real.tan (valReal a) = _ from Real.tan_eq_sin_div_cos _]
    exact div_trig_neg_iff (ne h.2)
  case cot =>
    rw [← div_trig_neg_iff (ne h.2), div_neg_iff, div_neg_iff]
    exact ⟨fun h => h.elim (fun h => .inr ⟨h.2, h.1⟩) fun h => .inl ⟨h.2, h.1⟩,
      fun h => h.elim (fun h => .inr ⟨h.2, h.1⟩) fun h => .inl ⟨h.2, h.1⟩⟩

/-- Under so wide a bound the smallest subnormal of the right sign is acceptable for every real. -/
theorem acc_sample {y : ℝ} {s : Bool} (h : signReal y = s) : Acc (2 ^ 114) y (mkQuad s 0 1) := by
  have hz : quadExp (mkQuad s 0 1) = 0 := quadExp_mkQuad _ _ _ (by norm_num)
  have ht : quadFrac (mkQuad s 0 1) = 1 := quadFrac_mkQuad _ _ _ (by norm_num)
  have hv : |valReal (mkQuad s 0 1)| = 2 ^ (-16494 : ℤ) := by
    rw [abs_valReal_eq_significand]
    unfold significand unitExp
    rw [hz, ht]
    norm_num
  refine .inr ⟨isFinite_mkQuad _ _ _ (by decide), ?_, fun _ => by rw [quadSign_mkQuad, h]⟩
  have hq : ∀ e : ℤ, (-16494 : ℤ) ≤ quantumExp e ∧ e + 1 ≤ quantumExp e + 113 := fun e => by
    unfold quantumExp
    omega
  have hu : (2 : ℝ) ^ (-16494 : ℤ) ≤ ulp y ∧ |y| ≤ 2 ^ 113 * ulp y := by
    unfold ulp
    split_ifs with h0
    · rw [h0, abs_zero]
      exact ⟨le_refl _, by positivity⟩
    · refine ⟨zpow_le_zpow_right₀ (by norm_num) (hq _).1, ?_⟩
      have hlt : |y| < 2 ^ (Int.log 2 |y| + 1) := by
        exact_mod_cast Int.lt_zpow_succ_log_self (by norm_num) |y|
      refine hlt.le.trans ((zpow_le_zpow_right₀ (by norm_num) (hq _).2).trans (le_of_eq ?_))
      rw [zpow_add₀ (by norm_num), mul_comm]
      norm_cast
  have := abs_sub (valReal (mkQuad s 0 1)) y
  rw [hv] at this
  have h1 : (0 : ℝ) ≤ ulp y := (by positivity : (0 : ℝ) ≤ 2 ^ (-16494 : ℤ)).trans hu.1
  push_cast
  nlinarith [hu.1, hu.2]

/-- A table that meets the contract under the bound 2^114 and has the named values. -/
def sampleFn (f : Fn) (a b : Quad) : Quad :=
  if f = .exp ∧ val a = 20000 then signedInf false
  else if f = .sinh ∧ val a = 12000 then signedInf false
  else if f = .sinh ∧ val a = -12000 then signedInf true
  else mkQuad (sampleSign f a b) 0 1

theorem two_pow_le_exp (n : ℕ) : (2 : ℝ) ^ (7 * n) ≤ Real.exp (5 * n) := by
  have h : (2 : ℝ) ^ 7 ≤ Real.exp 5 := by
    have := Real.exp_one_gt_d9
    rw [show (5 : ℝ) = (5 : ℕ) * 1 by norm_num, Real.exp_nat_mul]
    exact le_trans (by norm_num) (pow_le_pow_left₀ (by norm_num) this.le 5)
  rw [pow_mul, mul_comm, Real.exp_nat_mul]
  exact pow_le_pow_left₀ (by positivity) h n

theorem two_pow_le_sinh : (2 : ℝ) ^ 16384 ≤ Real.sinh 12000 := by
  have h1 : (2 : ℝ) ^ (7 * 2400) ≤ Real.exp 12000 := by
    convert two_pow_le_exp 2400 using 2
    norm_num
  have h2 : Real.exp (-12000) ≤ 1 := Real.exp_le_one_iff.2 (by norm_num)
  have h3 : (2 : ℝ) ^ 16384 * 2 ^ 2 ≤ 2 ^ (7 * 2400) := by
    rw [← pow_add]
    exact pow_le_pow_right₀ (by norm_num) (by norm_num)
  have h4 : (1 : ℝ) ≤ 2 ^ 16384 := one_le_pow₀ (by norm_num)
  rw [Real.sinh_eq]
  generalize (2 : ℝ) ^ 16384 = p at *
  generalize (2 : ℝ) ^ (7 * 2400) = q at *
  linarith

theorem sampleFn_contract : MeetsContract (fun _ => 2 ^ 114) sampleFn := by
  intro f a b h
  unfold sampleFn
  split_ifs with h1 h2 h3
  · obtain ⟨rfl, hv⟩ := h1
    have hx : exactValue .exp a b = Real.exp 20000 := by
      simp only [exactValue, valReal, hv]; norm_num
    have := two_pow_le_exp 4000
    rw [hx]
    exact .inl (nearestQuad_of_overflow (n := 7 * 4000) (by norm_num) (by convert this using 2; norm_num)).1.symm
  · obtain ⟨rfl, hv⟩ := h2
    have hx : exactValue .sinh a b = Real.sinh 12000 := by
      simp only [exactValue, valReal, hv]; norm_num
    rw [hx]
    exact .inl (nearestQuad_of_overflow (by norm_num) two_pow_le_sinh).1.symm
  · obtain ⟨rfl, hv⟩ := h3
    have hx : exactValue .sinh a b = -Real.sinh 12000 := by
      simp only [exactValue, valReal, hv]; rw [← Real.sinh_neg]; norm_num
    rw [hx]
    exact .inl (nearestQuad_of_overflow (by norm_num) two_pow_le_sinh).2.symm
  · exact acc_sample (sampleSign_eq h)

theorem sampleFn_named : HasNamedValues sampleFn := by
  intro a b _
  refine ⟨fun h => if_pos ⟨rfl, h⟩, fun _ => ?_, fun h => ?_, fun h => ?_⟩
  · unfold sampleFn
    simp only [reduceCtorEq, false_and, if_false]
    rw [← Bool.not_eq_true, isZero_iff, quadFrac_mkQuad _ _ _ (by norm_num)]
    simp
  · unfold sampleFn
    rw [if_neg (by simp), if_pos ⟨rfl, h⟩]
  · unfold sampleFn
    rw [if_neg (by simp), if_neg (by rw [h]; norm_num), if_pos ⟨rfl, h⟩]

/-- Parameters in the ranges of R9. -/
def sampleParameters : Parameters where
  tbufExtra := 0
  nanPattern _ _ _ := 0
  nanPattern_comm _ _ _ _ _ _ := rfl
  ulpBound _ := 2 ^ 114
  half_le_ulpBound _ := by norm_num
  fn := sampleFn
  fn_contract := sampleFn_contract
  fn_named := sampleFn_named

end Sys2Proof.Machine
end

