-- ==== Sys2Proof/Config.lean ====
section
/-! DEFINITION. The block's implementation parameters (spec/00_scope.md rule R9): one opaque constant, of which nothing can be
proved but what its type says, the ranges of R9. They are not state: no command and no reset changes them (R132). -/

namespace Sys2Proof

/-- DESIGN CHOICE (log entries 4 to 7): some parameters, in the ranges the spec gives them. It has no body and cannot be
unfolded; its argument only shows Lean that such parameters exist. -/
opaque Config.someParameters [Inhabited Machine.Parameters] : Machine.Parameters

/-- The block's own parameters. -/
def Config.block : Machine.Parameters := @Config.someParameters ⟨Machine.sampleParameters⟩

/-- TBUF_SIZE, the bytes in the text buffer: any number from 64 to 4096 (R9, D33). -/
def Config.tbufSize : Nat := Config.block.tbufExtra.val + 64

/-- NAN_PATTERN, the sign bit and T[110:0] of the quiet NaN a command delivers (R9, R425, D7). -/
def Config.nanPattern (cmd : Instr) (result : Nat) (operands : List Quad) : BitVec 112 :=
  Config.block.nanPattern cmd result operands

/-- ULP_BOUND_f, the error bound of f in units in the last place: any rational ≥ 1/2 (R9, D21). -/
def Config.ulpBound (f : Machine.Fn) : ℚ := Config.block.ulpBound f

/-- FN_f, the functions the engine computes where no rule gives an exact value (R9, R802, D21). -/
def Config.fn : Machine.FnTable := Config.block.fn

end Sys2Proof
end

