-- ==== Sys2Proof/Machine/State.lean ====
section
/-! DEFINITION. The state of the block, the host's accesses, the faults and refusals, and reset
(spec/10_state.md, spec/20_memory.md, spec/70_reset_and_hazards.md rule R1100). -/

namespace Sys2Proof.Machine

/-- A 64-bit register, or half of a quad register, whose reset value the spec leaves unspecified: its contents, and
whether the host or a command has written it since reset (R150). -/
structure Reg where
  val : Word
  written : Bool
  deriving DecidableEq, Repr

/-- DESIGN CHOICE (log entry 2): such a register after reset holds 0 and is unwritten. -/
def Reg.unwritten : Reg := ⟨0, false⟩

/-- A register holding a value just written to it. -/
def Reg.of (v : Word) : Reg := ⟨v, true⟩

/-- The registers of the interface window, in the order of the register map (R201). -/
inductive RegName where
  | aLo
  | aHi
  | bLo
  | bHi
  | n
  | fopt
  | tlen
  | cmd
  | rLo
  | rHi
  | r2Lo
  | r2Hi
  | ri
  | st
  deriving DecidableEq, Repr

/-- One bus access of the host: its width in bits, its offset in the window and, for a write, the value driven, of
which a narrower write uses the low bits (R202, R204, R230). -/
inductive Access where
  | read (width : Nat) (off : Offset)
  | write (width : Nat) (off : Offset) (v : Word)
  deriving DecidableEq, Repr

/-- What the outside does to the block: an access of the host, the platform's reset, or a reset that arrives while
an access (a CMD write, its command running) is under way (R100, R1100). -/
inductive Event where
  | access (a : Access)
  | reset
  | resetDuring (a : Access)
  deriving DecidableEq, Repr

/-- The data a host read returns (R204, R230). -/
inductive ReadData where
  | word (v : Word)
  | byte (b : Byte)
  deriving DecidableEq, Repr

/-- Why the machine stops. A command's usage errors are not here: they are next states (R1002). -/
inductive Fault where
  /-- Raised by a host access that touches a reserved offset (R205, R206); safe: the access has no effect on the block. -/
  | busReserved (off : Offset)
  /-- Raised by a host access of a width its offset does not take (R202, R204, R206); safe. -/
  | busWidth (off : Offset) (width : Nat)
  /-- Raised by a host access that is misaligned, or inside a register but not at its offset (R202, R203, R206); safe. -/
  | busMisaligned (off : Offset)
  /-- Raised by a host write to R, R2, RI or ST (R206); safe. -/
  | busReadOnly (off : Offset)
  /-- Raised by a host read of a text-buffer byte nothing has written (R150, R206); safe. -/
  | busUnwritten (off : Offset)
  /-- Raised by PARSE when it reads the text-buffer byte of this index and nothing has written it (R150, R1005); safe. -/
  | operandUnwritten (index : Nat)
  deriving DecidableEq, Repr

/-- Why an instruction has no meaning in the model. -/
inductive Refusal where
  /-- Raised by `exec` for a command that has no meaning yet; safe. -/
  | notModelled (mnemonic : String)
  deriving DecidableEq, Repr

/-- The state: the registers of 10_state.md, the text buffer, and the host's side of the interface. -/
structure State where
  /-- A[63:0] (R110). -/
  aLo : Reg
  /-- A[127:64] (R110). -/
  aHi : Reg
  /-- B[63:0] (R111). -/
  bLo : Reg
  /-- B[127:64] (R111). -/
  bHi : Reg
  /-- The integer operand N (R112). -/
  n : Reg
  /-- The formatting options FOPT (R113). -/
  fopt : Word
  /-- The text length TLEN (R114). -/
  tlen : Word
  /-- The command register CMD: the last value written (R115). -/
  cmd : Word
  /-- R[63:0], the primary result (R120). -/
  rLo : Reg
  /-- R[127:64] (R120). -/
  rHi : Reg
  /-- R2[63:0], the secondary result (R121). -/
  r2Lo : Reg
  /-- R2[127:64] (R121). -/
  r2Hi : Reg
  /-- The integer result RI (R122). -/
  ri : Reg
  /-- The status register ST (R123). -/
  st : Word
  /-- TBUF: (index, byte), indices rising; an index not listed is unwritten and has no value (R125, R150; log entry 3). -/
  tbuf : List Host.Cell
  /-- The model's own field, DESIGN CHOICE (log entry 1): the host's and platform's actions to come, oldest first (R100, R220). -/
  pending : List Event
  /-- The model's own field, DESIGN CHOICE (log entry 9): what the host's last read returned (R230). -/
  readData : Option ReadData
  deriving DecidableEq, Repr

/-- The state after reset (R150, R1100). -/
def State.reset : State where
  aLo := Reg.unwritten
  aHi := Reg.unwritten
  bLo := Reg.unwritten
  bHi := Reg.unwritten
  n := Reg.unwritten
  fopt := 0x2C0423
  tlen := 0
  cmd := 0
  rLo := Reg.unwritten
  rHi := Reg.unwritten
  r2Lo := Reg.unwritten
  r2Hi := Reg.unwritten
  ri := Reg.unwritten
  st := 0
  tbuf := []
  pending := []
  readData := none

end Sys2Proof.Machine
end

