-- ==== Sys2Proof/Machine/Flags.lean ====
section
/-! DEFINITION. The status register's values (spec/10_state.md rule R123, spec/60_exceptions.md rules R1000, R1001). The block has no
condition codes and no IEEE flags (R124); ST is its only flag state. -/

namespace Sys2Proof.Machine

/-- The usage errors of R1000. -/
inductive UsageError where
  | illegalCmd
  | badOperand
  | parseError
  | precisionError
  | badOption
  | bufferOverflow
  deriving DecidableEq, Repr

/-- The CODE of a usage error (R1000). -/
def errorCode (e : UsageError) : Word :=
  match e with
  | .illegalCmd => 1
  | .badOperand => 2
  | .parseError => 3
  | .precisionError => 4
  | .badOption => 5
  | .bufferOverflow => 6

/-- ST after a success: CODE = OK, and INEXACT in bit 8 (R123, R1001). -/
def statusOk (inexact : Bool) : Word := if inexact then 0x100 else 0

/-- CODE, ST[7:0] (R123). -/
def statusCode (st : Word) : Nat := (st.extractLsb' 0 8).toNat

/-- INEXACT, ST[8] (R123). -/
def statusInexact (st : Word) : Bool := st.getLsbD 8

end Sys2Proof.Machine
end

