-- ==== Sys2Proof/Machine/Ops.lean ====
section
/-! DEFINITION. The operations on the registers and the text buffer, and the one way a command fails
(spec/10_state.md, spec/20_memory.md rules R204, R210, spec/60_exceptions.md rules R1001, R1002). The block takes no traps and
returns from none (R1007, R1008): `raiseError` is all the exception handling there is. -/

namespace Sys2Proof.Machine

/-- `TBUF[i]`, or nothing when it is unwritten (R125, R150). -/
def readByte (m : List Host.Cell) (i : Nat) : Option Byte :=
  match m with
  | [] => none
  | (j, b) :: rest => if j = i then some b else readByte rest i

/-- `TBUF[i] <- b`, keeping the indices rising (R204). -/
def writeByte (m : List Host.Cell) (i : Nat) (b : Byte) : List Host.Cell :=
  match m with
  | [] => [(i, b)]
  | (j, c) :: rest =>
    if i < j then (i, b) :: (j, c) :: rest
    else if i = j then (i, b) :: rest
    else (j, c) :: writeByte rest i b

/-- The canonical form of the text buffer: indices strictly rising. -/
def bufferWf (m : List Host.Cell) : Bool :=
  match m with
  | [] => true
  | (i, _) :: rest => rest.all (fun c => decide (i < c.1)) && bufferWf rest

/-- `bytes(i, n)` of 45_text.md: `TBUF[i], …, TBUF[i+n−1]`, or the first index of them that is unwritten. -/
def readBytes (m : List Host.Cell) (i n : Nat) : Except Nat (List Byte) :=
  match n with
  | 0 => .ok []
  | n + 1 =>
    match readByte m i with
    | none => .error i
    | some b =>
      match readBytes m (i + 1) n with
      | .error j => .error j
      | .ok bs => .ok (b :: bs)

/-- The bytes of a list into `TBUF[i], TBUF[i+1], …` (R204, R930). -/
def writeBytes (m : List Host.Cell) (i : Nat) (bs : List Byte) : List Host.Cell :=
  match bs with
  | [] => m
  | b :: rest => writeBytes (writeByte m i b) (i + 1) rest

/-- The eight bytes of a word, least significant first (R204, R210). -/
def wordBytes (v : Word) : List Byte :=
  [v.extractLsb' 0 8, v.extractLsb' 8 8, v.extractLsb' 16 8, v.extractLsb' 24 8,
   v.extractLsb' 32 8, v.extractLsb' 40 8, v.extractLsb' 48 8, v.extractLsb' 56 8]

/-- The word of a list of bytes, least significant first: `TBUF[i+n−1] ++ … ++ TBUF[i]` (R204, R210). -/
def bytesWord (bs : List Byte) : Word :=
  match bs with
  | [] => 0
  | b :: rest => (bytesWord rest <<< 8) ||| b.setWidth 64

/-- The value of a register as the host reads it (R201). A register the spec leaves unwritten at reset answers the
value it holds (log entry 2). -/
def State.readReg (s : State) (r : RegName) : Word :=
  match r with
  | .aLo => s.aLo.val
  | .aHi => s.aHi.val
  | .bLo => s.bLo.val
  | .bHi => s.bHi.val
  | .n => s.n.val
  | .fopt => s.fopt
  | .tlen => s.tlen
  | .cmd => s.cmd
  | .rLo => s.rLo.val
  | .rHi => s.rHi.val
  | .r2Lo => s.r2Lo.val
  | .r2Hi => s.r2Hi.val
  | .ri => s.ri.val
  | .st => s.st

/-- Whether a register has been written since reset, or has a reset value (R150). -/
def State.regWritten (s : State) (r : RegName) : Bool :=
  match r with
  | .aLo => s.aLo.written
  | .aHi => s.aHi.written
  | .bLo => s.bLo.written
  | .bHi => s.bHi.written
  | .n => s.n.written
  | .fopt | .tlen | .cmd => true
  | .rLo => s.rLo.written
  | .rHi => s.rHi.written
  | .r2Lo => s.r2Lo.written
  | .r2Hi => s.r2Hi.written
  | .ri => s.ri.written
  | .st => true

/-- Whether the host may write a register (R201). -/
def regWritable (r : RegName) : Bool :=
  match r with
  | .aLo | .aHi | .bLo | .bHi | .n | .fopt | .tlen | .cmd => true
  | .rLo | .rHi | .r2Lo | .r2Hi | .ri | .st => false

/-- A host write of a register stores the value (R214); one to a read-only register stores nothing (the bus refuses
it before this, R206). The command a CMD write runs is Machine/Bus.lean's. -/
def State.writeReg (s : State) (r : RegName) (v : Word) : State :=
  match r with
  | .aLo => { s with aLo := Reg.of v }
  | .aHi => { s with aHi := Reg.of v }
  | .bLo => { s with bLo := Reg.of v }
  | .bHi => { s with bHi := Reg.of v }
  | .n => { s with n := Reg.of v }
  | .fopt => { s with fopt := v }
  | .tlen => { s with tlen := v }
  | .cmd => { s with cmd := v }
  | .rLo | .rHi | .r2Lo | .r2Hi | .ri | .st => s

/-- `R <- q`, both halves (R120). -/
def State.withR (s : State) (q : Quad) : State :=
  { s with rLo := Reg.of (q.extractLsb' 0 64), rHi := Reg.of (q.extractLsb' 64 64) }

/-- `R2 <- q`, both halves (R121). -/
def State.withR2 (s : State) (q : Quad) : State :=
  { s with r2Lo := Reg.of (q.extractLsb' 0 64), r2Hi := Reg.of (q.extractLsb' 64 64) }

/-- `RI <- v` (R122). -/
def State.withRI (s : State) (v : Word) : State := { s with ri := Reg.of v }

/-- `ST <- v` (R123). -/
def State.withST (s : State) (v : Word) : State := { s with st := v }

/-- `TLEN <- v`, as FORMAT writes it (R114, R930). -/
def State.withTLEN (s : State) (v : Word) : State := { s with tlen := v }

/-- The text buffer with the bytes of a text at index 0 on (R930). -/
def State.withText (s : State) (text : List Byte) : State := { s with tbuf := writeBytes s.tbuf 0 text }

/-- The end of a successful command that is neither PARSE nor FORMAT: `ST <- 0` (R1001). -/
def finish (s : State) : Host.Outcome State Fault Refusal := .next (s.withST (statusOk false))

/-- The end of a command with a quad result: `R <- q; ST <- 0`. -/
def finishR (s : State) (q : Quad) : Host.Outcome State Fault Refusal := finish (s.withR q)

/-- The end of a command with an integer result: `RI <- v; ST <- 0`. -/
def finishRI (s : State) (v : Word) : Host.Outcome State Fault Refusal := finish (s.withRI v)

/-- `raise Error(code)`: ST is written with the code and nothing else changes (R1001, R1002). -/
def raiseError (s : State) (e : UsageError) : Host.Outcome State Fault Refusal := .next (s.withST (errorCode e))

end Sys2Proof.Machine
end

