-- ==== Sys2Proof/Machine/Operands.lean ====
section
/-! DEFINITION. How a command reads its operands (spec/30_encoding.md rule R302) and which NaN it delivers
(spec/40_classify.md rule R425). -/

namespace Sys2Proof.Machine

/-- The quad operand A, `A_HI ++ A_LO` (R12, R110). -/
def State.a (s : State) : Quad := s.aHi.val ++ s.aLo.val

/-- The quad operand B, `B_HI ++ B_LO` (R12, R111). -/
def State.b (s : State) : Quad := s.bHi.val ++ s.bLo.val

/-- The primary result R as one quad (R120). -/
def State.r (s : State) : Quad := s.rHi.val ++ s.rLo.val

/-- The secondary result R2 as one quad (R121). -/
def State.r2 (s : State) : Quad := s.r2Hi.val ++ s.r2Lo.val

/-- `sint64(N)`, for CVTI and POWI (R302). -/
def State.nInt (s : State) : Int := s.n.val.toInt

/-- FOPT.PREC, bits 7:0 (R113, R920). -/
def foptPrec (o : Word) : Nat := (o.extractLsb' 0 8).toNat

/-- FOPT.EXPW, bits 11:8 (R113, R920). -/
def foptExpw (o : Word) : Nat := (o.extractLsb' 8 4).toNat

/-- FOPT.STYLE, bits 13:12 (R113, R920). -/
def foptStyle (o : Word) : Nat := (o.extractLsb' 12 2).toNat

/-- FOPT.RM, bits 15:14 (R113, R920). -/
def foptRm (o : Word) : Nat := (o.extractLsb' 14 2).toNat

/-- FOPT.WIDTH, bits 23:16 (R113, R920). -/
def foptWidth (o : Word) : Nat := (o.extractLsb' 16 8).toNat

/-- FOPT's reserved bits 63:24 (R113). -/
def foptReserved (o : Word) : Nat := (o.extractLsb' 24 40).toNat

/-- `QNaN(cmd, ops)`: E = 32767, T[111] = 1, and the sign and T[110:0] of the parameter NAN_PATTERN (R425).
`result` tells the two results of SINCOS apart. -/
def qNaN (cmd : Instr) (result : Nat) (ops : List Quad) : Quad :=
  (Config.nanPattern cmd result ops).extractLsb' 111 1 ++ 0xFFFF#16 ++
    (Config.nanPattern cmd result ops).extractLsb' 0 111

end Sys2Proof.Machine
end

