-- ==== Sys2Proof/Machine/Classify.lean ====
section
/-! DEFINITION. The classifier commands (spec/40_classify.md rules R430 to R436). -/

namespace Sys2Proof.Machine

/-- The class codes of R430. -/
def classCode (c : QuadClass) : Word :=
  match c with
  | .zero => 0
  | .subnormal => 1
  | .normal => 2
  | .infinity => 3
  | .quietNaN => 4
  | .signalingNaN => 5

/-- A truth value as RI holds it: 1 or 0. -/
def boolWord (p : Bool) : Word := if p then 1 else 0

/-- CLASS: RI is the class code of A (R430). -/
def execClassify (s : State) : Host.Outcome State Fault Refusal :=
  finishRI s (classCode (quadClass s.a))

/-- SIGN: RI is the sign bit of A (R431). -/
def execSign (s : State) : Host.Outcome State Fault Refusal :=
  finishRI s (boolWord (quadSign s.a))

/-- DECOMP: RI is A[127:112] and R is A[111:0], both zero-extended (R432). -/
def execDecomp (s : State) : Host.Outcome State Fault Refusal :=
  finish ((s.withRI ((s.a.extractLsb' 112 16).setWidth 64)).withR ((s.a.extractLsb' 0 112).setWidth 128))

/-- COMPOSE: R is N[15:0] ++ A[111:0]; BAD_OPERAND when a bit above either field is set (R433). -/
def execCompose (s : State) : Host.Outcome State Fault Refusal :=
  if s.n.val.extractLsb' 16 48 ≠ 0 ∨ s.a.extractLsb' 112 16 ≠ 0 then raiseError s .badOperand
  else finishR s (s.n.val.extractLsb' 0 16 ++ s.a.extractLsb' 0 112)

/-- ISNAN: RI is 1 when A is a NaN of either kind (R434). -/
def execIsnan (s : State) : Host.Outcome State Fault Refusal :=
  finishRI s (boolWord (isNaN s.a))

/-- ISINF: RI is 1 when A is ±∞ (R435). -/
def execIsinf (s : State) : Host.Outcome State Fault Refusal :=
  finishRI s (boolWord (isInf s.a))

/-- ISFIN: RI is 1 when A is finite (R436). -/
def execIsfin (s : State) : Host.Outcome State Fault Refusal :=
  finishRI s (boolWord (isFinite s.a))

end Sys2Proof.Machine
end

