-- ==== Sys2Proof/Machine/Compare.lean ====
section
/-! DEFINITION. The comparison commands (spec/42_compare.md rules R600 to R609). -/

namespace Sys2Proof.Machine

/-- The four outcomes of a comparison (R600). -/
inductive Relation where
  | lt
  | eq
  | gt
  | un
  deriving DecidableEq, Repr

/-- `ext(q)` in units of 2^−16494: the value of a finite quad, and for ±∞ a value beyond every finite one (every
finite magnitude is below 2^32878 units), which gives the order of the extended reals (R600). -/
def extended (q : Quad) : Int :=
  if isInf q then (if quadSign q then -(2 ^ 32878 : Int) else 2 ^ 32878) else scaled q

/-- `Compare(a, b)` (R600). -/
def compareQuad (a b : Quad) : Relation :=
  if isNaN a || isNaN b then .un
  else if extended a < extended b then .lt
  else if extended a = extended b then .eq
  else .gt

/-- CMP's encoding of the outcome: −1, 0, 1 or 2 (R601). -/
def relationCode (r : Relation) : Word :=
  match r with
  | .lt => BitVec.ofInt 64 (-1)
  | .eq => 0
  | .gt => 1
  | .un => 2

/-- CMP: the four-way comparison (R601). -/
def execCmp (s : State) : Host.Outcome State Fault Refusal :=
  finishRI s (relationCode (compareQuad s.a s.b))

/-- CEQ: A == B (R602). -/
def execCeq (s : State) : Host.Outcome State Fault Refusal :=
  finishRI s (boolWord (compareQuad s.a s.b == .eq))

/-- CNE: A below or above B, false on unordered operands (R603). -/
def execCne (s : State) : Host.Outcome State Fault Refusal :=
  finishRI s (boolWord (compareQuad s.a s.b == .lt || compareQuad s.a s.b == .gt))

/-- CLT: A < B (R604). -/
def execClt (s : State) : Host.Outcome State Fault Refusal :=
  finishRI s (boolWord (compareQuad s.a s.b == .lt))

/-- CLE: A <= B (R605). -/
def execCle (s : State) : Host.Outcome State Fault Refusal :=
  finishRI s (boolWord (compareQuad s.a s.b == .lt || compareQuad s.a s.b == .eq))

/-- CGT: A > B (R606). -/
def execCgt (s : State) : Host.Outcome State Fault Refusal :=
  finishRI s (boolWord (compareQuad s.a s.b == .gt))

/-- CGE: A >= B (R607). -/
def execCge (s : State) : Host.Outcome State Fault Refusal :=
  finishRI s (boolWord (compareQuad s.a s.b == .gt || compareQuad s.a s.b == .eq))

/-- CUN: A and B unordered (R608). -/
def execCun (s : State) : Host.Outcome State Fault Refusal :=
  finishRI s (boolWord (compareQuad s.a s.b == .un))

end Sys2Proof.Machine
end

