-- ==== Sys2Proof/Machine/Format.lean ====
section
/-! DEFINITION. FORMAT (spec/45_text.md rules R920 to R931). Text is ASCII bytes. -/

namespace Sys2Proof.Machine

/-- The byte of a decimal digit. -/
def digitByte (d : Nat) : Byte := BitVec.ofNat 8 (0x30 + d)

/-- The last `k` decimal digits of n, most significant first. -/
def fixedDigits (k n : Nat) : List Byte :=
  match k with
  | 0 => []
  | k + 1 => fixedDigits k (n / 10) ++ [digitByte (n % 10)]

/-- The number of decimal digits of n, 1 for 0; the first argument bounds the recursion. -/
def decimalLength : Nat → Nat → Nat
  | 0, _ => 1
  | fuel + 1, n => if n < 10 then 1 else decimalLength fuel (n / 10) + 1

/-- 10^e ≤ n/d, for any integer e. -/
def powTenLe (e : Int) (n d : Nat) : Bool := decide (10 ^ e.toNat * d ≤ n * 10 ^ (-e).toNat)

/-- The largest e in [lo, lo + 2^k) with 10^e ≤ n/d, one bit a step from the top. -/
def decExpFrom : Nat → Int → Nat → Nat → Int
  | 0, lo, _, _ => lo
  | k + 1, lo, n, d =>
    if powTenLe (lo + 2 ^ k) n d then decExpFrom k (lo + 2 ^ k) n d else decExpFrom k lo n d

/-- e10 of R922: 10^e10 ≤ n/d < 10^(e10+1). Decimal exponents of finite quads lie in −4966 to 4932. -/
def decExp (n d : Nat) : Int := decExpFrom 14 (-8192) n d

/-- Whether R922 rounds away from zero: fl and rem/den are the integer part and the remainder of w. -/
def roundsUp (rm : Nat) (neg : Bool) (fl rem den : Nat) : Bool :=
  decide (rem ≠ 0) &&
    ((rm == 0 && (decide (2 * rem > den) || (decide (2 * rem = den) && fl % 2 == 1))) ||
      (rm == 2 && !neg) || (rm == 3 && neg))

/-- The digits of a finite nonzero value as R922 gives them. -/
structure DecimalDigits where
  /-- d, the PREC + 1 significant digits as one integer. -/
  digits : Nat
  /-- The decimal exponent. -/
  exponent : Int
  /-- Whether the digits are not the exact value. -/
  inexact : Bool
  deriving DecidableEq, Repr

/-- The digits and exponent of ±n/d at PREC = p in rounding mode rm (R922). -/
def displayDigits (rm p : Nat) (neg : Bool) (n d : Nat) : DecimalDigits :=
  let e10 := decExp n d
  let num := n * 10 ^ (-(e10 - p)).toNat
  let den := d * 10 ^ (e10 - p).toNat
  let fl := num / den
  let rem := num % den
  let r := if roundsUp rm neg fl rem den then fl + 1 else fl
  if r = 10 ^ (p + 1) then ⟨10 ^ p, e10 + 1, decide (rem ≠ 0)⟩ else ⟨r, e10, decide (rem ≠ 0)⟩

/-- `'-'` for sign 1, nothing for sign 0 (R921). -/
def signBytes (s : Bool) : List Byte := if s then [0x2D] else []

/-- The exponent part: `E`, the exponent's sign, and its digits padded with zeros to EXPW (R921). -/
def exponentBytes (expw : Nat) (e : Int) : List Byte :=
  [0x45, if e < 0 then 0x2D else 0x2B] ++ fixedDigits (max expw (decimalLength e.natAbs e.natAbs)) e.natAbs

/-- The p + 1 digits of d with the point after the first; no point when p = 0 (R921). -/
def mantissaBytes (p d : Nat) : List Byte :=
  if p = 0 then fixedDigits 1 d
  else fixedDigits 1 (d / 10 ^ p) ++ [0x2E] ++ fixedDigits p d

/-- The body of the output for a quad at FOPT = o, and whether it is inexact (R921 to R924). -/
def formatBody (a : Quad) (o : Word) : List Byte × Bool :=
  if isNaN a then ([0x4E, 0x61, 0x4E], false)
  else if isInf a then (signBytes (quadSign a) ++ [0x49, 0x6E, 0x66], false)
  else if isZero a then
    (signBytes (quadSign a) ++ mantissaBytes (foptPrec o) 0 ++ exponentBytes (foptExpw o) 0, false)
  else
    let x := displayDigits (foptRm o) (foptPrec o) (quadSign a) (magnitude a) unit
    (signBytes (quadSign a) ++ mantissaBytes (foptPrec o) x.digits ++ exponentBytes (foptExpw o) x.exponent, x.inexact)

/-- A body padded with spaces on the left to a field width; a longer one is unchanged (R925). -/
def padLeft (width : Nat) (body : List Byte) : List Byte :=
  List.replicate (width - body.length) 0x20 ++ body

/-- `FormatText(a, o)`: the output text and whether it is inexact (R920 to R925, R931). -/
def formatText (a : Quad) (o : Word) : List Byte × Bool :=
  (padLeft (foptWidth o) (formatBody a o).1, (formatBody a o).2)

/-- FORMAT in a block whose text buffer has `size` bytes (R930): the option checks in their order, the length check
before the first write, then the text, TLEN, RI and ST. -/
def formatCommand (size : Nat) (s : State) : Host.Outcome State Fault Refusal :=
  if foptReserved s.fopt ≠ 0 ∨ foptStyle s.fopt ≠ 0 ∨ foptExpw s.fopt = 0 then raiseError s .badOption
  else if foptPrec s.fopt > 35 then raiseError s .precisionError
  else
    let text := (formatText s.a s.fopt).1
    let len := BitVec.ofNat 64 text.length
    if size < text.length then raiseError s .bufferOverflow
    else .next ((((s.withText text).withTLEN len).withRI len).withST (statusOk (formatText s.a s.fopt).2))

/-- FORMAT: the quad in A to decimal text in TBUF (R930). -/
def execFormat (s : State) : Host.Outcome State Fault Refusal :=
  formatCommand Config.tbufSize s

end Sys2Proof.Machine
end

