-- ==== Sys2Proof/Machine/Parse.lean ====
section
/-! DEFINITION. PARSE (spec/45_text.md rules R900 to R910). Text is ASCII bytes. -/

namespace Sys2Proof.Machine

/-- The digit a byte stands for, `'0'` = 0x30 to `'9'` = 0x39 (R902). -/
def digitOf (b : Byte) : Option Nat :=
  if 0x30 ≤ b.toNat ∧ b.toNat ≤ 0x39 then some (b.toNat - 0x30) else none

/-- The longest run of digits at the head of a text, and what follows it (R902). -/
def takeDigits (t : List Byte) : List Nat × List Byte :=
  match t with
  | [] => ([], [])
  | b :: rest =>
    match digitOf b with
    | some d => (d :: (takeDigits rest).1, (takeDigits rest).2)
    | none => ([], b :: rest)

/-- An optional sign at the head of a text, true for `'-'`, and what follows it (R902). -/
def takeSign (t : List Byte) : Bool × List Byte :=
  match t with
  | [] => (false, [])
  | b :: rest =>
    if b = 0x2B then (false, rest) else if b = 0x2D then (true, rest) else (false, b :: rest)

/-- The integer whose decimal digits these are (R904). -/
def digitsValue (ds : List Nat) : Nat := ds.foldl (fun n d => 10 * n + d) 0

/-- The exponent part to the end of the text: nothing, or a marker, an optional sign and at least one digit (R902). -/
def parseExponent (t : List Byte) : Option Int :=
  match t with
  | [] => some 0
  | b :: rest =>
    if b = 0x65 ∨ b = 0x45 then
      match takeDigits (takeSign rest).2 with
      | ([], _) => none
      | (d :: ds, []) =>
        some (if (takeSign rest).1 then -(digitsValue (d :: ds) : Int) else (digitsValue (d :: ds) : Int))
      | (_ :: _, _ :: _) => none
    else none

/-- A `decimal` of R902, its sign aside: the digits of I ++ F, the length of F, and the written exponent (R904). -/
structure Decimal where
  digits : List Nat
  fracLen : Nat
  exponent : Int
  deriving DecidableEq, Repr

/-- A `decimal` to the end of the text: at least one digit, an optional point with any digits after it, and an
optional exponent (R902). -/
def parseDecimal (t : List Byte) : Option Decimal :=
  match takeDigits t with
  | ([], _) => none
  | (d :: ds, rest) =>
    match rest with
    | [] => some ⟨d :: ds, 0, 0⟩
    | b :: rest' =>
      if b = 0x2E then
        match parseExponent (takeDigits rest').2 with
        | some x => some ⟨d :: ds ++ (takeDigits rest').1, (takeDigits rest').1.length, x⟩
        | none => none
      else
        match parseExponent (b :: rest') with
        | some x => some ⟨d :: ds, 0, x⟩
        | none => none

/-- A letter in lower case; any other byte unchanged (R902). -/
def toLower (b : Byte) : Byte := if 0x41 ≤ b.toNat ∧ b.toNat ≤ 0x5A then b + 0x20 else b

/-- `inf` or `infinity`, any case of each letter (R902). -/
def isInfToken (t : List Byte) : Bool :=
  t.map toLower == [0x69, 0x6E, 0x66] ||
    t.map toLower == [0x69, 0x6E, 0x66, 0x69, 0x6E, 0x69, 0x74, 0x79]

/-- `nan`, any case of each letter (R902). -/
def isNanToken (t : List Byte) : Bool := t.map toLower == [0x6E, 0x61, 0x6E]

/-- Leading and trailing spaces removed; no other byte is a blank (R901). -/
def stripBlanks (t : List Byte) : List Byte :=
  ((t.dropWhile (fun b => b == 0x20)).reverse.dropWhile (fun b => b == 0x20)).reverse

/-- Whether a quad's value differs from the exact v = ±n/d it was rounded from (R904). -/
def isInexact (q : Quad) (n d : Nat) : Bool := isInf q || decide (magnitude q * d ≠ n * unit)

/-- The quad nearest to M·10^E of sign s, and whether it is inexact (R904). DEDUCED (log entry 13): the two clamps of
R905 keep the powers of ten small; `len` is the number of digits M was written with. -/
def decimalQuad (s : Bool) (m len : Nat) (e : Int) : Quad × Bool :=
  if m = 0 then (signedZero s, false)
  else if e > 5000 then (signedInf s, true)
  else if (len : Int) + e < -5000 then (signedZero s, true)
  else
    let n := m * 10 ^ e.toNat
    let d := 10 ^ (-e).toNat
    (roundPack s n d, isInexact (roundPack s n d) n d)

/-- The value of a `decimal` of sign s (R904). -/
def decimalValue (s : Bool) (x : Decimal) : Quad × Bool :=
  decimalQuad s (digitsValue x.digits) x.digits.length (x.exponent - x.fracLen)

/-- `ParseText`: the quad a text denotes and whether it is inexact, or nothing when the text is malformed
(R901 to R906). -/
def parseText (t : List Byte) : Option (Quad × Bool) :=
  let s := (takeSign (stripBlanks t)).1
  let body := (takeSign (stripBlanks t)).2
  if isInfToken body then some (signedInf s, false)
  else if isNanToken body then some (withSign s 0x7FFF8000000000000000000000000000, false)
  else
    match parseDecimal body with
    | some x => some (decimalValue s x)
    | none => none

/-- PARSE in a block whose text buffer has `size` bytes (R900, R910): the length check, then the bytes, then the text. -/
def parseCommand (size : Nat) (s : State) : Host.Outcome State Fault Refusal :=
  if size < s.tlen.toNat then raiseError s .bufferOverflow
  else
    match readBytes s.tbuf 0 s.tlen.toNat with
    | .error i => .fault (.operandUnwritten i)
    | .ok t =>
      match parseText t with
      | none => raiseError s .parseError
      | some (q, inexact) => .next ((s.withR q).withST (statusOk inexact))

/-- PARSE: the decimal text in TBUF to R (R900). -/
def execParse (s : State) : Host.Outcome State Fault Refusal :=
  parseCommand Config.tbufSize s

end Sys2Proof.Machine
end

