-- ==== Sys2Proof/Machine/Arith.lean ====
section
/-! DEFINITION. The arithmetic commands (spec/41_arith.md rules R500 to R509). Each function below computes a rule's R; `nan` is
the quiet NaN the command delivers (R425). -/

namespace Sys2Proof.Machine

/-- ADD's result (R500). The exact sum is an integer of units, so the zero test and the rounding are exact. -/
def addQuad (nan a b : Quad) : Quad :=
  if isNaN a || isNaN b then nan
  else if isInf a && isInf b then (if quadSign a = quadSign b then a else nan)
  else if isInf a then a
  else if isInf b then b
  else if scaled a + scaled b ≠ 0 then roundSigned (scaled a + scaled b) unit
  else if isZero a && isZero b && (quadSign a == quadSign b) then a
  else signedZero false

/-- MUL's result (R502). -/
def mulQuad (nan a b : Quad) : Quad :=
  let s := quadSign a ^^ quadSign b
  if isNaN a || isNaN b then nan
  else if isInf a || isInf b then (if isZero a || isZero b then nan else signedInf s)
  else roundPack s (magnitude a * magnitude b) (unit * unit)

/-- DIV's result (R503). -/
def divQuad (nan a b : Quad) : Quad :=
  let s := quadSign a ^^ quadSign b
  if isNaN a || isNaN b then nan
  else if isInf a && isInf b then nan
  else if isInf a then signedInf s
  else if isInf b then signedZero s
  else if isZero b then (if isZero a then nan else signedInf s)
  else roundPack s (magnitude a) (magnitude b)

/-- FLOOR's result (R506). -/
def floorQuad (nan a : Quad) : Quad :=
  if isNaN a then nan
  else if isZero a || isInf a then a
  else if scaled a / (unit : Int) = 0 then signedZero false
  else roundSigned (scaled a / (unit : Int)) 1

/-- CEIL's result (R507); the ceiling is minus the floor of the negated value. -/
def ceilQuad (nan a : Quad) : Quad :=
  if isNaN a then nan
  else if isZero a || isInf a then a
  else if -(-scaled a / (unit : Int)) = 0 then signedZero true
  else roundSigned (-(-scaled a / (unit : Int))) 1

/-- MOD's result, the truncating remainder (R508). |val(a)| − n·|val(b)| with n the integer quotient is the
remainder of the two magnitudes in units. -/
def modQuad (nan a b : Quad) : Quad :=
  if isNaN a || isNaN b then nan
  else if isInf a || isZero b then nan
  else if isInf b then a
  else roundPack (quadSign a) (magnitude a % magnitude b) unit

/-- MODULO's result, the remainder with the divisor's sign (R509). -/
def moduloQuad (nan a b : Quad) : Quad :=
  if isNaN a || isNaN b then nan
  else if isInf a || isZero b then nan
  else
    let r0 := modQuad nan a b
    if isZero r0 then signedZero (quadSign b)
    else if quadSign r0 = quadSign b then r0
    else if isInf b then b
    else roundPack (quadSign b) (magnitude b - magnitude r0) unit

/-- ADD: R = A + B (R500). -/
def execAdd (s : State) : Host.Outcome State Fault Refusal :=
  finishR s (addQuad (qNaN .add 0 [s.a, s.b]) s.a s.b)

/-- SUB: R = A + (−B) (R501). DEDUCED (log entry 4): every NaN it delivers, ∞ − ∞ included, is SUB's own draw. -/
def execSub (s : State) : Host.Outcome State Fault Refusal :=
  finishR s (addQuad (qNaN .sub 0 [s.a, s.b]) s.a (flipSign s.b))

/-- MUL: R = A × B (R502). -/
def execMul (s : State) : Host.Outcome State Fault Refusal :=
  finishR s (mulQuad (qNaN .mul 0 [s.a, s.b]) s.a s.b)

/-- DIV: R = A ÷ B (R503). -/
def execDiv (s : State) : Host.Outcome State Fault Refusal :=
  finishR s (divQuad (qNaN .div 0 [s.a, s.b]) s.a s.b)

/-- NEG: A with its sign bit flipped, NaNs included (R504). -/
def execNeg (s : State) : Host.Outcome State Fault Refusal :=
  finishR s (flipSign s.a)

/-- ABS: A with its sign bit cleared, NaNs included (R505). -/
def execAbs (s : State) : Host.Outcome State Fault Refusal :=
  finishR s (clearSign s.a)

/-- FLOOR: the largest integer ≤ A (R506). -/
def execFloor (s : State) : Host.Outcome State Fault Refusal :=
  finishR s (floorQuad (qNaN .floor 0 [s.a]) s.a)

/-- CEIL: the smallest integer ≥ A (R507). -/
def execCeil (s : State) : Host.Outcome State Fault Refusal :=
  finishR s (ceilQuad (qNaN .ceil 0 [s.a]) s.a)

/-- MOD: the truncating remainder of A by B (R508). -/
def execMod (s : State) : Host.Outcome State Fault Refusal :=
  finishR s (modQuad (qNaN .mod 0 [s.a, s.b]) s.a s.b)

/-- MODULO: the remainder of A by B with the sign of B (R509). -/
def execModulo (s : State) : Host.Outcome State Fault Refusal :=
  finishR s (moduloQuad (qNaN .modulo 0 [s.a, s.b]) s.a s.b)

end Sys2Proof.Machine
end

