-- ==== Sys2Proof/Machine/Convert.lean ====
section
/-! DEFINITION. Construction, named constants and limits (spec/43_convert_const.md rules R700 to R731). -/

namespace Sys2Proof.Machine

/-- The quad of a signed 64-bit integer, +0 for 0 (R700). -/
def intQuad (n : Int) : Quad := roundSigned n 1

/-- The sign, exponent and fraction fields of a binary64 pattern (R710). -/
def doubleSign (n : Word) : Bool := n.getLsbD 63

/-- The biased exponent of a binary64 pattern, bits 62:52 (R710). -/
def doubleExp (n : Word) : Nat := (n.extractLsb' 52 11).toNat

/-- The fraction of a binary64 pattern, bits 51:0 (R710). -/
def doubleFrac (n : Word) : Nat := (n.extractLsb' 0 52).toNat

/-- CVTD's result (R710). -/
def doubleQuad (nan : Quad) (n : Word) : Quad :=
  let ds := doubleSign n
  let de := doubleExp n
  let df := doubleFrac n
  if de = 0x7FF ∧ df = 0 then signedInf ds
  else if de = 0x7FF then nan
  else if de = 0 ∧ df = 0 then signedZero ds
  else if de = 0 then roundPack ds df (2 ^ 1074)
  else roundPack ds ((2 ^ 52 + df) * 2 ^ (de - 1075)) (2 ^ (1075 - de))

/-- RoundPack(0, π): entry 5 of R721. -/
def piQuad : Quad := 0x4000921FB54442D18469898CC51701B8

/-- RoundPack(0, π/2): entry 6 of R721. -/
def piHalfQuad : Quad := 0x3FFF921FB54442D18469898CC51701B8

/-- RoundPack(0, π/4): entry 7 of R721. -/
def piQuarterQuad : Quad := 0x3FFE921FB54442D18469898CC51701B8

/-- The constant table of R721; nothing for K above 12. -/
def constTable (k : Nat) : Option Quad :=
  match k with
  | 0 => some 0x40005BF0A8B1457695355FB8AC404E7A
  | 1 => some 0x3FFF71547652B82FE1777D0FFDA0D23A
  | 2 => some 0x3FFDBCB7B1526E50E32A6AB7555F5A68
  | 3 => some 0x3FFE62E42FEFA39EF35793C7673007E6
  | 4 => some 0x400026BB1BBB5551582DD4ADAC5705A6
  | 5 => some piQuad
  | 6 => some piHalfQuad
  | 7 => some piQuarterQuad
  | 8 => some 0x3FFD45F306DC9C882A53F84EAFA3EA6A
  | 9 => some 0x3FFE45F306DC9C882A53F84EAFA3EA6A
  | 10 => some 0x3FFF20DD750429B6D11AE3A914FED7FE
  | 11 => some 0x3FFF6A09E667F3BCC908B2FB1366EA95
  | 12 => some 0x3FFE6A09E667F3BCC908B2FB1366EA95
  | _ => none

/-- The quad entries of the limits table, K = 0 to 3 (R731). -/
def limitQuad (k : Nat) : Option Quad :=
  match k with
  | 0 => some 0x7FFEFFFFFFFFFFFFFFFFFFFFFFFFFFFF
  | 1 => some 0x00010000000000000000000000000000
  | 2 => some 0x3F8F0000000000000000000000000000
  | 3 => some 0x00000000000000000000000000000001
  | _ => none

/-- The integer entries of the limits table, K = 4 to 9 (R731). -/
def limitInt (k : Nat) : Option Int :=
  match k with
  | 4 => some 113
  | 5 => some 33
  | 6 => some (-16381)
  | 7 => some 16384
  | 8 => some (-4931)
  | 9 => some 4932
  | _ => none

/-- CVTI: the quad of N read as a signed integer (R700). -/
def execCvti (s : State) : Host.Outcome State Fault Refusal :=
  finishR s (intQuad s.nInt)

/-- CVTD: the quad of N read as a binary64 pattern (R710). -/
def execCvtd (s : State) : Host.Outcome State Fault Refusal :=
  finishR s (doubleQuad (qNaN .cvtd 0 [s.n.val.setWidth 128]) s.n.val)

/-- CONST: R is entry K of the constant table; BAD_OPERAND above 12 (R720). -/
def execConst (k : Nat) (s : State) : Host.Outcome State Fault Refusal :=
  match constTable k with
  | some q => finishR s q
  | none => raiseError s .badOperand

/-- LIMIT: R is entry K of the limits table for K up to 3, RI for K from 4 to 9; BAD_OPERAND above 9 (R730). -/
def execLimit (k : Nat) (s : State) : Host.Outcome State Fault Refusal :=
  match limitQuad k, limitInt k with
  | some q, _ => finishR s q
  | none, some n => finishRI s (BitVec.ofInt 64 n)
  | none, none => raiseError s .badOperand

end Sys2Proof.Machine
end

