-- ==== Sys2Proof/Machine/Transcendental.lean ====
section
/-! DEFINITION. The transcendental commands (spec/44_transcendental.md rules R800 to R826). Each function below computes a rule's
R in the order of R803: NaN operands, exact special values, domain errors, and for every other input the table's
value. `fn` is the table of FN_f, `nan` the quiet NaN the command delivers. -/

namespace Sys2Proof.Machine

/-- `FN_f(a)` of a one-operand function (R802). -/
def fn1 (fn : FnTable) (f : Fn) (a : Quad) : Quad := fn f a (signedZero false)

/-- SQRT's result, correctly rounded (R810). -/
def sqrtQuad (nan a : Quad) : Quad :=
  if isNaN a then nan
  else if isZero a then a
  else if quadSign a then nan
  else if isInf a then a
  else roundRoot (normalize a).2.1 (normalize a).2.2

/-- EXP's result (R811). -/
def expQuad (fn : FnTable) (nan a : Quad) : Quad :=
  if isNaN a then nan
  else if a = signedInf false then signedInf false
  else if a = signedInf true then signedZero false
  else if isZero a then oneQuad
  else fn1 fn .exp a

/-- LOG's result (R812). -/
def logQuad (fn : FnTable) (nan a : Quad) : Quad :=
  if isNaN a then nan
  else if isZero a then signedInf true
  else if quadSign a then nan
  else if a = signedInf false then signedInf false
  else if a = oneQuad then signedZero false
  else fn1 fn .log a

/-- POW's result for base x and exponent y (R813). -/
def powQuad (fn : FnTable) (nan x y : Quad) : Quad :=
  if isNaN x || isNaN y then nan
  else if isZero y then oneQuad
  else if x = oneQuad then oneQuad
  else if isZero x then
    if isNegative y && isOddInteger y then signedInf (quadSign x)
    else if isNegative y then signedInf false
    else if isOddInteger y then x
    else signedZero false
  else if isInf y then
    if x = signedOne true then oneQuad
    else if belowOne x then (if y = signedInf true then signedInf false else signedZero false)
    else (if y = signedInf true then signedZero false else signedInf false)
  else if x = signedInf false then (if isNegative y then signedZero false else signedInf false)
  else if x = signedInf true then
    if isOddInteger y then (if isNegative y then signedZero true else signedInf true)
    else (if isNegative y then signedZero false else signedInf false)
  else if isNegative x && !isInteger y then nan
  else fn .pow x y

/-- The product the squaring loop rounds (R814, R502). The rule derives that 0 × ∞ cannot arise in the loop. -/
def loopMul (x y : Quad) : Quad := mulQuad (qNaN .mul 0 [x, y]) x y

/-- The squaring loop of R814, for exponents below 2^fuel: the last r. -/
def powiLoop : Nat → Nat → Quad → Quad → Quad
  | 0, _, r, _ => r
  | fuel + 1, e, r, base =>
    if e = 0 then r
    else
      powiLoop fuel (e / 2) (if e % 2 = 1 then loopMul r base else r)
        (if e / 2 = 0 then base else loopMul base base)

/-- POWI's result for base x and exponent n (R814); |n| is at most 2^63, so 64 turns of the loop are enough. -/
def powiQuad (nan x : Quad) (n : Int) : Quad :=
  if isNaN x then nan
  else
    let r := powiLoop 64 n.natAbs oneQuad x
    if n < 0 then divQuad (qNaN .div 0 [oneQuad, r]) oneQuad r else r

/-- SIN's result (R815). -/
def sinQuad (fn : FnTable) (nan a : Quad) : Quad :=
  if isNaN a then nan
  else if isInf a then nan
  else if isZero a then a
  else fn1 fn .sin a

/-- COS's result (R816). -/
def cosQuad (fn : FnTable) (nan a : Quad) : Quad :=
  if isNaN a then nan
  else if isInf a then nan
  else if isZero a then oneQuad
  else fn1 fn .cos a

/-- TAN's result (R818). -/
def tanQuad (fn : FnTable) (nan a : Quad) : Quad :=
  if isNaN a then nan
  else if isInf a then nan
  else if isZero a then a
  else fn1 fn .tan a

/-- COT's result (R819). -/
def cotQuad (fn : FnTable) (nan a : Quad) : Quad :=
  if isNaN a then nan
  else if isInf a then nan
  else if isZero a then signedInf (quadSign a)
  else fn1 fn .cot a

/-- SINH's result (R820). -/
def sinhQuad (fn : FnTable) (nan a : Quad) : Quad :=
  if isNaN a then nan
  else if isInf a then a
  else if isZero a then a
  else fn1 fn .sinh a

/-- COSH's result (R821). -/
def coshQuad (fn : FnTable) (nan a : Quad) : Quad :=
  if isNaN a then nan
  else if isInf a then signedInf false
  else if isZero a then oneQuad
  else fn1 fn .cosh a

/-- TANH's result (R822). -/
def tanhQuad (fn : FnTable) (nan a : Quad) : Quad :=
  if isNaN a then nan
  else if isInf a then signedOne (quadSign a)
  else if isZero a then a
  else fn1 fn .tanh a

/-- ASIN's result (R823). -/
def asinQuad (fn : FnTable) (nan a : Quad) : Quad :=
  if isNaN a then nan
  else if isInf a || aboveOne a then nan
  else if isZero a then a
  else fn1 fn .asin a

/-- ACOS's result (R824). -/
def acosQuad (fn : FnTable) (nan a : Quad) : Quad :=
  if isNaN a then nan
  else if isInf a || aboveOne a then nan
  else if a = oneQuad then signedZero false
  else fn1 fn .acos a

/-- RoundPack(0, 3π/4), PI3_4 of R826. -/
def piThreeQuarterQuad : Quad := 0x40002D97C7F3321D234F272993D1414A

/-- ATAN's result (R825). -/
def atanQuad (fn : FnTable) (nan a : Quad) : Quad :=
  if isNaN a then nan
  else if isZero a then a
  else if isInf a then withSign (quadSign a) piHalfQuad
  else fn1 fn .atan a

/-- ATAN2's result for the point (x, y) (R826). -/
def atan2Quad (fn : FnTable) (nan y x : Quad) : Quad :=
  if isNaN y || isNaN x then nan
  else if isZero y then (if quadSign x then withSign (quadSign y) piQuad else y)
  else if isInf y then
    if x = signedInf true then withSign (quadSign y) piThreeQuarterQuad
    else if x = signedInf false then withSign (quadSign y) piQuarterQuad
    else withSign (quadSign y) piHalfQuad
  else if isZero x then withSign (quadSign y) piHalfQuad
  else if x = signedInf true then withSign (quadSign y) piQuad
  else if x = signedInf false then signedZero (quadSign y)
  else fn .atan2 y x

/-- DEDUCED (log entry 4): the NaN of one result of SINCOS. For a NaN operand it is SINCOS's own draw, which may
differ between the two results; otherwise it is the one SIN or COS delivers for the same A (R817). -/
def sincosNaN (single : Instr) (result : Nat) (a : Quad) : Quad :=
  if isNaN a then qNaN .sincos result [a] else qNaN single 0 [a]

/-- SQRT (R810). -/
def execSqrt (s : State) : Host.Outcome State Fault Refusal :=
  finishR s (sqrtQuad (qNaN .sqrt 0 [s.a]) s.a)

/-- EXP (R811). -/
def execExp (s : State) : Host.Outcome State Fault Refusal :=
  finishR s (expQuad Config.fn (qNaN .exp 0 [s.a]) s.a)

/-- LOG (R812). -/
def execLog (s : State) : Host.Outcome State Fault Refusal :=
  finishR s (logQuad Config.fn (qNaN .log 0 [s.a]) s.a)

/-- POW: A to the power B (R813). -/
def execPow (s : State) : Host.Outcome State Fault Refusal :=
  finishR s (powQuad Config.fn (qNaN .pow 0 [s.a, s.b]) s.a s.b)

/-- POWI: A to the power N (R814). -/
def execPowi (s : State) : Host.Outcome State Fault Refusal :=
  finishR s (powiQuad (qNaN .powi 0 [s.a, s.n.val.setWidth 128]) s.a s.nInt)

/-- SIN (R815). -/
def execSin (s : State) : Host.Outcome State Fault Refusal :=
  finishR s (sinQuad Config.fn (qNaN .sin 0 [s.a]) s.a)

/-- COS (R816). -/
def execCos (s : State) : Host.Outcome State Fault Refusal :=
  finishR s (cosQuad Config.fn (qNaN .cos 0 [s.a]) s.a)

/-- SINCOS: the sine in R, the cosine in R2 (R817). -/
def execSincos (s : State) : Host.Outcome State Fault Refusal :=
  finish ((s.withR (sinQuad Config.fn (sincosNaN .sin 0 s.a) s.a)).withR2
    (cosQuad Config.fn (sincosNaN .cos 1 s.a) s.a))

/-- TAN (R818). -/
def execTan (s : State) : Host.Outcome State Fault Refusal :=
  finishR s (tanQuad Config.fn (qNaN .tan 0 [s.a]) s.a)

/-- COT (R819). -/
def execCot (s : State) : Host.Outcome State Fault Refusal :=
  finishR s (cotQuad Config.fn (qNaN .cot 0 [s.a]) s.a)

/-- SINH (R820). -/
def execSinh (s : State) : Host.Outcome State Fault Refusal :=
  finishR s (sinhQuad Config.fn (qNaN .sinh 0 [s.a]) s.a)

/-- COSH (R821). -/
def execCosh (s : State) : Host.Outcome State Fault Refusal :=
  finishR s (coshQuad Config.fn (qNaN .cosh 0 [s.a]) s.a)

/-- TANH (R822). -/
def execTanh (s : State) : Host.Outcome State Fault Refusal :=
  finishR s (tanhQuad Config.fn (qNaN .tanh 0 [s.a]) s.a)

/-- ASIN (R823). -/
def execAsin (s : State) : Host.Outcome State Fault Refusal :=
  finishR s (asinQuad Config.fn (qNaN .asin 0 [s.a]) s.a)

/-- ACOS (R824). -/
def execAcos (s : State) : Host.Outcome State Fault Refusal :=
  finishR s (acosQuad Config.fn (qNaN .acos 0 [s.a]) s.a)

/-- ATAN (R825). -/
def execAtan (s : State) : Host.Outcome State Fault Refusal :=
  finishR s (atanQuad Config.fn (qNaN .atan 0 [s.a]) s.a)

/-- ATAN2: the angle of the point x = B, y = A (R826). -/
def execAtan2 (s : State) : Host.Outcome State Fault Refusal :=
  finishR s (atan2Quad Config.fn (qNaN .atan2 0 [s.a, s.b]) s.a s.b)

end Sys2Proof.Machine
end

