-- ==== Sys2Proof/Machine/Dispatch.lean ====
section
/-! DEFINITION. What each command does: one call of its meaning (spec/30_encoding.md rule R304). -/

namespace Sys2Proof.Machine

/-- `Execute(op, k)` of R300, once CMD holds the word. -/
def exec (i : Instr) (s : State) : Host.Outcome State Fault Refusal :=
  match i with
  | .classify => Sys2Proof.Machine.execClassify s
  | .sign => Sys2Proof.Machine.execSign s
  | .decomp => Sys2Proof.Machine.execDecomp s
  | .compose => Sys2Proof.Machine.execCompose s
  | .isnan => Sys2Proof.Machine.execIsnan s
  | .isinf => Sys2Proof.Machine.execIsinf s
  | .isfin => Sys2Proof.Machine.execIsfin s
  | .add => Sys2Proof.Machine.execAdd s
  | .sub => Sys2Proof.Machine.execSub s
  | .mul => Sys2Proof.Machine.execMul s
  | .div => Sys2Proof.Machine.execDiv s
  | .neg => Sys2Proof.Machine.execNeg s
  | .abs => Sys2Proof.Machine.execAbs s
  | .floor => Sys2Proof.Machine.execFloor s
  | .ceil => Sys2Proof.Machine.execCeil s
  | .mod => Sys2Proof.Machine.execMod s
  | .modulo => Sys2Proof.Machine.execModulo s
  | .cmp => Sys2Proof.Machine.execCmp s
  | .ceq => Sys2Proof.Machine.execCeq s
  | .cne => Sys2Proof.Machine.execCne s
  | .clt => Sys2Proof.Machine.execClt s
  | .cle => Sys2Proof.Machine.execCle s
  | .cgt => Sys2Proof.Machine.execCgt s
  | .cge => Sys2Proof.Machine.execCge s
  | .cun => Sys2Proof.Machine.execCun s
  | .cvti => Sys2Proof.Machine.execCvti s
  | .cvtd => Sys2Proof.Machine.execCvtd s
  | .const k => Sys2Proof.Machine.execConst k s
  | .limit k => Sys2Proof.Machine.execLimit k s
  | .sqrt => Sys2Proof.Machine.execSqrt s
  | .exp => Sys2Proof.Machine.execExp s
  | .log => Sys2Proof.Machine.execLog s
  | .pow => Sys2Proof.Machine.execPow s
  | .powi => Sys2Proof.Machine.execPowi s
  | .sin => Sys2Proof.Machine.execSin s
  | .cos => Sys2Proof.Machine.execCos s
  | .sincos => Sys2Proof.Machine.execSincos s
  | .tan => Sys2Proof.Machine.execTan s
  | .cot => Sys2Proof.Machine.execCot s
  | .sinh => Sys2Proof.Machine.execSinh s
  | .cosh => Sys2Proof.Machine.execCosh s
  | .tanh => Sys2Proof.Machine.execTanh s
  | .asin => Sys2Proof.Machine.execAsin s
  | .acos => Sys2Proof.Machine.execAcos s
  | .atan => Sys2Proof.Machine.execAtan s
  | .atan2 => Sys2Proof.Machine.execAtan2 s
  | .parse => Sys2Proof.Machine.execParse s
  | .format => Sys2Proof.Machine.execFormat s

end Sys2Proof.Machine
end

