-- ==== Sys2Proof/Machine/Bus.lean ====
section
/-! DEFINITION. The host's accesses, the CMD write and reset (spec/20_memory.md, spec/30_encoding.md rule R300, spec/70_reset_and_hazards.md
rule R1100). -/

namespace Sys2Proof.Machine

/-- The register that occupies the 8 bytes at offset 8·k (R201). -/
def regOfSlot (k : Nat) : Option RegName :=
  match k with
  | 0 => some .aLo
  | 1 => some .aHi
  | 2 => some .bLo
  | 3 => some .bHi
  | 4 => some .n
  | 5 => some .fopt
  | 6 => some .tlen
  | 7 => some .cmd
  | 8 => some .rLo
  | 9 => some .rHi
  | 10 => some .r2Lo
  | 11 => some .r2Hi
  | 12 => some .ri
  | 13 => some .st
  | _ => none

/-- What an offset of the window belongs to (R201, R205). -/
inductive Region where
  /-- Byte `sub` of a register. -/
  | reg (r : RegName) (sub : Nat)
  /-- `TBUF[i]`. -/
  | text (i : Nat)
  /-- Nothing. -/
  | reserved
  deriving DecidableEq, Repr

/-- The register map of R201, for a text buffer of `size` bytes. -/
def regionOf (size : Nat) (off : Offset) : Region :=
  if off.toNat < 0x1000 then
    match regOfSlot (off.toNat / 8) with
    | some r => .reg r (off.toNat % 8)
    | none => .reserved
  else if off.toNat - 0x1000 < size then .text (off.toNat - 0x1000)
  else .reserved

/-- What a legal access reaches. -/
inductive Target where
  | reg (r : RegName)
  | byte (i : Nat)
  | word (i : Nat)
  deriving DecidableEq, Repr

/-- The target of an access of `width` bits at an offset, or the bus fault that refuses it (R202 to R206).
DEDUCED (log entry 12): a 64-bit access whose last bytes lie past the end of TBUF touches a reserved offset. -/
def targetOf (size width : Nat) (off : Offset) : Except Fault Target :=
  match regionOf size off with
  | .reserved => .error (.busReserved off)
  | .reg r sub =>
    if width ≠ 64 then .error (.busWidth off width)
    else if sub ≠ 0 then .error (.busMisaligned off)
    else .ok (.reg r)
  | .text i =>
    if width = 8 then .ok (.byte i)
    else if width ≠ 64 then .error (.busWidth off width)
    else if i % 8 ≠ 0 then .error (.busMisaligned off)
    else if i + 8 ≤ size then .ok (.word i)
    else .error (.busReserved off)

/-- A host read: it returns the data and changes nothing of the block (R204, R214). -/
def hostRead (size width : Nat) (off : Offset) (s : State) : Host.Outcome State Fault Refusal :=
  match targetOf size width off with
  | .error f => .fault f
  | .ok (.reg r) => .next { s with readData := some (.word (s.readReg r)) }
  | .ok (.byte i) =>
    match readByte s.tbuf i with
    | none => .fault (.busUnwritten off)
    | some b => .next { s with readData := some (.byte b) }
  | .ok (.word i) =>
    match readBytes s.tbuf i 8 with
    | .error _ => .fault (.busUnwritten off)
    | .ok bs => .next { s with readData := some (.word (bytesWord bs)) }

/-- A host write of CMD: store the word, then run the command or answer ILLEGAL_CMD (R300, R303). -/
def runCommand (v : Word) (s : State) : Host.Outcome State Fault Refusal :=
  match decode v with
  | .ok i => exec i (s.writeReg .cmd v)
  | .error _ => raiseError (s.writeReg .cmd v) .illegalCmd

/-- A host write (R204, R206, R214, R300). -/
def hostWrite (size width : Nat) (off : Offset) (v : Word) (s : State) : Host.Outcome State Fault Refusal :=
  match targetOf size width off with
  | .error f => .fault f
  | .ok (.reg .cmd) => runCommand v s
  | .ok (.reg r) => if regWritable r then .next (s.writeReg r v) else .fault (.busReadOnly off)
  | .ok (.byte i) => .next { s with tbuf := writeByte s.tbuf i (v.extractLsb' 0 8) }
  | .ok (.word i) => .next { s with tbuf := writeBytes s.tbuf i (wordBytes v) }

/-- The platform's reset: the reset state, with the actions still to come kept (R1100, log entry 11). -/
def resetBlock (s : State) : State := { State.reset with pending := s.pending }

/-- One action of the outside (R100, R1100). A reset that arrives during an access abandons it: none of its writes
happen. -/
def performEvent (size : Nat) (e : Event) (s : State) : Host.Outcome State Fault Refusal :=
  match e with
  | .access (.read width off) => hostRead size width off s
  | .access (.write width off v) => hostWrite size width off v s
  | .reset => .next (resetBlock s)
  | .resetDuring _ => .next (resetBlock s)

/-- One step: the oldest pending action is performed; with none pending the block stays as it is, since the engine
starts nothing by itself (R100, R220, R1101). -/
def stepWith (size : Nat) (s : State) : Host.Outcome State Fault Refusal :=
  match s.pending with
  | [] => .next s
  | e :: rest => performEvent size e { s with pending := rest }

/-- The offset of CMD (R201). -/
def cmdOffset : Offset := 0x038

/-- The host action that writes a word to CMD. -/
def cmdWrite (v : Word) : Event := .access (.write 64 cmdOffset v)

/-- A state whose next action is a CMD write of the word whose low `nbits` bits are w. -/
def placeCommand (s : State) (nbits w : Nat) : State :=
  { s with pending := cmdWrite (BitVec.ofNat 64 (w % 2 ^ nbits)) :: s.pending }

end Sys2Proof.Machine
end

