-- ==== Sys2Proof/Machine/Step.lean ====
section
/-! DEFINITION. One step of the machine, and how a command is put before it (spec/20_memory.md rule R220, log entry 1). -/

namespace Sys2Proof.Machine

/-- One step: the oldest pending action of the host or the platform takes effect before the next begins (R220). -/
def step (s : State) : Host.Outcome State Fault Refusal := stepWith Config.tbufSize s

/-- A state in which the host's next action is the CMD write of this command word: the block fetches nothing, its
commands are what the host writes to CMD (R130, R223). -/
def State.withFetchWord (s : State) (nbits w : Nat) : State := placeCommand s nbits w

end Sys2Proof.Machine
end

