-- ==== Sys2Proof/Safety.lean ====
section
/-! DEFINITION. The terms in which claims speak of the machine: the invariant of every step, what a command reads and
writes, which runs read only what was written, the validity of a command word, the order of the extended reals, and
the text grammar. Nothing here is part of a step. -/

namespace Sys2Proof.Machine

/-- The values ST can hold: OK with or without INEXACT, or an error code with INEXACT 0; codes above 6 are never
written and the other bits read 0 (R123, R1000, R1001). -/
def statusLegal (st : Word) : Bool := decide (st.toNat ≤ 6) || st == 0x100

/-- The invariant every step keeps: the text buffer is in canonical form and lies inside TBUF (R125), and ST is a
legal status (R123). -/
def Inv (s : State) : Prop :=
  bufferWf s.tbuf = true ∧ (∀ c ∈ s.tbuf, c.1 < Config.tbufSize) ∧ statusLegal s.st = true

/-- The registers a command reads: those its rule names (R151, R1102). -/
def operandRegs (i : Instr) : List RegName :=
  match i with
  | .classify | .sign | .decomp | .isnan | .isinf | .isfin => [.aLo, .aHi]
  | .compose => [.n, .aLo, .aHi]
  | .add | .sub | .mul | .div | .mod | .modulo => [.aLo, .aHi, .bLo, .bHi]
  | .neg | .abs | .floor | .ceil => [.aLo, .aHi]
  | .cmp | .ceq | .cne | .clt | .cle | .cgt | .cge | .cun => [.aLo, .aHi, .bLo, .bHi]
  | .cvti | .cvtd => [.n]
  | .const _ | .limit _ => []
  | .pow | .atan2 => [.aLo, .aHi, .bLo, .bHi]
  | .powi => [.aLo, .aHi, .n]
  | .sqrt | .exp | .log | .sin | .cos | .sincos | .tan | .cot => [.aLo, .aHi]
  | .sinh | .cosh | .tanh | .asin | .acos | .atan => [.aLo, .aHi]
  | .parse => [.tlen]
  | .format => [.aLo, .aHi, .fopt]

/-- The registers, ST apart, a command writes when it succeeds: the Writes line of its rule (R14, R304). -/
def resultRegs (i : Instr) : List RegName :=
  match i with
  | .classify | .sign | .isnan | .isinf | .isfin => [.ri]
  | .decomp => [.ri, .rLo, .rHi]
  | .compose => [.rLo, .rHi]
  | .add | .sub | .mul | .div | .neg | .abs | .floor | .ceil | .mod | .modulo => [.rLo, .rHi]
  | .cmp | .ceq | .cne | .clt | .cle | .cgt | .cge | .cun => [.ri]
  | .cvti | .cvtd | .const _ => [.rLo, .rHi]
  | .limit k => if k ≤ 3 then [.rLo, .rHi] else [.ri]
  | .sqrt | .exp | .log | .pow | .powi | .sin | .cos | .tan | .cot => [.rLo, .rHi]
  | .sincos => [.rLo, .rHi, .r2Lo, .r2Hi]
  | .sinh | .cosh | .tanh | .asin | .acos | .atan | .atan2 => [.rLo, .rHi]
  | .parse => [.rLo, .rHi]
  | .format => [.tlen, .ri]

/-- The values ST can hold after a command: the causes of R1000 and the INEXACT rule of R123. -/
def statusesOf (i : Instr) : List Word :=
  match i with
  | .compose | .const _ | .limit _ => [0, 2]
  | .parse => [0, 0x100, 3, 6]
  | .format => [0, 0x100, 4, 5, 6]
  | .classify | .sign | .decomp | .isnan | .isinf | .isfin => [0]
  | .add | .sub | .mul | .div | .neg | .abs | .floor | .ceil | .mod | .modulo => [0]
  | .cmp | .ceq | .cne | .clt | .cle | .cgt | .cge | .cun => [0]
  | .cvti | .cvtd => [0]
  | .sqrt | .exp | .log | .pow | .powi | .sin | .cos | .sincos | .tan | .cot => [0]
  | .sinh | .cosh | .tanh | .asin | .acos | .atan | .atan2 => [0]

/-- The command's operand registers are all written (R151). A command run without this is one the spec's own model
faults on; this model goes on with the values the registers hold (log entry 2). -/
def operandsWritten (i : Instr) (s : State) : Bool := (operandRegs i).all s.regWritten

/-- The step the state is about to make reads no unwritten register: neither a host read of one, nor a valid command
with one among its operands (R150, R151, R206). Unwritten text-buffer bytes need no mention: reading one is a fault. -/
def stepReadsWritten (s : State) : Bool :=
  match s.pending with
  | .access (.read width off) :: _ =>
    match targetOf Config.tbufSize width off with
    | .ok (.reg r) => s.regWritten r
    | .ok (.byte _) | .ok (.word _) | .error _ => true
  | .access (.write width off v) :: _ =>
    match targetOf Config.tbufSize width off with
    | .ok (.reg .cmd) =>
      match decode v with
      | .ok i => operandsWritten i s
      | .error _ => true
    | .ok (.reg _) | .ok (.byte _) | .ok (.word _) | .error _ => true
  | .reset :: _ => true
  | .resetDuring _ :: _ => true
  | [] => true

/-- The assigned opcodes of R304. -/
def assignedOpcodes : List Nat :=
  [0x01, 0x02, 0x03, 0x04, 0x05, 0x06, 0x07,
   0x10, 0x11, 0x12, 0x13, 0x14, 0x15, 0x16, 0x17, 0x18, 0x19,
   0x20, 0x21, 0x22, 0x23, 0x24, 0x25, 0x26, 0x27,
   0x30, 0x31, 0x32, 0x33,
   0x40, 0x41, 0x42, 0x43, 0x44, 0x45, 0x46, 0x47, 0x48, 0x49, 0x4A, 0x4B, 0x4C, 0x4D, 0x4E, 0x4F, 0x50,
   0x60, 0x61]

/-- `Valid(v)`, as R303 writes it: an assigned OP, bits 63:16 zero, and K zero unless OP is CONST or LIMIT. -/
def ValidWord (v : Word) : Prop :=
  v.toNat % 2 ^ 8 ∈ assignedOpcodes ∧ v.toNat / 2 ^ 16 = 0 ∧
    (v.toNat / 2 ^ 8 % 2 ^ 8 = 0 ∨ v.toNat % 2 ^ 8 = 0x32 ∨ v.toNat % 2 ^ 8 = 0x33)

/-- `ext(q)` of R600: the value of a finite quad, and ±∞. -/
noncomputable def extReal (q : Quad) : EReal :=
  if isInf q then (if quadSign q then ⊥ else ⊤) else ((valReal q : ℝ) : EReal)

/-- A byte that is a `digit` of R902. -/
def DigitByte (b : Byte) : Prop := 0x30 ≤ b.toNat ∧ b.toNat ≤ 0x39

/-- `sign?` of R902, with whether it is `'-'`. -/
def SignText (t : List Byte) (neg : Bool) : Prop :=
  (t = [] ∧ neg = false) ∨ (t = [0x2B] ∧ neg = false) ∨ (t = [0x2D] ∧ neg = true)

/-- `decimal` of R902, with its integer digits I, fraction digits F, exponent digits X and whether the exponent's
sign is `'-'`. -/
def DecimalText (body i f x : List Byte) (xneg : Bool) : Prop :=
  i ≠ [] ∧ (∀ b ∈ i, DigitByte b) ∧ (∀ b ∈ f, DigitByte b) ∧ (∀ b ∈ x, DigitByte b) ∧
    ∃ point mark : List Byte,
      body = i ++ point ++ mark ∧
        ((point = [] ∧ f = []) ∨ point = 0x2E :: f) ∧
        ((mark = [] ∧ x = [] ∧ xneg = false) ∨
          (x ≠ [] ∧ ∃ e sg, mark = e :: (sg ++ x) ∧ (e = 0x65 ∨ e = 0x45) ∧ SignText sg xneg))

/-- A text that spells a word given in lower-case letters: each byte is the word's letter, or that letter's capital,
which is 0x20 below it (R902). -/
def Spells (word body : List Byte) : Prop := List.Forall₂ (fun b l => b = l ∨ b = l - 0x20) body word

/-- `inf` or `infinity` of R902, any case of each letter. -/
def InfText (body : List Byte) : Prop :=
  Spells [0x69, 0x6E, 0x66] body ∨ Spells [0x69, 0x6E, 0x66, 0x69, 0x6E, 0x69, 0x74, 0x79] body

/-- `nan` of R902, any case of each letter. -/
def NanText (body : List Byte) : Prop := Spells [0x6E, 0x61, 0x6E] body

/-- A text that is a signed body between blanks (R901, R902). -/
def SignedText (t body : List Byte) (neg : Bool) : Prop :=
  ∃ lead sg trail : List Byte,
    t = lead ++ sg ++ body ++ trail ∧ (∀ b ∈ lead, b = 0x20) ∧ (∀ b ∈ trail, b = 0x20) ∧ SignText sg neg

/-- A text that ParseText accepts: a blank-padded `number` (R901, R902). -/
def WellFormedText (t : List Byte) : Prop :=
  ∃ body neg, SignedText t body neg ∧
    (InfText body ∨ NanText body ∨ ∃ i f x xneg, DecimalText body i f x xneg)

/-- The integer whose decimal digits a list of bytes writes (R904). -/
def digitsNat (t : List Byte) : Nat := t.foldl (fun n b => 10 * n + (b.toNat - 0x30)) 0

/-- M·10^E of R904, as a real. -/
noncomputable def decimalReal (i f x : List Byte) (xneg : Bool) : ℝ :=
  (digitsNat (i ++ f) : ℝ) * 10 ^ ((if xneg then -(digitsNat x : ℤ) else (digitsNat x : ℤ)) - (f.length : ℤ))

/-- A state that holds a text at TBUF[0] on with TLEN its length. -/
def HoldsText (s : State) (t : List Byte) : Prop :=
  s.tlen.toNat = t.length ∧ t.length ≤ Config.tbufSize ∧ ∀ k, k < t.length → readByte s.tbuf k = t[k]?

end Sys2Proof.Machine
end

