-- ==== Sys2Proof/Certificates/Slice0/Rules.lean ====
section
/-! DEFINITION. The rules of spec/40_classify.md to spec/45_text.md as the statements speak of them: over exact rationals and
reals, each a relation between operands and result. No step uses them. -/

namespace Sys2Proof.Machine

/-- E of a pattern by arithmetic on the pattern as a number (R400). -/
def expOf (q : Quad) : Nat := q.toNat / 2 ^ 112 % 2 ^ 15

/-- T of a pattern by arithmetic on the pattern as a number (R400). -/
def fracOf (q : Quad) : Nat := q.toNat % 2 ^ 112

/-- The correctly rounded quad of a rational. -/
noncomputable def nearestOf (v : ℚ) : Quad := nearestQuad (v : ℝ)

/-- R500: `q` is the sum of `a` and `b`. -/
def AddRule (nan a b q : Quad) : Prop :=
  (isNaN a = true ∨ isNaN b = true → q = nan) ∧
    (isInf a = true → isInf b = true → q = if quadSign a = quadSign b then a else nan) ∧
    (isInf a = true → isFinite b = true → q = a) ∧
    (isFinite a = true → isInf b = true → q = b) ∧
    (isFinite a = true → isFinite b = true → val a + val b ≠ 0 → q = nearestOf (val a + val b)) ∧
    (isFinite a = true → isFinite b = true → val a + val b = 0 →
      q = if isZero a = true ∧ isZero b = true ∧ quadSign a = quadSign b then a else signedZero false)

/-- R502: `q` is the product of `a` and `b`. -/
def MulRule (nan a b q : Quad) : Prop :=
  (isNaN a = true ∨ isNaN b = true → q = nan) ∧
    (isNaN a = false → isNaN b = false → isInf a = true ∨ isInf b = true →
      q = if isZero a = true ∨ isZero b = true then nan else signedInf (quadSign a ^^ quadSign b)) ∧
    (isFinite a = true → isFinite b = true →
      q = roundPackReal (quadSign a ^^ quadSign b) ((|val a * val b| : ℚ) : ℝ))

/-- R503: `q` is the quotient of `a` by `b`. -/
def DivRule (nan a b q : Quad) : Prop :=
  (isNaN a = true ∨ isNaN b = true → q = nan) ∧
    (isInf a = true → isInf b = true → q = nan) ∧
    (isInf a = true → isFinite b = true → q = signedInf (quadSign a ^^ quadSign b)) ∧
    (isFinite a = true → isInf b = true → q = signedZero (quadSign a ^^ quadSign b)) ∧
    (isFinite a = true → isZero b = true →
      q = if isZero a = true then nan else signedInf (quadSign a ^^ quadSign b)) ∧
    (isFinite a = true → isFinite b = true → isZero b = false →
      q = roundPackReal (quadSign a ^^ quadSign b) ((|val a / val b| : ℚ) : ℝ))

/-- R506 and R507: `q` is the integer `n` = floor or ceil of val(a), exactly, with zero `z` when n is 0. -/
def IntegralRule (nan a : Quad) (n : ℤ) (z q : Quad) : Prop :=
  (isNaN a = true → q = nan) ∧
    (isZero a = true ∨ isInf a = true → q = a) ∧
    (isFinite a = true → isZero a = false → n = 0 → q = z) ∧
    (isFinite a = true → isZero a = false → n ≠ 0 → q = nearestOf n ∧ val q = n)

/-- The truncating remainder of two rationals' magnitudes (R508). -/
def truncRemainder (x y : ℚ) : ℚ := |x| - (⌊|x| / |y|⌋ : ℤ) * |y|

/-- R508: `q` is the truncating remainder of `a` by `b`. -/
def ModRule (nan a b q : Quad) : Prop :=
  (isNaN a = true ∨ isNaN b = true → q = nan) ∧
    (isInf a = true ∨ isZero b = true → q = nan) ∧
    (isFinite a = true → isInf b = true → q = a) ∧
    (isFinite a = true → isFinite b = true → isZero b = false →
      q = roundPackReal (quadSign a) ((truncRemainder (val a) (val b) : ℚ) : ℝ) ∧
        |val q| = truncRemainder (val a) (val b))

/-- The floored remainder of two rationals (R509). -/
def floorRemainder (x y : ℚ) : ℚ := x - y * (⌊x / y⌋ : ℤ)

/-- R509: `q` is the remainder of `a` by `b` with the sign of `b`. -/
def ModuloRule (nan a b q : Quad) : Prop :=
  (isNaN a = true ∨ isNaN b = true → q = nan) ∧
    (isInf a = true ∨ isZero b = true → q = nan) ∧
    (isFinite a = true → isInf b = true →
      q = if isZero a = true then signedZero (quadSign b) else if quadSign a = quadSign b then a else b) ∧
    (isFinite a = true → isFinite b = true → isZero b = false →
      q = roundPackReal (quadSign b) ((|floorRemainder (val a) (val b)| : ℚ) : ℝ))

/-- R710: `q` is the quad of the binary64 pattern `n`, by arithmetic on the pattern as a number. -/
def DoubleRule (nan : Quad) (n : Word) (q : Quad) : Prop :=
  let ds := decide (2 ^ 63 ≤ n.toNat)
  let de : Nat := n.toNat / 2 ^ 52 % 2 ^ 11
  let df : Nat := n.toNat % 2 ^ 52
  (de = 0x7FF → df = 0 → q = signedInf ds) ∧
    (de = 0x7FF → df ≠ 0 → q = nan) ∧
    (de = 0 → df = 0 → q = signedZero ds) ∧
    (de = 0 → df ≠ 0 → quadSign q = ds ∧ isFinite q = true ∧ |val q| = (df : ℚ) * 2 ^ (-1074 : ℤ)) ∧
    (de ≠ 0 → de ≠ 0x7FF →
      quadSign q = ds ∧ isFinite q = true ∧ |val q| = (2 ^ 52 + (df : ℚ)) * 2 ^ ((de : ℤ) - 1075))

/-- R814's loop read off the binary digits of the exponent, least significant first: the pair (r, base). -/
def squareDigits (x : Quad) (digits : List Bool) : Quad × Quad :=
  digits.foldl (fun p d => (if d then loopMul p.1 p.2 else p.1, loopMul p.2 p.2)) (oneQuad, x)

/-- The last branch of R811 to R826: R is `FN_f` of the operands, acceptable under `ULP_BOUND_f` for the function's
exact value (R801, R802), and so never a NaN. -/
def TableValue (f : Fn) (a b q : Quad) : Prop :=
  q = Config.fn f a b ∧ Acc (Config.ulpBound f) (exactValue f a b) q ∧ isNaN q = false

/-- R811. -/
def ExpRule (nan a q : Quad) : Prop :=
  (isNaN a = true → q = nan) ∧
    (a = signedInf false → q = signedInf false) ∧
    (a = signedInf true → q = signedZero false) ∧
    (isZero a = true → q = signedOne false) ∧
    (isFinite a = true → isZero a = false → TableValue .exp a (signedZero false) q ∧ quadSign q = false) ∧
    (isFinite a = true → val a = 20000 → q = signedInf false)

/-- R812. -/
def LogRule (nan a q : Quad) : Prop :=
  (isNaN a = true → q = nan) ∧
    (isZero a = true → q = signedInf true) ∧
    (isNaN a = false → isZero a = false → quadSign a = true → q = nan) ∧
    (a = signedInf false → q = signedInf false) ∧
    (a = signedOne false → q = signedZero false) ∧
    (isFinite a = true → isZero a = false → quadSign a = false → a ≠ signedOne false →
      TableValue .log a (signedZero false) q ∧ isFinite q = true)

/-- `oddint(y)` of R813 over the exact value. -/
def OddInt (y : Quad) : Prop := isFinite y = true ∧ ∃ k : ℤ, val y = 2 * k + 1

/-- `int(y)` of R813 over the exact value. -/
def IntValued (y : Quad) : Prop := isFinite y = true ∧ ∃ k : ℤ, val y = k

/-- y < 0 for y not a NaN, −∞ included (R813). -/
def BelowZero (y : Quad) : Prop := y = signedInf true ∨ (isFinite y = true ∧ val y < 0)

/-- R813, one clause for each branch, in the rule's order. -/
def PowRule (nan x y q : Quad) : Prop :=
  if isNaN x = true ∨ isNaN y = true then q = nan
  else if isZero y = true ∨ x = signedOne false then q = signedOne false
  else if isZero x = true then
    (BelowZero y → OddInt y → q = signedInf (quadSign x)) ∧
      (BelowZero y → ¬OddInt y → q = signedInf false) ∧
      (¬BelowZero y → OddInt y → q = x) ∧
      (¬BelowZero y → ¬OddInt y → q = signedZero false)
  else if isInf y = true then
    (x = signedOne true → q = signedOne false) ∧
      (isFinite x = true → |val x| < 1 → q = if quadSign y then signedInf false else signedZero false) ∧
      ((isFinite x = true → 1 < |val x|) → q = if quadSign y then signedZero false else signedInf false)
  else if x = signedInf false then
    (BelowZero y → q = signedZero false) ∧ (¬BelowZero y → q = signedInf false)
  else if x = signedInf true then
    (OddInt y → BelowZero y → q = signedZero true) ∧
      (OddInt y → ¬BelowZero y → q = signedInf true) ∧
      (¬OddInt y → BelowZero y → q = signedZero false) ∧
      (¬OddInt y → ¬BelowZero y → q = signedInf false)
  else
    (val x < 0 → ¬IntValued y → q = nan) ∧ (0 < val x ∨ IntValued y → TableValue .pow x y q)

/-- R815, R816, R818 to R822: the shape they share, with the results at ±∞ and at ±0. -/
def OneOperandRule (f : Fn) (atNaN atInf atZero a q : Quad) : Prop :=
  (isNaN a = true → q = atNaN) ∧
    (isInf a = true → q = atInf) ∧
    (isZero a = true → q = atZero) ∧
    (isFinite a = true → isZero a = false → TableValue f a (signedZero false) q)

/-- R823 and R824: the arcsine and the arccosine, exact where a is the pattern `p`. -/
def ArcRule (f : Fn) (nan a q : Quad) (exact : Prop) (p : Quad) : Prop :=
  (isNaN a = true → q = nan) ∧
    (isInf a = true → q = nan) ∧
    (isFinite a = true → 1 < |val a| → q = nan) ∧
    (exact → q = p) ∧
    (isFinite a = true → |val a| ≤ 1 → ¬exact → TableValue f a (signedZero false) q)

/-- R826 for the point (x, y), one clause for each branch, in the rule's order. -/
def Atan2Rule (nan y x q : Quad) : Prop :=
  if isNaN y = true ∨ isNaN x = true then q = nan
  else if isZero y = true then
    q = if quadSign x then withSign (quadSign y) 0x4000921FB54442D18469898CC51701B8 else y
  else if isInf y = true then
    (x = signedInf true → q = withSign (quadSign y) 0x40002D97C7F3321D234F272993D1414A) ∧
      (x = signedInf false → q = withSign (quadSign y) 0x3FFE921FB54442D18469898CC51701B8) ∧
      (isFinite x = true → q = withSign (quadSign y) 0x3FFF921FB54442D18469898CC51701B8)
  else if isZero x = true then q = withSign (quadSign y) 0x3FFF921FB54442D18469898CC51701B8
  else
    (x = signedInf true → q = withSign (quadSign y) 0x4000921FB54442D18469898CC51701B8) ∧
      (x = signedInf false → q = signedZero (quadSign y)) ∧
      (isFinite x = true → TableValue .atan2 y x q ∧ quadSign q = quadSign y)

/-- The result a command computes from a table of FN_f, for each of the functions (R811 to R826). -/
def tableResult (f : Fn) (fn : FnTable) (nan a b : Quad) : Quad :=
  match f with
  | .exp => expQuad fn nan a
  | .log => logQuad fn nan a
  | .pow => powQuad fn nan a b
  | .sin => sinQuad fn nan a
  | .cos => cosQuad fn nan a
  | .tan => tanQuad fn nan a
  | .cot => cotQuad fn nan a
  | .sinh => sinhQuad fn nan a
  | .cosh => coshQuad fn nan a
  | .tanh => tanhQuad fn nan a
  | .asin => asinQuad fn nan a
  | .acos => acosQuad fn nan a
  | .atan => atanQuad fn nan a
  | .atan2 => atan2Quad fn nan a b

/-- The command that computes each of the functions. -/
def Fn.command (f : Fn) : Instr :=
  match f with
  | .exp => .exp
  | .log => .log
  | .pow => .pow
  | .sin => .sin
  | .cos => .cos
  | .tan => .tan
  | .cot => .cot
  | .sinh => .sinh
  | .cosh => .cosh
  | .tanh => .tanh
  | .asin => .asin
  | .acos => .acos
  | .atan => .atan
  | .atan2 => .atan2

/-- The second operand a function's command gives its table: B for POW and ATAN2, +0 for the others, which have none. -/
def Fn.second (f : Fn) (s : State) : Quad :=
  match f with
  | .pow | .atan2 => s.b
  | .exp | .log | .sin | .cos | .tan | .cot | .sinh | .cosh | .tanh | .asin | .acos | .atan => signedZero false

/-- The one-operand commands whose quad result is a NaN when A is one (R424). -/
def nanUnary : List Instr :=
  [.floor, .ceil, .sqrt, .exp, .log, .powi, .sin, .cos, .sincos, .tan, .cot, .sinh, .cosh, .tanh, .asin, .acos, .atan]

/-- The two-operand commands whose quad result is a NaN when A or B is one (R424). -/
def nanBinary : List Instr := [.add, .sub, .mul, .div, .mod, .modulo, .pow, .atan2]

/-- The register map of R201: each register's offset. -/
def registerMap : List (Offset × RegName) :=
  [(0x000, .aLo), (0x008, .aHi), (0x010, .bLo), (0x018, .bHi), (0x020, .n), (0x028, .fopt), (0x030, .tlen),
   (0x038, .cmd), (0x040, .rLo), (0x048, .rHi), (0x050, .r2Lo), (0x058, .r2Hi), (0x060, .ri), (0x068, .st)]

/-- The width of an access. -/
def Access.width (a : Access) : Nat :=
  match a with
  | .read w _ => w
  | .write w _ _ => w

/-- The offset of an access. -/
def Access.off (a : Access) : Offset :=
  match a with
  | .read _ o => o
  | .write _ o _ => o

end Sys2Proof.Machine
end

