-- ==== Sys2Proof/Certificates/Slice0/Obligations.lean ====
section
/-! DEFINITION. The statements for the provers. Each docstring names the rule it formalises or, for a derived one, the sections it
rests on, and the log entry of every choice of the model's that the statement rests on. A statement about a command
holds in every state: where R150 and R151 have the spec's own model fault on an unwritten operand register, this one
runs on the value the register holds (log entry 2). The order in which a host's actions come is the model's list
`pending` (log entry 1). -/

open Sys2Proof Sys2Proof.Machine

/-- R301, R304: encoding a well-formed command and decoding the word gives the command back, every K included. -/
def Obligations.DecodeInvertsEncode : Prop :=
  ∀ i : Instr, i.WellFormed → decode (encode i) = .ok i

/-- R301, R304: a word that decodes is the encoding of what it decodes to, so no two words mean one command and no bit
is dropped. -/
def Obligations.EncodeInvertsDecode : Prop :=
  ∀ (v : Word) (i : Instr), decode v = .ok i → i.WellFormed ∧ encode i = v

/-- R303, R305: the words that decode are exactly the valid ones, and a CMD write of any other writes CMD and reports
ILLEGAL_CMD in ST and changes nothing else. That CMD holds an illegal word is the model's reading of R300 (log entry 22). -/
def Obligations.ValidityOfCommandWords : Prop :=
  (∀ v : Word, (∃ i, decode v = .ok i) ↔ ValidWord v) ∧
    ∀ (s : State) (v : Word) (rest : List Event), s.pending = cmdWrite v :: rest → ¬ValidWord v →
      step s = .next { s with pending := rest, cmd := v, st := 1 }

/-- R304: words written out from the opcode map, one of each family and both selectors' ends. -/
def Obligations.SampleWordsDecode : Prop :=
  decode 0x0000000000000001 = .ok .classify ∧ decode 0x0000000000000010 = .ok .add ∧
    decode 0x0000000000000027 = .ok .cun ∧ decode 0x0000000000000532 = .ok (.const 5) ∧
    decode 0x000000000000FF33 = .ok (.limit 255) ∧ decode 0x0000000000000050 = .ok .atan2 ∧
    decode 0x0000000000000061 = .ok .format ∧ decode 0x0000000000000000 = .error .unassignedOpcode ∧
    decode 0x0000000000000110 = .error .unusedSelector ∧ decode 0x0001000000000010 = .error .reservedBits

/-- R300: when the host's next action is a CMD write of a word that decodes to i, the step stores the word in CMD and
runs i; the word is taken from the pending actions (log entry 1). Nothing else stands around a command: there is no
program counter. -/
def Obligations.StepRunsDecodedCommand : Prop :=
  ∀ (s : State) (v : Word) (i : Instr) (rest : List Event),
    s.pending = cmdWrite v :: rest → decode v = .ok i →
      step s = exec i { s with pending := rest, cmd := v }

/-- R1100: what reset leaves, and that the platform's reset gives it at once, even in the middle of a command. That a
reset is an action among the pending ones and leaves the later ones there is the model's choice (log entries 1 and 11);
the values of the unwritten registers are too (log entry 2), and are not stated. -/
def Obligations.ResetStateAndEvents : Prop :=
  (State.reset.fopt = 0x2C0423 ∧ State.reset.tlen = 0 ∧ State.reset.cmd = 0 ∧ State.reset.st = 0 ∧
      (∀ r ∈ [RegName.aLo, .aHi, .bLo, .bHi, .n, .rLo, .rHi, .r2Lo, .r2Hi, .ri], State.reset.regWritten r = false) ∧
      ∀ i, readByte State.reset.tbuf i = none) ∧
    (∀ (s : State) (rest : List Event), s.pending = .reset :: rest →
      step s = .next { State.reset with pending := rest }) ∧
    ∀ (s : State) (v : Word) (rest : List Event), s.pending = .resetDuring (.write 64 cmdOffset v) :: rest →
      step s = .next { State.reset with pending := rest }

/-- R100, R1101: with no action pending the block stays as it is. It rests on the model's choice of a pending list
(log entry 1). -/
def Obligations.IdleStepChangesNothing : Prop :=
  ∀ s : State, s.pending = [] → step s = .next s

/-- R201, R214: a 64-bit read at a register's offset returns the register and changes nothing of the block. That an
unwritten register answers the value it holds is the model's choice (log entry 2), and so is the field the answer is
put in (log entry 9). -/
def Obligations.RegisterReadsReturnTheRegister : Prop :=
  ∀ (s : State) (off : Offset) (r : RegName) (rest : List Event), (off, r) ∈ registerMap →
    s.pending = .access (.read 64 off) :: rest →
      step s = .next { s with pending := rest, readData := some (.word (s.readReg r)) }

/-- R201, R214: a 64-bit write at the offset of A, B, N, FOPT or TLEN stores the value there, marks it written, and
changes no other register, no byte and no status. The mark is the model's (log entry 2). -/
def Obligations.RegisterWritesStoreTheValue : Prop :=
  ∀ (s : State) (off : Offset) (r : RegName) (v : Word) (rest : List Event),
    (off, r) ∈ registerMap → off.toNat < 0x038 → s.pending = .access (.write 64 off v) :: rest →
      ∃ t, step s = .next t ∧ t.readReg r = v ∧ t.regWritten r = true ∧
        (∀ r', r' ≠ r → t.readReg r' = s.readReg r' ∧ t.regWritten r' = s.regWritten r') ∧
        t.tbuf = s.tbuf ∧ t.pending = rest ∧ t.readData = s.readData

/-- R202, R203, R205: a host access to a reserved offset, of a width its offset does not take, misaligned, or of a
read-only register by a write, is a bus fault naming the offset; so is an 8-bit read of an unwritten byte, and
an aligned 64-bit read with any of its bytes unwritten (log entry 19). It holds for every size of text buffer, the
block's own among them. Which name a fault has where two causes meet is the model's
choice (log entry 8), and a word access past the end of TBUF is read from the rules by inference (log entry 12). -/
def Obligations.IllegalAccessesFault : Prop :=
  (∀ s : State, step s = stepWith Config.tbufSize s) ∧ 64 ≤ Config.tbufSize ∧ Config.tbufSize ≤ 4096 ∧
  ∀ (size : Nat) (s : State) (a : Access) (rest : List Event), 64 ≤ size → size ≤ 4096 → s.pending = .access a :: rest →
    (0x070 ≤ a.off.toNat → a.off.toNat < 0x1000 → stepWith size s = .fault (.busReserved a.off)) ∧
    (0x1000 + size ≤ a.off.toNat → stepWith size s = .fault (.busReserved a.off)) ∧
    (a.off.toNat < 0x070 → a.width ≠ 64 → stepWith size s = .fault (.busWidth a.off a.width)) ∧
    (a.off.toNat < 0x070 → a.width = 64 → a.off.toNat % 8 ≠ 0 → stepWith size s = .fault (.busMisaligned a.off)) ∧
    (0x1000 ≤ a.off.toNat → a.off.toNat < 0x1000 + size → a.width ≠ 8 → a.width ≠ 64 →
      stepWith size s = .fault (.busWidth a.off a.width)) ∧
    (0x1000 ≤ a.off.toNat → a.off.toNat < 0x1000 + size → a.width = 64 → a.off.toNat % 8 ≠ 0 →
      stepWith size s = .fault (.busMisaligned a.off)) ∧
    (a.off.toNat < 0x1000 + size → 0x1000 + size < a.off.toNat + 8 → a.width = 64 → a.off.toNat % 8 = 0 →
      stepWith size s = .fault (.busReserved a.off)) ∧
    (∀ v, a = .write 64 a.off v → 0x040 ≤ a.off.toNat → a.off.toNat < 0x070 → a.off.toNat % 8 = 0 →
      stepWith size s = .fault (.busReadOnly a.off)) ∧
    (∀ i, i < size → a = .read 8 (BitVec.ofNat 13 (0x1000 + i)) → readByte s.tbuf i = none →
      stepWith size s = .fault (.busUnwritten a.off)) ∧
    (∀ i j, i % 8 = 0 → i + 8 ≤ size → j < 8 → a = .read 64 (BitVec.ofNat 13 (0x1000 + i)) →
      readByte s.tbuf (i + j) = none → stepWith size s = .fault (.busUnwritten a.off))

/-- R204: 8-bit and aligned 64-bit accesses to the text buffer, little-endian, each leaving every other byte and all
the rest of the block alone. What a read returns is put in the model's own field (log entry 9). -/
def Obligations.TextBufferAccesses : Prop :=
  ∀ (s : State) (i : Nat) (rest : List Event), i < Config.tbufSize →
    (∀ b, s.pending = .access (.read 8 (BitVec.ofNat 13 (0x1000 + i))) :: rest → readByte s.tbuf i = some b →
      step s = .next { s with pending := rest, readData := some (.byte b) }) ∧
    (∀ v : Word, s.pending = .access (.write 8 (BitVec.ofNat 13 (0x1000 + i)) v) :: rest →
      ∃ m, step s = .next { s with pending := rest, tbuf := m } ∧
        ∀ k, readByte m k = if k = i then some (v.extractLsb' 0 8) else readByte s.tbuf k) ∧
    (∀ v : Word, i % 8 = 0 → i + 8 ≤ Config.tbufSize →
      s.pending = .access (.read 64 (BitVec.ofNat 13 (0x1000 + i))) :: rest →
      (∀ j, j < 8 → readByte s.tbuf (i + j) = some (v.extractLsb' (8 * j) 8)) →
      step s = .next { s with pending := rest, readData := some (.word v) }) ∧
    (∀ v : Word, i % 8 = 0 → i + 8 ≤ Config.tbufSize →
      s.pending = .access (.write 64 (BitVec.ofNat 13 (0x1000 + i)) v) :: rest →
      ∃ m, step s = .next { s with pending := rest, tbuf := m } ∧
        ∀ k, readByte m k =
          if i ≤ k ∧ k < i + 8 then some (v.extractLsb' (8 * (k - i)) 8) else readByte s.tbuf k)

/-- R123, R125: every step keeps the invariant: the text buffer in canonical form and inside TBUF, and ST a legal
status. -/
def Obligations.StepKeepsInvariant : Prop :=
  ∀ s t : State, Inv s → step s = .next t → Inv t

/-- The invariant holds after reset. -/
def Obligations.ResetMeetsInvariant : Prop := Inv State.reset

/-- R1112: no command writes A, B, N, FOPT or CMD. -/
def Obligations.CommandsNeverWriteOperands : Prop :=
  ∀ (i : Instr) (s t : State), exec i s = .next t →
    t.aLo = s.aLo ∧ t.aHi = s.aHi ∧ t.bLo = s.bLo ∧ t.bHi = s.bHi ∧ t.n = s.n ∧ t.fopt = s.fopt ∧ t.cmd = s.cmd

/-- R1002: a command that ends with an error code has changed nothing but ST, the word's own illegality among the
errors; it always ends, in a next state. That CMD holds an illegal word is the model's reading of R300 (log entry 22). -/
def Obligations.FailedCommandChangesOnlyStatus : Prop :=
  (∀ (i : Instr) (s t : State), exec i s = .next t → statusCode t.st ≠ 0 → t = s.withST t.st) ∧
    ∀ (s : State) (v : Word) (rest : List Event), s.pending = cmdWrite v :: rest → ¬ValidWord v →
      step s = .next ({ s with pending := rest, cmd := v }.withST 1)

/-- R1001: every command writes all of ST, whatever ST held, with a value its rule allows: 0, the INEXACT bit from
PARSE and FORMAT alone, or an error code with INEXACT 0; an illegal word's command writes the code 1. -/
def Obligations.EveryCommandWritesTheWholeStatus : Prop :=
  (∀ (i : Instr) (s t : State), exec i s = .next t → t.st ∈ statusesOf i) ∧
    (∀ (i : Instr) (s : State) (v : Word), exec i (s.withST v) = exec i s) ∧
    ∀ (s : State) (v : Word) (rest : List Event), s.pending = cmdWrite v :: rest → ¬ValidWord v →
      ∃ t, step s = .next t ∧ t.st = 1

/-- R121, R122: only SINCOS writes R2; only CLASS, SIGN, DECOMP, ISNAN, ISINF, ISFIN, the comparisons, LIMIT with an
integer selector and FORMAT write RI; only FORMAT writes TLEN. -/
def Obligations.ResultRegisterWriters : Prop :=
  ∀ (i : Instr) (s t : State), exec i s = .next t →
    (i ≠ .sincos → t.r2Lo = s.r2Lo ∧ t.r2Hi = s.r2Hi) ∧
    (i ∉ [Instr.classify, .sign, .decomp, .isnan, .isinf, .isfin, .cmp, .ceq, .cne, .clt, .cle, .cgt, .cge, .cun,
        .format] → (∀ k, i = .limit k → k ≤ 3 ∨ 9 < k) → t.ri = s.ri) ∧
    (i ≠ .format → t.tlen = s.tlen)

/-- R231, R1004: a command never refuses and never raises a bus fault; PARSE alone can stop, at an unwritten byte
below TLEN of a text that fits, which has no value to read (log entry 3). -/
def Obligations.CommandsStopOnlyAtUnwrittenText : Prop :=
  (∀ (i : Instr) (s : State), i ≠ .parse → ∃ t, exec i s = .next t) ∧
    ∀ s : State, (∃ t, exec .parse s = .next t) ∨
      ∃ k, exec .parse s = .fault (.operandUnwritten k) ∧ k < s.tlen.toNat ∧ s.tlen.toNat ≤ Config.tbufSize ∧
        readByte s.tbuf k = none

/-- R101, R151: a command's status and results depend only on the registers its rule names and, for PARSE, on the
bytes below TLEN. -/
def Obligations.CommandsDependOnlyOnTheirOperands : Prop :=
  ∀ (i : Instr) (s s' : State), (∀ r ∈ operandRegs i, s.readReg r = s'.readReg r) →
    (i = .parse → ∀ k, k < s.tlen.toNat → readByte s.tbuf k = readByte s'.tbuf k) →
      (∀ f, exec i s = .fault f → exec i s' = .fault f) ∧
        ∀ t, exec i s = .next t → ∃ t', exec i s' = .next t' ∧ t'.st = t.st ∧
          (statusCode t.st = 0 → (∀ r ∈ resultRegs i, t'.readReg r = t.readReg r) ∧
            (i = .format → ∀ k, k < t.tlen.toNat → readByte t'.tbuf k = readByte t.tbuf k))

/-- R14, R1002, R930: the frame of all 48 commands. A register is unchanged unless it is ST or one of the command's
result registers (the table `resultRegs`); every byte of the text buffer reads as before, but for the bytes FORMAT
stores, which are those below the length of its output text; the host's side is unchanged. -/
def Obligations.CommandFrame : Prop :=
  ∀ (i : Instr) (s t : State), exec i s = .next t →
    (∀ r, r ∉ resultRegs i → r ≠ .st → t.readReg r = s.readReg r ∧ t.regWritten r = s.regWritten r) ∧
    (i ≠ .format → ∀ k, readByte t.tbuf k = readByte s.tbuf k) ∧
    (i = .format → ∀ k, (formatText s.a s.fopt).1.length ≤ k → readByte t.tbuf k = readByte s.tbuf k) ∧
    t.pending = s.pending ∧ t.readData = s.readData

/-- R421, R422: the rounder that the commands use, over fractions of natural numbers, is the rule's over the reals;
and the rule's, line by line: zero, the exponent e, the quantum, the rounded integer m, a carry, overflow, underflow,
subnormals and normals. `rneReal x` is the integer nearest to x, the even one of two as near. -/
def Obligations.RoundPackFollowsTheRealRule : Prop :=
  (∀ (s : Bool) (n d : Nat), 0 < d → roundPack s n d = roundPackReal s ((n : ℝ) / d)) ∧
  (∀ s : Bool, roundPackReal s 0 = BitVec.ofBool s ++ 0#127) ∧
  (∀ (s : Bool) (v : ℝ) (e : ℤ) (m qe : ℤ), (2 : ℝ) ^ e ≤ v → v < 2 ^ (e + 1) →
    (m, qe) = (if rneReal (v / 2 ^ (max e (-16382) - 112)) = 2 ^ 113 then (2 ^ 112, max e (-16382) - 112 + 1)
      else ((rneReal (v / 2 ^ (max e (-16382) - 112)) : ℤ), max e (-16382) - 112)) →
    roundPackReal s v =
      if 16271 < qe then BitVec.ofBool s ++ 0x7FFF#15 ++ 0#112
      else if m = 0 then BitVec.ofBool s ++ 0#127
      else if m < 2 ^ 112 then BitVec.ofBool s ++ 0#15 ++ BitVec.ofInt 112 m
      else BitVec.ofBool s ++ BitVec.ofInt 15 (qe + 16495) ++ BitVec.ofInt 112 (m - 2 ^ 112)) ∧
  ∀ x : ℝ, 0 ≤ x → |x - rneReal x| ≤ 1 / 2 ∧ (|x - rneReal x| = 1 / 2 → rneReal x % 2 = 0)

/-- R423 (a): the value of a finite quad, under its sign, rounds to that quad. -/
def Obligations.RoundPackIsExactOnQuads : Prop :=
  ∀ q : Quad, isFinite q = true → roundPackReal (quadSign q) |valReal q| = q

/-- R423 (b), (c), (d): where RoundPack overflows to ±∞, where it underflows to ±0, and that it is monotone. -/
def Obligations.RoundPackThresholdsAndMonotony : Prop :=
  (∀ (s : Bool) (v : ℝ), 0 ≤ v →
    (isInf (roundPackReal s v) = true ↔ (2 : ℝ) ^ (16384 : ℤ) - 2 ^ (16270 : ℤ) ≤ v) ∧
    (isZero (roundPackReal s v) = true ↔ v ≤ 2 ^ (-16495 : ℤ))) ∧
  ∀ v w : ℝ, 0 ≤ v → v ≤ w → extReal (roundPackReal false v) ≤ extReal (roundPackReal false w)

/-- R421, R422: below the overflow threshold RoundPack gives the nearest finite quad of the sign given and, when
another is as near, the one whose last fraction bit is 0. -/
def Obligations.RoundPackIsNearest : Prop :=
  ∀ (s : Bool) (v : ℝ), 0 ≤ v → v < (2 : ℝ) ^ (16384 : ℤ) - 2 ^ (16270 : ℤ) →
    isFinite (roundPackReal s v) = true ∧ quadSign (roundPackReal s v) = s ∧
      ∀ p : Quad, isFinite p = true →
        |(|valReal (roundPackReal s v)| - v)| ≤ |(|valReal p| - v)| ∧
        (|(|valReal (roundPackReal s v)| - v)| = |(|valReal p| - v)| →
          |valReal p| ≠ |valReal (roundPackReal s v)| → fracOf (roundPackReal s v) % 2 = 0)

/-- R420: the normalizer of a finite nonzero quad. -/
def Obligations.NormalizerIsExact : Prop :=
  ∀ q : Quad, isFinite q = true → isZero q = false →
    (Machine.normalize q).1 = quadSign q ∧ 2 ^ 112 ≤ (Machine.normalize q).2.1 ∧ (Machine.normalize q).2.1 < 2 ^ 113 ∧
      |val q| = ((Machine.normalize q).2.1 : ℚ) * 2 ^ ((Machine.normalize q).2.2 - 112) ∧
      (Machine.normalize q).2.2 = Int.log 2 |val q|

/-- R401, R430: CLASS answers the code of A's class, by the fields of A. -/
def Obligations.ClassifyReportsTheClass : Prop :=
  decode 0x01 = .ok .classify ∧
  ∀ s : State, ∃ c : Word, exec .classify s = .next ((s.withRI c).withST 0) ∧
    (expOf s.a = 0 → fracOf s.a = 0 → c = 0) ∧ (expOf s.a = 0 → fracOf s.a ≠ 0 → c = 1) ∧
    (1 ≤ expOf s.a → expOf s.a ≤ 32766 → c = 2) ∧ (expOf s.a = 32767 → fracOf s.a = 0 → c = 3) ∧
    (expOf s.a = 32767 → 2 ^ 111 ≤ fracOf s.a → c = 4) ∧
    (expOf s.a = 32767 → fracOf s.a ≠ 0 → fracOf s.a < 2 ^ 111 → c = 5)

/-- R431, R432, R434, R435, R436: SIGN, DECOMP and the class predicates, by the fields of A. -/
def Obligations.FieldCommandsReportTheFields : Prop :=
  decode 0x02 = .ok .sign ∧ decode 0x03 = .ok .decomp ∧ decode 0x05 = .ok .isnan ∧
  decode 0x06 = .ok .isinf ∧ decode 0x07 = .ok .isfin ∧
  ∀ s : State,
    exec .sign s = .next ((s.withRI (if 2 ^ 127 ≤ s.a.toNat then 1 else 0)).withST 0) ∧
    exec .decomp s = .next (((s.withRI (BitVec.ofNat 64 (s.a.toNat / 2 ^ 112))).withR
      (BitVec.ofNat 128 (s.a.toNat % 2 ^ 112))).withST 0) ∧
    exec .isnan s = .next ((s.withRI (if expOf s.a = 32767 ∧ fracOf s.a ≠ 0 then 1 else 0)).withST 0) ∧
    exec .isinf s = .next ((s.withRI (if expOf s.a = 32767 ∧ fracOf s.a = 0 then 1 else 0)).withST 0) ∧
    exec .isfin s = .next ((s.withRI (if expOf s.a ≤ 32766 then 1 else 0)).withST 0)

/-- R433: COMPOSE puts sign, exponent and fraction together, reports BAD_OPERAND when a field is out of range, and
inverts DECOMP. -/
def Obligations.ComposeBuildsTheQuad : Prop :=
  decode 0x04 = .ok .compose ∧
  (∀ s : State, s.n.val.toNat < 2 ^ 16 → s.a.toNat < 2 ^ 112 →
    exec .compose s =
      .next ((s.withR (BitVec.ofNat 128 (s.n.val.toNat * 2 ^ 112 + s.a.toNat))).withST 0)) ∧
  (∀ s : State, 2 ^ 16 ≤ s.n.val.toNat ∨ 2 ^ 112 ≤ s.a.toNat → exec .compose s = .next (s.withST 2)) ∧
  (∀ s t s' : State, exec .decomp s = .next t → s'.n.val = t.ri.val → s'.a = t.r →
    exec .compose s' = .next ((s'.withR s.a).withST 0))

/-- R500: ADD. -/
def Obligations.AddIsTheRoundedSum : Prop :=
  decode 0x10 = .ok .add ∧
  ∀ s : State, ∃ q, exec .add s = .next ((s.withR q).withST 0) ∧ AddRule (qNaN .add 0 [s.a, s.b]) s.a s.b q

/-- R501: SUB is ADD with B's sign flipped; its NaNs are SUB's (log entry 4). -/
def Obligations.SubIsTheRoundedDifference : Prop :=
  decode 0x11 = .ok .sub ∧
  ∀ s : State, ∃ q, exec .sub s = .next ((s.withR q).withST 0) ∧
    AddRule (qNaN .sub 0 [s.a, s.b]) s.a (flipSign s.b) q ∧
    (isFinite s.a = true → isFinite s.b = true → val s.a - val s.b ≠ 0 → q = nearestOf (val s.a - val s.b))

/-- R502: MUL. -/
def Obligations.MulIsTheRoundedProduct : Prop :=
  decode 0x12 = .ok .mul ∧
  ∀ s : State, ∃ q, exec .mul s = .next ((s.withR q).withST 0) ∧ MulRule (qNaN .mul 0 [s.a, s.b]) s.a s.b q

/-- R503: DIV. -/
def Obligations.DivIsTheRoundedQuotient : Prop :=
  decode 0x13 = .ok .div ∧
  ∀ s : State, ∃ q, exec .div s = .next ((s.withR q).withST 0) ∧ DivRule (qNaN .div 0 [s.a, s.b]) s.a s.b q

/-- R504, R505: NEG flips and ABS clears bit 127 and each keeps every other bit, NaNs included. -/
def Obligations.NegAndAbsChangeOnlyTheSign : Prop :=
  decode 0x14 = .ok .neg ∧ decode 0x15 = .ok .abs ∧
  ∀ s : State,
    (∃ q : Quad, exec .neg s = .next ((s.withR q).withST 0) ∧ q.getLsbD 127 = !s.a.getLsbD 127 ∧
      ∀ k, k < 127 → q.getLsbD k = s.a.getLsbD k) ∧
    ∃ q : Quad, exec .abs s = .next ((s.withR q).withST 0) ∧ q.getLsbD 127 = false ∧
      ∀ k, k < 127 → q.getLsbD k = s.a.getLsbD k

/-- R506, R507: FLOOR and CEIL give the integer exactly; a zero result is +0 for FLOOR and −0 for CEIL. -/
def Obligations.FloorAndCeilAreExactIntegers : Prop :=
  decode 0x16 = .ok .floor ∧ decode 0x17 = .ok .ceil ∧
  ∀ s : State,
    (∃ q, exec .floor s = .next ((s.withR q).withST 0) ∧
      IntegralRule (qNaN .floor 0 [s.a]) s.a ⌊val s.a⌋ (signedZero false) q) ∧
    ∃ q, exec .ceil s = .next ((s.withR q).withST 0) ∧
      IntegralRule (qNaN .ceil 0 [s.a]) s.a ⌈val s.a⌉ (signedZero true) q

/-- R508: MOD is the truncating remainder, exact, with the dividend's sign. -/
def Obligations.ModIsTheTruncatingRemainder : Prop :=
  decode 0x18 = .ok .mod ∧
  ∀ s : State, ∃ q, exec .mod s = .next ((s.withR q).withST 0) ∧ ModRule (qNaN .mod 0 [s.a, s.b]) s.a s.b q

/-- R509: MODULO is the floored remainder, rounded once, with the divisor's sign. -/
def Obligations.ModuloIsTheFlooredRemainder : Prop :=
  decode 0x19 = .ok .modulo ∧
  ∀ s : State, ∃ q, exec .modulo s = .next ((s.withR q).withST 0) ∧
    ModuloRule (qNaN .modulo 0 [s.a, s.b]) s.a s.b q

/-- R510: (a) ADD and MUL commute bit for bit when neither operand is a NaN, and when one is both orders give a NaN;
(b) +0 is neutral for ADD but at −0; (c) 1 is neutral for MUL; (d) what they give at infinities; (e) a result depends
on A and B alone. -/
def Obligations.ArithmeticLaws : Prop :=
  (∀ s s' : State, ∀ i ∈ [Instr.add, .mul], s'.a = s.b → s'.b = s.a →
    ∃ t t', exec i s = .next t ∧ exec i s' = .next t' ∧
      (isNaN s.a = false → isNaN s.b = false → t'.r = t.r) ∧
      (isNaN s.a = true ∨ isNaN s.b = true → isNaN t.r = true ∧ isNaN t'.r = true)) ∧
  (∀ s : State, isNaN s.a = false → s.b = 0 →
    exec .add s = .next ((s.withR (if isZero s.a then 0 else s.a)).withST 0)) ∧
  (∀ s : State, isNaN s.a = false → s.b = 0x3FFF0000000000000000000000000000 →
    exec .mul s = .next ((s.withR s.a).withST 0)) ∧
  (∀ s : State, s.a = signedInf false → s.b = signedInf false →
    exec .add s = .next ((s.withR (signedInf false)).withST 0) ∧
    ∃ q, exec .sub s = .next ((s.withR q).withST 0) ∧ isNaN q = true) ∧
  (∀ s : State, isFinite s.a = true → isInf s.b = true →
    exec .div s = .next ((s.withR (signedZero (quadSign s.a ^^ quadSign s.b))).withST 0)) ∧
  ∀ s s' : State, ∀ i ∈ [Instr.add, .sub, .mul, .div, .neg, .abs, .floor, .ceil, .mod, .modulo],
    s'.a = s.a → s'.b = s.b →
    ∃ t t', exec i s = .next t ∧ exec i s' = .next t' ∧ t'.r = t.r

/-- R600 to R608: the comparisons follow the order of the extended reals, and a NaN is unordered. -/
def Obligations.ComparisonsOrderTheExtendedReals : Prop :=
  decode 0x20 = .ok .cmp ∧ decode 0x21 = .ok .ceq ∧ decode 0x22 = .ok .cne ∧
  decode 0x23 = .ok .clt ∧ decode 0x24 = .ok .cle ∧ decode 0x25 = .ok .cgt ∧
  decode 0x26 = .ok .cge ∧ decode 0x27 = .ok .cun ∧
  ∀ s : State,
    (isNaN s.a = true ∨ isNaN s.b = true →
      exec .cmp s = .next ((s.withRI 2).withST 0) ∧ exec .cun s = .next ((s.withRI 1).withST 0) ∧
      ∀ i ∈ [Instr.ceq, .cne, .clt, .cle, .cgt, .cge], exec i s = .next ((s.withRI 0).withST 0)) ∧
    (isNaN s.a = false → isNaN s.b = false →
      exec .cun s = .next ((s.withRI 0).withST 0) ∧
      (extReal s.a < extReal s.b →
        exec .cmp s = .next ((s.withRI 0xFFFFFFFFFFFFFFFF).withST 0) ∧
        (∀ i ∈ [Instr.cne, .clt, .cle], exec i s = .next ((s.withRI 1).withST 0)) ∧
        ∀ i ∈ [Instr.ceq, .cgt, .cge], exec i s = .next ((s.withRI 0).withST 0)) ∧
      (extReal s.a = extReal s.b →
        exec .cmp s = .next ((s.withRI 0).withST 0) ∧
        (∀ i ∈ [Instr.ceq, .cle, .cge], exec i s = .next ((s.withRI 1).withST 0)) ∧
        ∀ i ∈ [Instr.cne, .clt, .cgt], exec i s = .next ((s.withRI 0).withST 0)) ∧
      (extReal s.b < extReal s.a →
        exec .cmp s = .next ((s.withRI 1).withST 0) ∧
        (∀ i ∈ [Instr.cne, .cgt, .cge], exec i s = .next ((s.withRI 1).withST 0)) ∧
        ∀ i ∈ [Instr.ceq, .clt, .cle], exec i s = .next ((s.withRI 0).withST 0)))

/-- R700, R710: CVTI and CVTD are exact. -/
def Obligations.ConversionsAreExact : Prop :=
  decode 0x30 = .ok .cvti ∧ decode 0x31 = .ok .cvtd ∧
  ∀ s : State,
    (∃ q, exec .cvti s = .next ((s.withR q).withST 0) ∧ (s.n.val = 0 → q = 0) ∧
      isFinite q = true ∧ val q = (s.n.val.toInt : ℚ)) ∧
    ∃ q, exec .cvtd s = .next ((s.withR q).withST 0) ∧ DoubleRule (qNaN .cvtd 0 [s.n.val.setWidth 128]) s.n.val q

/-- R720: CONST loads the entry of the table and reports BAD_OPERAND above 12; entries 11 and 12 are checked against
the reals they name, the rest are the patterns of R721. -/
def Obligations.ConstantsAreTheTable : Prop :=
  (∀ k : Nat, k < 256 → decode (BitVec.ofNat 64 (k * 256 + 0x32)) = .ok (.const k)) ∧
  (∀ s : State, ∀ k q, (k, q) ∈ [(0, 0x40005BF0A8B1457695355FB8AC404E7A), (1, 0x3FFF71547652B82FE1777D0FFDA0D23A),
      (2, 0x3FFDBCB7B1526E50E32A6AB7555F5A68), (3, 0x3FFE62E42FEFA39EF35793C7673007E6),
      (4, 0x400026BB1BBB5551582DD4ADAC5705A6), (5, 0x4000921FB54442D18469898CC51701B8),
      (6, 0x3FFF921FB54442D18469898CC51701B8), (7, 0x3FFE921FB54442D18469898CC51701B8),
      (8, 0x3FFD45F306DC9C882A53F84EAFA3EA6A), (9, 0x3FFE45F306DC9C882A53F84EAFA3EA6A),
      (10, 0x3FFF20DD750429B6D11AE3A914FED7FE), (11, 0x3FFF6A09E667F3BCC908B2FB1366EA95),
      (12, 0x3FFE6A09E667F3BCC908B2FB1366EA95)] →
    exec (.const k) s = .next ((s.withR q).withST 0)) ∧
  (∀ s : State, exec (.const 11) s = .next ((s.withR (nearestQuad (Real.sqrt 2))).withST 0) ∧
    exec (.const 12) s = .next ((s.withR (nearestQuad (1 / Real.sqrt 2))).withST 0)) ∧
  ∀ (s : State) (k : Nat), 12 < k → exec (.const k) s = .next (s.withST 2)

/-- R730, R731: LIMIT gives max, min, epsilon and denorm_min in R and the integer limits in RI, and reports
BAD_OPERAND above 9. -/
def Obligations.LimitsAreTheTable : Prop :=
  (∀ k : Nat, k < 256 → decode (BitVec.ofNat 64 (k * 256 + 0x33)) = .ok (.limit k)) ∧
  (∀ s : State, ∀ k q, (k, q) ∈ [(0, 0x7FFEFFFFFFFFFFFFFFFFFFFFFFFFFFFF), (1, 0x00010000000000000000000000000000),
      (2, 0x3F8F0000000000000000000000000000), (3, 0x00000000000000000000000000000001)] →
    exec (.limit k) s = .next ((s.withR q).withST 0)) ∧
  (∀ s : State, ∀ k v, (k, v) ∈ [(4, 113), (5, 33), (6, 0xFFFFFFFFFFFFC003), (7, 16384), (8, 0xFFFFFFFFFFFFECBD),
      (9, 4932)] →
    exec (.limit k) s = .next ((s.withRI v).withST 0)) ∧
  ∀ (s : State) (k : Nat), 9 < k → exec (.limit k) s = .next (s.withST 2)

/-- R810: SQRT is the correctly rounded root. -/
def Obligations.SqrtIsCorrectlyRounded : Prop :=
  decode 0x40 = .ok .sqrt ∧
  ∀ s : State, ∃ q, exec .sqrt s = .next ((s.withR q).withST 0) ∧
    (isNaN s.a = true → q = qNaN .sqrt 0 [s.a]) ∧
    (isZero s.a = true → q = s.a) ∧
    (isNaN s.a = false → isZero s.a = false → quadSign s.a = true → q = qNaN .sqrt 0 [s.a]) ∧
    (s.a = signedInf false → q = s.a) ∧
    (isFinite s.a = true → isZero s.a = false → quadSign s.a = false →
      q = roundPackReal false (Real.sqrt (valReal s.a)))

/-- R814: POWI is the squaring loop over the binary digits of |N|, every product rounded, and one division at the end
for a negative N; a power of 0 is 1 and a power of 1 is the base, bit for bit. -/
def Obligations.PowiIsTheSquaringLoop : Prop :=
  decode 0x44 = .ok .powi ∧
  ∀ s : State, ∃ q, exec .powi s = .next ((s.withR q).withST 0) ∧
    (isNaN s.a = true → q = qNaN .powi 0 [s.a, s.n.val.setWidth 128]) ∧
    (isNaN s.a = false → 0 ≤ s.n.val.toInt → q = (squareDigits s.a s.n.val.toInt.natAbs.bits).1) ∧
    (isNaN s.a = false → s.n.val.toInt < 0 →
      DivRule (qNaN .div 0 [signedOne false, (squareDigits s.a s.n.val.toInt.natAbs.bits).1]) (signedOne false)
        (squareDigits s.a s.n.val.toInt.natAbs.bits).1 q) ∧
    (isNaN s.a = false → s.n.val = 0 → q = signedOne false) ∧
    (isNaN s.a = false → s.n.val = 1 → q = s.a)

/-- R811, R812: EXP and LOG; in the last branch of each R is FN_f(A), within the block's bound of the exact value
(`TableValue`); which function and which bound the block has stays open (log entries 5 and 6). A result above the largest finite by more than the bound is +∞, and
under a bound of 2 EXP(−20000) is +0 or one of the two smallest subnormals. -/
def Obligations.ExpAndLogFollowTheirRules : Prop :=
  decode 0x41 = .ok .exp ∧ decode 0x42 = .ok .log ∧
  (∀ s : State,
    (∃ q, exec .exp s = .next ((s.withR q).withST 0) ∧ ExpRule (qNaN .exp 0 [s.a]) s.a q) ∧
    ∃ q, exec .log s = .next ((s.withR q).withST 0) ∧ LogRule (qNaN .log 0 [s.a]) s.a q) ∧
  (∀ (u : ℚ) (y : ℝ) (q : Quad), 1 / 2 ≤ u → Acc u y q →
    valReal 0x7FFEFFFFFFFFFFFFFFFFFFFFFFFFFFFF + u * ulp y < y → q = signedInf false) ∧
  ∀ (u : ℚ) (q : Quad), u ≤ 2 → Acc u (Real.exp (-20000)) q → q.toNat ≤ 2

/-- R813: POW; its last branch as in EXP. -/
def Obligations.PowFollowsItsRule : Prop :=
  decode 0x43 = .ok .pow ∧
  ∀ s : State, ∃ q, exec .pow s = .next ((s.withR q).withST 0) ∧ PowRule (qNaN .pow 0 [s.a, s.b]) s.a s.b q

/-- R815, R816, R818, R819: SIN, COS, TAN and COT; their last branches as in EXP; a sine is never zero at
a nonzero finite A. -/
def Obligations.TrigonometricFunctionsFollowTheirRules : Prop :=
  decode 0x45 = .ok .sin ∧ decode 0x46 = .ok .cos ∧ decode 0x48 = .ok .tan ∧
  decode 0x49 = .ok .cot ∧
  ∀ s : State,
    (∃ q, exec .sin s = .next ((s.withR q).withST 0) ∧
      OneOperandRule .sin (qNaN .sin 0 [s.a]) (qNaN .sin 0 [s.a]) s.a s.a q ∧
      (isFinite s.a = true → isZero s.a = false → isZero q = false)) ∧
    (∃ q, exec .cos s = .next ((s.withR q).withST 0) ∧
      OneOperandRule .cos (qNaN .cos 0 [s.a]) (qNaN .cos 0 [s.a]) (signedOne false) s.a q) ∧
    (∃ q, exec .tan s = .next ((s.withR q).withST 0) ∧
      OneOperandRule .tan (qNaN .tan 0 [s.a]) (qNaN .tan 0 [s.a]) s.a s.a q) ∧
    ∃ q, exec .cot s = .next ((s.withR q).withST 0) ∧
      OneOperandRule .cot (qNaN .cot 0 [s.a]) (qNaN .cot 0 [s.a]) (signedInf (quadSign s.a)) s.a q

/-- R817: SINCOS gives SIN's result in R and COS's in R2, bit for bit for a non-NaN A, the NaNs of an infinite A among
them; for a NaN A both are quiet NaNs, separate draws (log entry 4). -/
def Obligations.SincosGivesSinAndCos : Prop :=
  decode 0x47 = .ok .sincos ∧
  ∀ s : State, ∃ t u q q2, exec .sin s = .next t ∧ exec .cos s = .next u ∧
    exec .sincos s = .next (((s.withR q).withR2 q2).withST 0) ∧
      (isNaN s.a = false → q = t.r ∧ q2 = u.r) ∧
      (isNaN s.a = true → quadClass q = .quietNaN ∧ quadClass q2 = .quietNaN)

/-- R820, R821, R822: SINH, COSH and TANH; COSH is never negative; SINH(±12000) is an infinity; their last branches
as in EXP. -/
def Obligations.HyperbolicFunctionsFollowTheirRules : Prop :=
  decode 0x4A = .ok .sinh ∧ decode 0x4B = .ok .cosh ∧ decode 0x4C = .ok .tanh ∧
  ∀ s : State,
    (∃ q, exec .sinh s = .next ((s.withR q).withST 0) ∧ OneOperandRule .sinh (qNaN .sinh 0 [s.a]) s.a s.a s.a q ∧
      (isFinite s.a = true → |val s.a| = 12000 → q = signedInf (quadSign s.a))) ∧
    (∃ q, exec .cosh s = .next ((s.withR q).withST 0) ∧
      OneOperandRule .cosh (qNaN .cosh 0 [s.a]) (signedInf false) (signedOne false) s.a q ∧
      (isNaN s.a = false → quadSign q = false)) ∧
    ∃ q, exec .tanh s = .next ((s.withR q).withST 0) ∧
      OneOperandRule .tanh (qNaN .tanh 0 [s.a]) (signedOne (quadSign s.a)) s.a s.a q

/-- R823, R824, R825: ASIN, ACOS and ATAN; ACOS is never negative; their last branches as in EXP. -/
def Obligations.InverseTrigonometricFunctionsFollowTheirRules : Prop :=
  decode 0x4D = .ok .asin ∧ decode 0x4E = .ok .acos ∧ decode 0x4F = .ok .atan ∧
  ∀ s : State,
    (∃ q, exec .asin s = .next ((s.withR q).withST 0) ∧
      ArcRule .asin (qNaN .asin 0 [s.a]) s.a q (isZero s.a = true) s.a) ∧
    (∃ q, exec .acos s = .next ((s.withR q).withST 0) ∧
      ArcRule .acos (qNaN .acos 0 [s.a]) s.a q (s.a = signedOne false) (signedZero false) ∧
      (isFinite s.a = true → |val s.a| ≤ 1 → quadSign q = false)) ∧
    ∃ q, exec .atan s = .next ((s.withR q).withST 0) ∧
      OneOperandRule .atan (qNaN .atan 0 [s.a])
        (if quadSign s.a then 0xBFFF921FB54442D18469898CC51701B8 else 0x3FFF921FB54442D18469898CC51701B8) s.a s.a q

/-- R826: ATAN2; its last branch as in EXP. -/
def Obligations.Atan2FollowsItsRule : Prop :=
  decode 0x50 = .ok .atan2 ∧
  ∀ s : State, ∃ q, exec .atan2 s = .next ((s.withR q).withST 0) ∧ Atan2Rule (qNaN .atan2 0 [s.a, s.b]) s.a s.b q

/-- R802: at every input that is not special each function's command gives FN_f of the operands, a function of their bit
patterns alone, and that meets rule R801 under the block's bound, a rational ≥ 1/2; the result is infinite only where
the exact value rounds to an infinity. The same holds of any table that meets the contract. -/
def Obligations.AccurateTableGivesAccurateResults : Prop :=
  (∀ (s : State) (f : Fn), ordinaryInput f s.a (f.second s) = true →
    ∃ t, exec f.command s = .next t ∧ t.st = 0 ∧ t.r = Config.fn f s.a (f.second s) ∧
      Acc (Config.ulpBound f) (exactValue f s.a (f.second s)) t.r ∧ isNaN t.r = false ∧
      (isInf t.r = true → t.r = nearestQuad (exactValue f s.a (f.second s)))) ∧
  (∀ f : Fn, 1 / 2 ≤ Config.ulpBound f) ∧
  ∀ (u : Fn → ℚ) (fn : FnTable), MeetsContract u fn → ∀ (f : Fn) (nan a b : Quad), ordinaryInput f a b = true →
    Acc (u f) (exactValue f a b) (tableResult f fn nan a b)

/-- R424, R425: every command of R424's list completes with a quiet NaN in R (SINCOS in R2 too) when a quad operand is
a NaN; whenever one of them or CVTD leaves a NaN in R, or SINCOS in R2, it is a quiet one; NEG and ABS of a NaN are
NaNs. Which quiet NaN it is stays open (log entry 4). -/
def Obligations.NaNOperandsGiveQuietNaNs : Prop :=
  (∀ s : State, ∀ i ∈ nanUnary, isNaN s.a = true →
    ∃ t, exec i s = .next t ∧ t.st = 0 ∧ quadClass t.r = .quietNaN ∧ (i = .sincos → quadClass t.r2 = .quietNaN)) ∧
  (∀ s : State, ∀ i ∈ nanBinary, isNaN s.a = true ∨ isNaN s.b = true →
    ∃ t, exec i s = .next t ∧ t.st = 0 ∧ quadClass t.r = .quietNaN) ∧
  (∀ s t : State, ∀ i ∈ Instr.cvtd :: nanUnary ++ nanBinary, exec i s = .next t → isNaN t.r = true →
    quadClass t.r = .quietNaN) ∧
  (∀ s t : State, exec .sincos s = .next t → isNaN t.r2 = true → quadClass t.r2 = .quietNaN) ∧
  ∀ s t : State, ∀ i ∈ [Instr.neg, .abs], isNaN s.a = true → exec i s = .next t → isNaN t.r = true

/-- R900, R902, R906: PARSE's errors: a length above TBUF_SIZE before any byte is read, then a malformed text, R
unchanged; an unwritten byte of the text stops the model (log entry 3). -/
def Obligations.ParseErrors : Prop :=
  ∀ s : State,
    (Config.tbufSize < s.tlen.toNat → exec .parse s = .next (s.withST 6)) ∧
    (∀ t, HoldsText s t → ¬WellFormedText t → exec .parse s = .next (s.withST 3)) ∧
    (∀ k, s.tlen.toNat ≤ Config.tbufSize → k < s.tlen.toNat → readByte s.tbuf k = none →
      (∀ j, j < k → readByte s.tbuf j ≠ none) → exec .parse s = .fault (.operandUnwritten k))

/-- R903: PARSE of an infinity or NaN token gives the exact pattern of its sign, and is exact. -/
def Obligations.ParseSpecialTokens : Prop :=
  ∀ (s : State) (t body : List Byte) (neg : Bool), HoldsText s t → SignedText t body neg →
    (InfText body → exec .parse s = .next ((s.withR (signedInf neg)).withST 0)) ∧
    (NanText body →
      exec .parse s = .next ((s.withR (if neg then 0xFFFF8000000000000000000000000000
        else 0x7FFF8000000000000000000000000000)).withST 0))

/-- R904, R910: PARSE of a decimal gives the correctly rounded value of M·10^E, zero with the text's sign when M is 0,
and sets INEXACT exactly when the decimal's value is not the quad's; it clears it for a special token. -/
def Obligations.ParseDecimalsAreCorrectlyRounded : Prop :=
  ∀ (s : State) (t body : List Byte) (neg : Bool), HoldsText s t → SignedText t body neg →
    (InfText body ∨ NanText body → ∃ q, exec .parse s = .next ((s.withR q).withST 0)) ∧
    ∀ (i f x : List Byte) (xneg : Bool), DecimalText body i f x xneg →
      ∃ q inexact, exec .parse s = .next ((s.withR q).withST (if inexact then 0x100 else 0)) ∧
        (digitsNat (i ++ f) = 0 → q = signedZero neg ∧ inexact = false) ∧
        (digitsNat (i ++ f) ≠ 0 → q = roundPackReal neg (decimalReal i f x xneg) ∧
          (inexact = true ↔ isInf q = true ∨ |valReal q| ≠ decimalReal i f x xneg))

/-- R930, R1005: FORMAT's errors in their order: BAD_OPTION, PRECISION_ERROR, then BUFFER_OVERFLOW before any byte is
written. It holds for every size of text buffer, the block's own among them. -/
def Obligations.FormatErrorsInOrder : Prop :=
  (∀ s : State, exec .format s = formatCommand Config.tbufSize s) ∧
  ∀ (size : Nat) (s : State),
    (s.fopt.toNat / 2 ^ 24 ≠ 0 ∨ s.fopt.toNat / 2 ^ 12 % 4 ≠ 0 ∨ s.fopt.toNat / 2 ^ 8 % 16 = 0 →
      formatCommand size s = .next (s.withST 5)) ∧
    (s.fopt.toNat / 2 ^ 24 = 0 → s.fopt.toNat / 2 ^ 12 % 4 = 0 → s.fopt.toNat / 2 ^ 8 % 16 ≠ 0 →
      (35 < s.fopt.toNat % 2 ^ 8 → formatCommand size s = .next (s.withST 4)) ∧
      (s.fopt.toNat % 2 ^ 8 ≤ 35 → size < (formatText s.a s.fopt).1.length →
        formatCommand size s = .next (s.withST 6)))

/-- R925, R930: FORMAT with legal options stores its text at TBUF[0] on and no other byte, writes its length to TLEN
and RI, and leaves R alone. The text is the body padded on the left with spaces to WIDTH, at most 255 bytes, and 44
bytes for a finite value at the reset options; ST's INEXACT is the body's. -/
def Obligations.FormatWritesTheText : Prop :=
  (∀ s : State, s.fopt.toNat / 2 ^ 24 = 0 → s.fopt.toNat / 2 ^ 12 % 4 = 0 → s.fopt.toNat / 2 ^ 8 % 16 ≠ 0 →
    s.fopt.toNat % 2 ^ 8 ≤ 35 → (formatText s.a s.fopt).1.length ≤ Config.tbufSize →
    ∃ m, exec .format s = .next { s with
        tbuf := m
        tlen := BitVec.ofNat 64 (formatText s.a s.fopt).1.length
        ri := Reg.of (BitVec.ofNat 64 (formatText s.a s.fopt).1.length)
        st := if (formatText s.a s.fopt).2 then 0x100 else 0 } ∧
      ∀ k, readByte m k = if k < (formatText s.a s.fopt).1.length then (formatText s.a s.fopt).1[k]?
        else readByte s.tbuf k) ∧
  (∀ (a : Quad) (o : Word), (formatText a o).1 =
    List.replicate (o.toNat / 2 ^ 16 % 2 ^ 8 - (formatBody a o).1.length) 0x20 ++ (formatBody a o).1) ∧
  (∀ (a : Quad) (o : Word), (formatText a o).2 = (formatBody a o).2) ∧
  (∀ (a : Quad) (o : Word), o.toNat % 2 ^ 8 ≤ 35 → (formatText a o).1.length ≤ 255) ∧
  ∀ a : Quad, isFinite a = true → (formatText a 0x2C0423).1.length = 44

/-- R922, R931: the digits of a finite nonzero value v = |val(a)| at p digits after the point. With w = v·10^(p − e10)
for the e10 with 10^e10 ≤ v < 10^(e10+1), the digits are w rounded in mode rm, one more digit being a carry into the
exponent, and INEXACT says whether w is not an integer. -/
def Obligations.FormatDigitsAreRoundedOnce : Prop :=
  ∀ (a : Quad) (rm p : Nat), isFinite a = true → isZero a = false → rm ≤ 3 →
    ∃ (e10 : ℤ) (w : ℚ) (r : ℕ), (10 : ℚ) ^ e10 ≤ |val a| ∧ |val a| < (10 : ℚ) ^ (e10 + 1) ∧
      w = |val a| * (10 : ℚ) ^ ((p : ℤ) - e10) ∧
      (rm = 0 → |w - r| ≤ 1 / 2 ∧ (|w - r| = 1 / 2 → r % 2 = 0)) ∧
      (rm = 1 → (r : ℚ) ≤ w ∧ w < r + 1) ∧
      (rm = 2 → quadSign a = false → w ≤ r ∧ (r : ℚ) < w + 1) ∧ (rm = 2 → quadSign a = true → (r : ℚ) ≤ w ∧ w < r + 1) ∧
      (rm = 3 → quadSign a = true → w ≤ r ∧ (r : ℚ) < w + 1) ∧ (rm = 3 → quadSign a = false → (r : ℚ) ≤ w ∧ w < r + 1) ∧
      (r ≠ 10 ^ (p + 1) → (displayDigits rm p (quadSign a) (magnitude a) unit).digits = r ∧
        (displayDigits rm p (quadSign a) (magnitude a) unit).exponent = e10) ∧
      (r = 10 ^ (p + 1) → (displayDigits rm p (quadSign a) (magnitude a) unit).digits = 10 ^ p ∧
        (displayDigits rm p (quadSign a) (magnitude a) unit).exponent = e10 + 1) ∧
      ((displayDigits rm p (quadSign a) (magnitude a) unit).inexact = true ↔ ∀ k : ℤ, w ≠ k)

/-- R921, R923, R924: the body FORMAT prints: `NaN`; `Inf` after the sign; zero as zeros; and a finite nonzero value
as its digits, the first not zero, and its exponent padded to EXPW digits. -/
def Obligations.FormatBodyLayout : Prop :=
  ∀ (a : Quad) (o : Word),
    (isNaN a = true → formatBody a o = ([0x4E, 0x61, 0x4E], false)) ∧
    (isInf a = true → formatBody a o = ((if quadSign a then [0x2D] else []) ++ [0x49, 0x6E, 0x66], false)) ∧
    (isZero a = true → formatBody a o =
      ((if quadSign a then [0x2D] else []) ++ [0x30] ++
        (if o.toNat % 2 ^ 8 = 0 then [] else 0x2E :: List.replicate (o.toNat % 2 ^ 8) 0x30) ++
        [0x45, 0x2B] ++ List.replicate (max 1 (o.toNat / 2 ^ 8 % 16)) 0x30, false)) ∧
    (isFinite a = true → isZero a = false →
      ∃ (d0 : Byte) (ds xs : List Byte) (x : DecimalDigits),
        x = displayDigits (o.toNat / 2 ^ 14 % 4) (o.toNat % 2 ^ 8) (quadSign a) (magnitude a) unit ∧
        formatBody a o = ((if quadSign a then [0x2D] else []) ++ [d0] ++
          (if o.toNat % 2 ^ 8 = 0 then [] else 0x2E :: ds) ++
          [0x45, if x.exponent < 0 then 0x2D else 0x2B] ++ xs, x.inexact) ∧
        DigitByte d0 ∧ d0 ≠ 0x30 ∧ (∀ b ∈ ds, DigitByte b) ∧ ds.length = o.toNat % 2 ^ 8 ∧
        digitsNat (d0 :: ds) = x.digits ∧
        (∀ b ∈ xs, DigitByte b) ∧ digitsNat xs = x.exponent.natAbs ∧ o.toNat / 2 ^ 8 % 16 ≤ xs.length ∧
        (o.toNat / 2 ^ 8 % 16 < xs.length → xs.head? ≠ some 0x30 ∨ xs = [0x30]))

/-- R932: FORMAT at 35 digits after the point, rounding to nearest, followed by PARSE of its output gives back every
quad that is not a NaN bit for bit, and for a NaN a quiet NaN. -/
def Obligations.FormatThenParseRoundTrips : Prop :=
  ∀ s t : State, s.fopt.toNat % 2 ^ 8 = 35 → s.fopt.toNat / 2 ^ 8 % 16 ≠ 0 → s.fopt.toNat / 2 ^ 12 % 16 = 0 →
    s.fopt.toNat / 2 ^ 24 = 0 → (formatText s.a s.fopt).1.length ≤ Config.tbufSize →
    exec .format s = .next t →
      ∃ v, exec .parse t = .next v ∧ statusCode v.st = 0 ∧
        (isNaN s.a = false → v.r = s.a) ∧ (isNaN s.a = true → quadClass v.r = .quietNaN)
end

