-- ==== Sys2Proof/Laws/Accuracy.lean ====
section
/-! SUPPORT. What an acceptable result is, what is known of the block's own parameters, and that a delivered NaN is quiet. -/

namespace Sys2Proof.Machine

theorem isNaN_withSign (s : Bool) (q : Quad) : isNaN (withSign s q) = isNaN q := by
  rw [Bool.eq_iff_iff, isNaN_iff, isNaN_iff, (withSign_fields s q).2.1, (withSign_fields s q).2.2]

theorem isFinite_withSign (s : Bool) (q : Quad) : isFinite (withSign s q) = isFinite q := by
  rw [Bool.eq_iff_iff, isFinite_iff, isFinite_iff, (withSign_fields s q).2.1]

theorem not_nan_of_finite {q : Quad} (h : isFinite q = true) : isNaN q = false := by
  rcases quad_trichotomy q with ⟨-, -, h'⟩ | ⟨h', -⟩ | ⟨h', -⟩
  · rw [h] at h'
    cases h'
  · exact h'
  · exact h'

theorem not_inf_of_finite {q : Quad} (h : isFinite q = true) : isInf q = false := by
  rcases quad_trichotomy q with ⟨-, h', -⟩ | ⟨-, -, h'⟩ | ⟨-, h', -⟩
  · exact h'
  · rw [h] at h'
    cases h'
  · exact h'

theorem nearestQuad_sign (y : ℝ) : quadSign (nearestQuad y) = signReal y := roundPackReal_sign _ _

theorem nearestQuad_not_nan (y : ℝ) : isNaN (nearestQuad y) = false := roundPackReal_not_nan _ _

/-- An acceptable value is not a NaN, and has the exact value's sign unless that is 0 (R801). -/
theorem Acc.not_nan {u : ℚ} {y : ℝ} {q : Quad} (h : Acc u y q) : isNaN q = false := by
  rcases h with rfl | h
  · exact nearestQuad_not_nan y
  · exact not_nan_of_finite h.1

theorem Acc.sign {u : ℚ} {y : ℝ} {q : Quad} (h : Acc u y q) (hy : y ≠ 0) : quadSign q = signReal y := by
  rcases h with rfl | h
  · exact nearestQuad_sign y
  · exact h.2.2 hy

/-- An acceptable value for a y below the overflow threshold is finite (R801). -/
theorem Acc.finite {u : ℚ} {y : ℝ} {q : Quad} (h : Acc u y q) (hy : |y| < (2 : ℝ) ^ (16384 : ℤ) - 2 ^ (16270 : ℤ)) :
    isFinite q = true := by
  rcases h with rfl | h
  · unfold nearestQuad
    rcases (abs_nonneg y).eq_or_lt with h0 | h0
    · rw [← h0]
      unfold roundPackReal
      rw [if_pos rfl]
      exact isFinite_of_isZero (isZero_signedZero _)
    · exact (roundPackReal_value _ h0 hy).1
  · exact h.1

/-- A delivered NaN is a quiet NaN, whatever NAN_PATTERN is (R425). -/
theorem quadClass_qNaN (cmd : Instr) (result : Nat) (ops : List Quad) :
    quadClass (qNaN cmd result ops) = .quietNaN := by
  have hbit : ∀ i, 111 ≤ i → i < 127 → (qNaN cmd result ops).getLsbD i = true := by
    intro i h1 h2
    unfold qNaN
    rw [BitVec.getLsbD_append, BitVec.getLsbD_append]
    have h3 : ¬ i < 111 := by omega
    have h4 : i - 111 < 16 := by omega
    have h5 : ∀ j, j < 16 → (0xFFFF#16).getLsbD j = true := by decide
    simp [h3, h4, h5 (i - 111) h4]
  have he : quadExp (qNaN cmd result ops) = 32767 := by
    unfold quadExp
    have : (qNaN cmd result ops).extractLsb' 112 15 = 32767#15 := by
      apply BitVec.eq_of_getLsbD_eq
      intro i hi
      have h6 : ∀ j, j < 15 → (32767#15).getLsbD j = true := by decide
      rw [BitVec.getLsbD_extractLsb', hbit _ (by omega) (by omega), h6 i hi]
      simp [hi]
    rw [this]
    rfl
  have ht : quadFrac (qNaN cmd result ops) ≠ 0 := by
    intro h
    have h1 : (qNaN cmd result ops).extractLsb' 0 112 = 0#112 := BitVec.eq_of_toNat_eq h
    have h2 : ((qNaN cmd result ops).extractLsb' 0 112).getLsbD 111 = false := by rw [h1]; rfl
    rw [BitVec.getLsbD_extractLsb', Nat.zero_add, hbit 111 (by omega) (by omega)] at h2
    exact absurd h2 (by decide)
  unfold quadClass
  rw [he, if_neg (by decide), if_neg (by decide), if_neg ht, hbit 111 (by omega) (by omega)]
  rfl

theorem isNaN_qNaN (cmd : Instr) (result : Nat) (ops : List Quad) : isNaN (qNaN cmd result ops) = true := by
  unfold isNaN
  rw [quadClass_qNaN]

/-- The block's table meets rule R801 at every input that is not special (R802). -/
theorem Config.fn_acc {f : Fn} {a b : Quad} (h : ordinaryInput f a b = true) :
    Acc (Config.ulpBound f) (exactValue f a b) (Config.fn f a b) := Config.block.fn_contract f a b h

/-- Every bound is at least one half (R9). -/
theorem Config.half_le_ulpBound (f : Fn) : 1 / 2 ≤ Config.ulpBound f := Config.block.half_le_ulpBound f

/-- The block's table has the values the rules name (R811, R815, R820). -/
theorem Config.fn_named : HasNamedValues Config.fn := Config.block.fn_named

theorem Config.fn_not_nan {f : Fn} {a b : Quad} (h : ordinaryInput f a b = true) : isNaN (Config.fn f a b) = false :=
  (Config.fn_acc h).not_nan

theorem Config.fn_sign {f : Fn} {a b : Quad} (h : ordinaryInput f a b = true) (hy : exactValue f a b ≠ 0) :
    quadSign (Config.fn f a b) = signReal (exactValue f a b) :=
  (Config.fn_acc h).sign hy

/-- The NaN that ADD or MUL delivers for operands that are not NaNs does not depend on their order (R510 (a)). -/
theorem qNaN_comm {cmd : Instr} (hc : cmd ∈ [Instr.add, .mul]) {a b : Quad} (ha : isNaN a = false)
    (hb : isNaN b = false) : qNaN cmd 0 [a, b] = qNaN cmd 0 [b, a] := by
  have h : Config.nanPattern cmd 0 [a, b] = Config.nanPattern cmd 0 [b, a] :=
    Config.block.nanPattern_comm cmd hc a b ha hb
  unfold qNaN
  rw [h]

end Sys2Proof.Machine
end

