-- ==== Sys2Proof/Laws/Memory.lean ====
section
/-! SUPPORT. The laws of the text buffer: reads after writes, and that every operation keeps the canonical form and
the bound. -/

namespace Sys2Proof.Machine

@[simp] theorem readByte_nil (i : Nat) : readByte [] i = none := rfl

/-- A written byte reads back (R204). -/
theorem readByte_writeByte_self (m : List Host.Cell) (i : Nat) (b : Byte) : readByte (writeByte m i b) i = some b := by
  induction m with
  | nil => simp [writeByte, readByte]
  | cons c rest ih =>
    obtain ⟨j, d⟩ := c
    simp only [writeByte]
    split
    · simp [readByte]
    · split
      · simp [readByte]
      · rename_i h1 h2
        simp only [readByte]
        rw [if_neg (Ne.symm h2)]
        exact ih

/-- A write leaves every other byte alone (R204). -/
theorem readByte_writeByte_of_ne (m : List Host.Cell) (i k : Nat) (b : Byte) (h : k ≠ i) :
    readByte (writeByte m i b) k = readByte m k := by
  induction m with
  | nil => simp [writeByte, readByte, Ne.symm h]
  | cons c rest ih =>
    obtain ⟨j, d⟩ := c
    simp only [writeByte]
    split
    · simp [readByte, Ne.symm h]
    · split
      · rename_i h1 h2
        subst h2
        simp [readByte, Ne.symm h]
      · simp only [readByte, ih]

theorem readByte_writeByte (m : List Host.Cell) (i k : Nat) (b : Byte) :
    readByte (writeByte m i b) k = if k = i then some b else readByte m k := by
  split
  · rename_i h
    rw [h, readByte_writeByte_self]
  · rename_i h
    exact readByte_writeByte_of_ne m i k b h

/-- A text written at i reads back byte by byte, and every other byte is left alone (R204, R930). -/
theorem readByte_writeBytes (bs : List Byte) (m : List Host.Cell) (i k : Nat) :
    readByte (writeBytes m i bs) k =
      if i ≤ k ∧ k < i + bs.length then bs[k - i]? else readByte m k := by
  induction bs generalizing m i with
  | nil =>
    rw [if_neg (by simp only [List.length_nil]; omega)]
    rfl
  | cons b rest ih =>
    rw [writeBytes, ih, readByte_writeByte]
    simp only [List.length_cons]
    by_cases h1 : k = i
    · subst h1
      rw [if_neg (by omega), if_pos rfl, if_pos (by omega)]
      simp
    · by_cases h2 : i + 1 ≤ k ∧ k < i + 1 + rest.length
      · have hk : k - i = (k - (i + 1)) + 1 := by omega
        rw [if_pos h2, if_pos (by omega), hk, List.getElem?_cons_succ]
      · rw [if_neg h2, if_neg h1, if_neg (by omega)]

/-- The cells of a written buffer are the cell written and cells that were there. -/
theorem mem_writeByte {m : List Host.Cell} {i : Nat} {b : Byte} {c : Host.Cell} (h : c ∈ writeByte m i b) :
    c = (i, b) ∨ c ∈ m := by
  induction m with
  | nil => exact Or.inl (by simpa [writeByte] using h)
  | cons d rest ih =>
    obtain ⟨j, e⟩ := d
    simp only [writeByte] at h
    split at h
    · rcases List.mem_cons.1 h with h | h
      · exact Or.inl h
      · exact Or.inr h
    · split at h
      · rcases List.mem_cons.1 h with h | h
        · exact Or.inl h
        · exact Or.inr (List.mem_cons_of_mem _ h)
      · rcases List.mem_cons.1 h with h | h
        · exact Or.inr (h ▸ List.mem_cons_self)
        · exact (ih h).imp_right (List.mem_cons_of_mem _)

/-- Writing a byte keeps the canonical form. -/
theorem bufferWf_writeByte {m : List Host.Cell} (h : bufferWf m = true) (i : Nat) (b : Byte) :
    bufferWf (writeByte m i b) = true := by
  induction m with
  | nil => rfl
  | cons c rest ih =>
    obtain ⟨j, d⟩ := c
    simp only [bufferWf, Bool.and_eq_true, List.all_eq_true, decide_eq_true_eq] at h
    simp only [writeByte]
    split
    · rename_i hij
      simp only [bufferWf, Bool.and_eq_true, List.all_eq_true, decide_eq_true_eq, List.mem_cons]
      refine ⟨?_, h⟩
      rintro c (rfl | hc)
      · exact hij
      · exact lt_trans hij (h.1 c hc)
    · split
      · rename_i hij
        subst hij
        simp only [bufferWf, Bool.and_eq_true, List.all_eq_true, decide_eq_true_eq]
        exact h
      · simp only [bufferWf, Bool.and_eq_true, List.all_eq_true, decide_eq_true_eq]
        refine ⟨fun c hc => ?_, ih h.2⟩
        rcases mem_writeByte hc with rfl | hc
        · show j < i
          omega
        · exact h.1 c hc

/-- Writing a text keeps the canonical form. -/
theorem bufferWf_writeBytes {m : List Host.Cell} (h : bufferWf m = true) (i : Nat) (bs : List Byte) :
    bufferWf (writeBytes m i bs) = true := by
  induction bs generalizing m i with
  | nil => exact h
  | cons b rest ih => exact ih (bufferWf_writeByte h i b) (i + 1)

/-- Writing a byte below the bound keeps the bound. -/
theorem bound_writeByte {m : List Host.Cell} {size : Nat} (h : ∀ c ∈ m, c.1 < size) {i : Nat} (hi : i < size)
    (b : Byte) : ∀ c ∈ writeByte m i b, c.1 < size := by
  intro c hc
  rcases mem_writeByte hc with rfl | hc
  · exact hi
  · exact h c hc

/-- Writing a text that fits keeps the bound. -/
theorem bound_writeBytes {m : List Host.Cell} {size : Nat} (h : ∀ c ∈ m, c.1 < size) {i : Nat} {bs : List Byte}
    (hi : i + bs.length ≤ size) : ∀ c ∈ writeBytes m i bs, c.1 < size := by
  induction bs generalizing m i with
  | nil => exact h
  | cons b rest ih =>
    simp only [List.length_cons] at hi
    exact ih (bound_writeByte h (by omega) b) (by omega)

theorem State.reset_bufferWf : bufferWf State.reset.tbuf = true := rfl

/-- `readBytes` succeeds with the bytes that are there: every one of them written (R150). -/
theorem readBytes_eq_ok {m : List Host.Cell} {n i : Nat} {bs : List Byte} :
    readBytes m i n = .ok bs ↔ bs.length = n ∧ ∀ k, k < n → readByte m (i + k) = bs[k]? := by
  induction n generalizing i bs with
  | zero =>
    constructor
    · intro h
      cases h
      exact ⟨rfl, fun k hk => absurd hk (by omega)⟩
    · rintro ⟨h, -⟩
      rw [List.length_eq_zero_iff.1 h]
      rfl
  | succ n ih =>
    simp only [readBytes]
    constructor
    · intro h
      split at h
      · cases h
      · rename_i b hb
        split at h
        · cases h
        · rename_i bs' hbs
          cases h
          obtain ⟨hl, hr⟩ := ih.1 hbs
          refine ⟨by simp [hl], fun k hk => ?_⟩
          cases k with
          | zero => simpa using hb
          | succ k =>
            have := hr k (by omega)
            rw [List.getElem?_cons_succ, ← this]
            congr 1
            omega
    · rintro ⟨hl, hr⟩
      cases bs with
      | nil => simp at hl
      | cons b bs =>
        have h0 : readByte m i = some b := by simpa using hr 0 (by omega)
        have h1 : readBytes m (i + 1) n = .ok bs := by
          refine ih.2 ⟨by simpa using hl, fun k hk => ?_⟩
          have := hr (k + 1) (by omega)
          rw [List.getElem?_cons_succ] at this
          rw [← this]
          congr 1
          omega
        rw [h0, h1]

/-- `readBytes` fails only at an unwritten byte of its range, the first one (R150). -/
theorem readBytes_eq_error {m : List Host.Cell} {n i j : Nat} (h : readBytes m i n = .error j) :
    i ≤ j ∧ j < i + n ∧ readByte m j = none ∧ ∀ k, i ≤ k → k < j → (readByte m k).isSome = true := by
  induction n generalizing i with
  | zero => cases h
  | succ n ih =>
    simp only [readBytes] at h
    split at h
    · rename_i hb
      cases h
      exact ⟨le_rfl, by omega, hb, fun k h1 h2 => absurd h1 (by omega)⟩
    · rename_i b hb
      split at h
      · rename_i j' hj
        cases h
        obtain ⟨h1, h2, h3, h4⟩ := ih hj
        refine ⟨by omega, by omega, h3, fun k hk1 hk2 => ?_⟩
        rcases Nat.eq_or_lt_of_le hk1 with rfl | hlt
        · simp [hb]
        · exact h4 k hlt hk2
      · cases h

/-- A word is the word of its own eight bytes (R204, R210). -/
theorem bytesWord_wordBytes (v : Word) : bytesWord (wordBytes v) = v := by
  apply BitVec.eq_of_getLsbD_eq
  intro i hi
  simp only [wordBytes, bytesWord, BitVec.getLsbD_or, BitVec.getLsbD_shiftLeft, BitVec.getLsbD_setWidth,
    BitVec.getLsbD_extractLsb']
  interval_cases i <;> simp

end Sys2Proof.Machine
end

