-- ==== Sys2Proof/Laws/State.lean ====
section
/-! SUPPORT. What each state update does to each field, so that no later proof unfolds a record update. -/

namespace Sys2Proof.Machine

@[simp] theorem State.withR_aLo (s : State) (q : Quad) : (s.withR q).aLo = s.aLo := rfl
@[simp] theorem State.withR_aHi (s : State) (q : Quad) : (s.withR q).aHi = s.aHi := rfl
@[simp] theorem State.withR_bLo (s : State) (q : Quad) : (s.withR q).bLo = s.bLo := rfl
@[simp] theorem State.withR_bHi (s : State) (q : Quad) : (s.withR q).bHi = s.bHi := rfl
@[simp] theorem State.withR_n (s : State) (q : Quad) : (s.withR q).n = s.n := rfl
@[simp] theorem State.withR_fopt (s : State) (q : Quad) : (s.withR q).fopt = s.fopt := rfl
@[simp] theorem State.withR_tlen (s : State) (q : Quad) : (s.withR q).tlen = s.tlen := rfl
@[simp] theorem State.withR_cmd (s : State) (q : Quad) : (s.withR q).cmd = s.cmd := rfl
@[simp] theorem State.withR_rLo (s : State) (q : Quad) : (s.withR q).rLo = Reg.of (q.extractLsb' 0 64) := rfl
@[simp] theorem State.withR_rHi (s : State) (q : Quad) : (s.withR q).rHi = Reg.of (q.extractLsb' 64 64) := rfl
@[simp] theorem State.withR_r2Lo (s : State) (q : Quad) : (s.withR q).r2Lo = s.r2Lo := rfl
@[simp] theorem State.withR_r2Hi (s : State) (q : Quad) : (s.withR q).r2Hi = s.r2Hi := rfl
@[simp] theorem State.withR_ri (s : State) (q : Quad) : (s.withR q).ri = s.ri := rfl
@[simp] theorem State.withR_st (s : State) (q : Quad) : (s.withR q).st = s.st := rfl
@[simp] theorem State.withR_tbuf (s : State) (q : Quad) : (s.withR q).tbuf = s.tbuf := rfl
@[simp] theorem State.withR_pending (s : State) (q : Quad) : (s.withR q).pending = s.pending := rfl
@[simp] theorem State.withR_readData (s : State) (q : Quad) : (s.withR q).readData = s.readData := rfl
@[simp] theorem State.withR_a (s : State) (q : Quad) : (s.withR q).a = s.a := rfl
@[simp] theorem State.withR_b (s : State) (q : Quad) : (s.withR q).b = s.b := rfl
@[simp] theorem State.withR_nInt (s : State) (q : Quad) : (s.withR q).nInt = s.nInt := rfl
@[simp] theorem State.withR_r2 (s : State) (q : Quad) : (s.withR q).r2 = s.r2 := rfl

@[simp] theorem State.withR2_aLo (s : State) (q : Quad) : (s.withR2 q).aLo = s.aLo := rfl
@[simp] theorem State.withR2_aHi (s : State) (q : Quad) : (s.withR2 q).aHi = s.aHi := rfl
@[simp] theorem State.withR2_bLo (s : State) (q : Quad) : (s.withR2 q).bLo = s.bLo := rfl
@[simp] theorem State.withR2_bHi (s : State) (q : Quad) : (s.withR2 q).bHi = s.bHi := rfl
@[simp] theorem State.withR2_n (s : State) (q : Quad) : (s.withR2 q).n = s.n := rfl
@[simp] theorem State.withR2_fopt (s : State) (q : Quad) : (s.withR2 q).fopt = s.fopt := rfl
@[simp] theorem State.withR2_tlen (s : State) (q : Quad) : (s.withR2 q).tlen = s.tlen := rfl
@[simp] theorem State.withR2_cmd (s : State) (q : Quad) : (s.withR2 q).cmd = s.cmd := rfl
@[simp] theorem State.withR2_rLo (s : State) (q : Quad) : (s.withR2 q).rLo = s.rLo := rfl
@[simp] theorem State.withR2_rHi (s : State) (q : Quad) : (s.withR2 q).rHi = s.rHi := rfl
@[simp] theorem State.withR2_r2Lo (s : State) (q : Quad) : (s.withR2 q).r2Lo = Reg.of (q.extractLsb' 0 64) := rfl
@[simp] theorem State.withR2_r2Hi (s : State) (q : Quad) : (s.withR2 q).r2Hi = Reg.of (q.extractLsb' 64 64) := rfl
@[simp] theorem State.withR2_ri (s : State) (q : Quad) : (s.withR2 q).ri = s.ri := rfl
@[simp] theorem State.withR2_st (s : State) (q : Quad) : (s.withR2 q).st = s.st := rfl
@[simp] theorem State.withR2_tbuf (s : State) (q : Quad) : (s.withR2 q).tbuf = s.tbuf := rfl
@[simp] theorem State.withR2_pending (s : State) (q : Quad) : (s.withR2 q).pending = s.pending := rfl
@[simp] theorem State.withR2_readData (s : State) (q : Quad) : (s.withR2 q).readData = s.readData := rfl
@[simp] theorem State.withR2_a (s : State) (q : Quad) : (s.withR2 q).a = s.a := rfl
@[simp] theorem State.withR2_b (s : State) (q : Quad) : (s.withR2 q).b = s.b := rfl
@[simp] theorem State.withR2_nInt (s : State) (q : Quad) : (s.withR2 q).nInt = s.nInt := rfl
@[simp] theorem State.withR2_r (s : State) (q : Quad) : (s.withR2 q).r = s.r := rfl

@[simp] theorem State.withRI_aLo (s : State) (v : Word) : (s.withRI v).aLo = s.aLo := rfl
@[simp] theorem State.withRI_aHi (s : State) (v : Word) : (s.withRI v).aHi = s.aHi := rfl
@[simp] theorem State.withRI_bLo (s : State) (v : Word) : (s.withRI v).bLo = s.bLo := rfl
@[simp] theorem State.withRI_bHi (s : State) (v : Word) : (s.withRI v).bHi = s.bHi := rfl
@[simp] theorem State.withRI_n (s : State) (v : Word) : (s.withRI v).n = s.n := rfl
@[simp] theorem State.withRI_fopt (s : State) (v : Word) : (s.withRI v).fopt = s.fopt := rfl
@[simp] theorem State.withRI_tlen (s : State) (v : Word) : (s.withRI v).tlen = s.tlen := rfl
@[simp] theorem State.withRI_cmd (s : State) (v : Word) : (s.withRI v).cmd = s.cmd := rfl
@[simp] theorem State.withRI_rLo (s : State) (v : Word) : (s.withRI v).rLo = s.rLo := rfl
@[simp] theorem State.withRI_rHi (s : State) (v : Word) : (s.withRI v).rHi = s.rHi := rfl
@[simp] theorem State.withRI_r2Lo (s : State) (v : Word) : (s.withRI v).r2Lo = s.r2Lo := rfl
@[simp] theorem State.withRI_r2Hi (s : State) (v : Word) : (s.withRI v).r2Hi = s.r2Hi := rfl
@[simp] theorem State.withRI_ri (s : State) (v : Word) : (s.withRI v).ri = Reg.of v := rfl
@[simp] theorem State.withRI_st (s : State) (v : Word) : (s.withRI v).st = s.st := rfl
@[simp] theorem State.withRI_tbuf (s : State) (v : Word) : (s.withRI v).tbuf = s.tbuf := rfl
@[simp] theorem State.withRI_pending (s : State) (v : Word) : (s.withRI v).pending = s.pending := rfl
@[simp] theorem State.withRI_readData (s : State) (v : Word) : (s.withRI v).readData = s.readData := rfl
@[simp] theorem State.withRI_a (s : State) (v : Word) : (s.withRI v).a = s.a := rfl
@[simp] theorem State.withRI_b (s : State) (v : Word) : (s.withRI v).b = s.b := rfl
@[simp] theorem State.withRI_nInt (s : State) (v : Word) : (s.withRI v).nInt = s.nInt := rfl
@[simp] theorem State.withRI_r (s : State) (v : Word) : (s.withRI v).r = s.r := rfl
@[simp] theorem State.withRI_r2 (s : State) (v : Word) : (s.withRI v).r2 = s.r2 := rfl

@[simp] theorem State.withST_aLo (s : State) (v : Word) : (s.withST v).aLo = s.aLo := rfl
@[simp] theorem State.withST_aHi (s : State) (v : Word) : (s.withST v).aHi = s.aHi := rfl
@[simp] theorem State.withST_bLo (s : State) (v : Word) : (s.withST v).bLo = s.bLo := rfl
@[simp] theorem State.withST_bHi (s : State) (v : Word) : (s.withST v).bHi = s.bHi := rfl
@[simp] theorem State.withST_n (s : State) (v : Word) : (s.withST v).n = s.n := rfl
@[simp] theorem State.withST_fopt (s : State) (v : Word) : (s.withST v).fopt = s.fopt := rfl
@[simp] theorem State.withST_tlen (s : State) (v : Word) : (s.withST v).tlen = s.tlen := rfl
@[simp] theorem State.withST_cmd (s : State) (v : Word) : (s.withST v).cmd = s.cmd := rfl
@[simp] theorem State.withST_rLo (s : State) (v : Word) : (s.withST v).rLo = s.rLo := rfl
@[simp] theorem State.withST_rHi (s : State) (v : Word) : (s.withST v).rHi = s.rHi := rfl
@[simp] theorem State.withST_r2Lo (s : State) (v : Word) : (s.withST v).r2Lo = s.r2Lo := rfl
@[simp] theorem State.withST_r2Hi (s : State) (v : Word) : (s.withST v).r2Hi = s.r2Hi := rfl
@[simp] theorem State.withST_ri (s : State) (v : Word) : (s.withST v).ri = s.ri := rfl
@[simp] theorem State.withST_st (s : State) (v : Word) : (s.withST v).st = v := rfl
@[simp] theorem State.withST_tbuf (s : State) (v : Word) : (s.withST v).tbuf = s.tbuf := rfl
@[simp] theorem State.withST_pending (s : State) (v : Word) : (s.withST v).pending = s.pending := rfl
@[simp] theorem State.withST_readData (s : State) (v : Word) : (s.withST v).readData = s.readData := rfl
@[simp] theorem State.withST_a (s : State) (v : Word) : (s.withST v).a = s.a := rfl
@[simp] theorem State.withST_b (s : State) (v : Word) : (s.withST v).b = s.b := rfl
@[simp] theorem State.withST_nInt (s : State) (v : Word) : (s.withST v).nInt = s.nInt := rfl
@[simp] theorem State.withST_r (s : State) (v : Word) : (s.withST v).r = s.r := rfl
@[simp] theorem State.withST_r2 (s : State) (v : Word) : (s.withST v).r2 = s.r2 := rfl

@[simp] theorem State.withTLEN_aLo (s : State) (v : Word) : (s.withTLEN v).aLo = s.aLo := rfl
@[simp] theorem State.withTLEN_aHi (s : State) (v : Word) : (s.withTLEN v).aHi = s.aHi := rfl
@[simp] theorem State.withTLEN_bLo (s : State) (v : Word) : (s.withTLEN v).bLo = s.bLo := rfl
@[simp] theorem State.withTLEN_bHi (s : State) (v : Word) : (s.withTLEN v).bHi = s.bHi := rfl
@[simp] theorem State.withTLEN_n (s : State) (v : Word) : (s.withTLEN v).n = s.n := rfl
@[simp] theorem State.withTLEN_fopt (s : State) (v : Word) : (s.withTLEN v).fopt = s.fopt := rfl
@[simp] theorem State.withTLEN_tlen (s : State) (v : Word) : (s.withTLEN v).tlen = v := rfl
@[simp] theorem State.withTLEN_cmd (s : State) (v : Word) : (s.withTLEN v).cmd = s.cmd := rfl
@[simp] theorem State.withTLEN_rLo (s : State) (v : Word) : (s.withTLEN v).rLo = s.rLo := rfl
@[simp] theorem State.withTLEN_rHi (s : State) (v : Word) : (s.withTLEN v).rHi = s.rHi := rfl
@[simp] theorem State.withTLEN_r2Lo (s : State) (v : Word) : (s.withTLEN v).r2Lo = s.r2Lo := rfl
@[simp] theorem State.withTLEN_r2Hi (s : State) (v : Word) : (s.withTLEN v).r2Hi = s.r2Hi := rfl
@[simp] theorem State.withTLEN_ri (s : State) (v : Word) : (s.withTLEN v).ri = s.ri := rfl
@[simp] theorem State.withTLEN_st (s : State) (v : Word) : (s.withTLEN v).st = s.st := rfl
@[simp] theorem State.withTLEN_tbuf (s : State) (v : Word) : (s.withTLEN v).tbuf = s.tbuf := rfl
@[simp] theorem State.withTLEN_pending (s : State) (v : Word) : (s.withTLEN v).pending = s.pending := rfl
@[simp] theorem State.withTLEN_readData (s : State) (v : Word) : (s.withTLEN v).readData = s.readData := rfl
@[simp] theorem State.withTLEN_a (s : State) (v : Word) : (s.withTLEN v).a = s.a := rfl
@[simp] theorem State.withTLEN_b (s : State) (v : Word) : (s.withTLEN v).b = s.b := rfl
@[simp] theorem State.withTLEN_nInt (s : State) (v : Word) : (s.withTLEN v).nInt = s.nInt := rfl
@[simp] theorem State.withTLEN_r (s : State) (v : Word) : (s.withTLEN v).r = s.r := rfl
@[simp] theorem State.withTLEN_r2 (s : State) (v : Word) : (s.withTLEN v).r2 = s.r2 := rfl

@[simp] theorem State.withText_aLo (s : State) (t : List Byte) : (s.withText t).aLo = s.aLo := rfl
@[simp] theorem State.withText_aHi (s : State) (t : List Byte) : (s.withText t).aHi = s.aHi := rfl
@[simp] theorem State.withText_bLo (s : State) (t : List Byte) : (s.withText t).bLo = s.bLo := rfl
@[simp] theorem State.withText_bHi (s : State) (t : List Byte) : (s.withText t).bHi = s.bHi := rfl
@[simp] theorem State.withText_n (s : State) (t : List Byte) : (s.withText t).n = s.n := rfl
@[simp] theorem State.withText_fopt (s : State) (t : List Byte) : (s.withText t).fopt = s.fopt := rfl
@[simp] theorem State.withText_tlen (s : State) (t : List Byte) : (s.withText t).tlen = s.tlen := rfl
@[simp] theorem State.withText_cmd (s : State) (t : List Byte) : (s.withText t).cmd = s.cmd := rfl
@[simp] theorem State.withText_rLo (s : State) (t : List Byte) : (s.withText t).rLo = s.rLo := rfl
@[simp] theorem State.withText_rHi (s : State) (t : List Byte) : (s.withText t).rHi = s.rHi := rfl
@[simp] theorem State.withText_r2Lo (s : State) (t : List Byte) : (s.withText t).r2Lo = s.r2Lo := rfl
@[simp] theorem State.withText_r2Hi (s : State) (t : List Byte) : (s.withText t).r2Hi = s.r2Hi := rfl
@[simp] theorem State.withText_ri (s : State) (t : List Byte) : (s.withText t).ri = s.ri := rfl
@[simp] theorem State.withText_st (s : State) (t : List Byte) : (s.withText t).st = s.st := rfl
@[simp] theorem State.withText_tbuf (s : State) (t : List Byte) : (s.withText t).tbuf = writeBytes s.tbuf 0 t := rfl
@[simp] theorem State.withText_pending (s : State) (t : List Byte) : (s.withText t).pending = s.pending := rfl
@[simp] theorem State.withText_readData (s : State) (t : List Byte) : (s.withText t).readData = s.readData := rfl
@[simp] theorem State.withText_a (s : State) (t : List Byte) : (s.withText t).a = s.a := rfl
@[simp] theorem State.withText_b (s : State) (t : List Byte) : (s.withText t).b = s.b := rfl
@[simp] theorem State.withText_nInt (s : State) (t : List Byte) : (s.withText t).nInt = s.nInt := rfl
@[simp] theorem State.withText_r (s : State) (t : List Byte) : (s.withText t).r = s.r := rfl
@[simp] theorem State.withText_r2 (s : State) (t : List Byte) : (s.withText t).r2 = s.r2 := rfl

/-- The halves of a quad put together again give the quad (R12, R211). -/
theorem quad_halves (q : Quad) : q.extractLsb' 64 64 ++ q.extractLsb' 0 64 = q := by
  apply BitVec.eq_of_getLsbD_eq
  intro i hi
  rw [BitVec.getLsbD_append, BitVec.getLsbD_extractLsb', BitVec.getLsbD_extractLsb']
  by_cases h : i < 64
  · simp [h]
  · have h1 : 64 + (i - 64) = i := by omega
    have h2 : i - 64 < 64 := by omega
    simp [h, h1, h2]

@[simp] theorem State.withR_r (s : State) (q : Quad) : (s.withR q).r = q := quad_halves q

@[simp] theorem State.withR2_r2 (s : State) (q : Quad) : (s.withR2 q).r2 = q := quad_halves q

@[simp] theorem Reg.of_val (v : Word) : (Reg.of v).val = v := rfl

@[simp] theorem Reg.of_written (v : Word) : (Reg.of v).written = true := rfl

/-- A register written to reads as the value written (R214). -/
theorem State.writeReg_readReg (s : State) (r : RegName) (v : Word) (h : regWritable r = true) :
    (s.writeReg r v).readReg r = v := by
  cases r <;> first | rfl | exact absurd h (by decide)

/-- A write to one register leaves the others alone (R214). -/
theorem State.writeReg_readReg_of_ne (s : State) (r r' : RegName) (v : Word) (h : r ≠ r') :
    (s.writeReg r v).readReg r' = s.readReg r' := by
  cases r <;> cases r' <;> first | rfl | exact absurd rfl h

@[simp] theorem State.writeReg_tbuf (s : State) (r : RegName) (v : Word) : (s.writeReg r v).tbuf = s.tbuf := by
  cases r <;> rfl

@[simp] theorem State.writeReg_st (s : State) (r : RegName) (v : Word) : (s.writeReg r v).st = s.st := by
  cases r <;> rfl

@[simp] theorem State.writeReg_pending (s : State) (r : RegName) (v : Word) :
    (s.writeReg r v).pending = s.pending := by
  cases r <;> rfl

@[simp] theorem State.writeReg_readData (s : State) (r : RegName) (v : Word) :
    (s.writeReg r v).readData = s.readData := by
  cases r <;> rfl

end Sys2Proof.Machine
end

