-- ==== Sys2Proof/Laws/Ops.lean ====
section
/-! SUPPORT. What the shared operations can do: the ends of a command, the tables, and for every command the outcomes it
has. -/

namespace Sys2Proof.Machine

@[simp] theorem finish_eq (s : State) : finish s = .next (s.withST 0) := rfl
@[simp] theorem finishR_eq (s : State) (q : Quad) : finishR s q = .next ((s.withR q).withST 0) := rfl
@[simp] theorem finishRI_eq (s : State) (v : Word) : finishRI s v = .next ((s.withRI v).withST 0) := rfl
@[simp] theorem raiseError_eq (s : State) (e : UsageError) : raiseError s e = .next (s.withST (errorCode e)) := rfl

/-- The constant table ends at 12 (R720). -/
theorem constTable_eq_none_iff (k : Nat) : constTable k = none ↔ 12 < k := by
  constructor
  · intro h
    by_contra hk
    interval_cases k <;> cases h
  · intro h
    unfold constTable
    split <;> first | omega | rfl

/-- The quads of the limits table end at 3 (R731). -/
theorem limitQuad_eq_none_iff (k : Nat) : limitQuad k = none ↔ 3 < k := by
  constructor
  · intro h
    by_contra hk
    interval_cases k <;> cases h
  · intro h
    unfold limitQuad
    split <;> first | omega | rfl

/-- The integers of the limits table end at 9 (R731). -/
theorem limitInt_eq_none_of {k : Nat} (h : 3 < k) : limitInt k = none ↔ 9 < k := by
  constructor
  · intro h'
    by_contra hk
    interval_cases k <;> cases h'
  · intro h'
    unfold limitInt
    split <;> first | omega | rfl

/-- What a command that is neither PARSE nor FORMAT can do: it succeeds and writes its results, or it reports BAD_OPERAND
and writes nothing (R1001, R1002). -/
theorem exec_cases (i : Instr) (s : State) (hp : i ≠ .parse) (hf : i ≠ .format) :
    (∃ q, exec i s = .next ((s.withR q).withST 0) ∧ RegName.rLo ∈ resultRegs i ∧ RegName.rHi ∈ resultRegs i) ∨
    (∃ v, exec i s = .next ((s.withRI v).withST 0) ∧ RegName.ri ∈ resultRegs i) ∨
    (i = .decomp ∧ ∃ v q, exec i s = .next (((s.withRI v).withR q).withST 0)) ∨
    (i = .sincos ∧ ∃ q q2, exec i s = .next (((s.withR q).withR2 q2).withST 0)) ∨
    ((i = .compose ∨ (∃ k, i = .const k ∧ 12 < k) ∨ ∃ k, i = .limit k ∧ 9 < k) ∧ exec i s = .next (s.withST 2)) := by
  cases i with
  | parse => exact absurd rfl hp
  | format => exact absurd rfl hf
  | decomp => exact .inr (.inr (.inl ⟨rfl, _, _, rfl⟩))
  | sincos => exact .inr (.inr (.inr (.inl ⟨rfl, _, _, rfl⟩)))
  | compose =>
    simp only [exec, execCompose]
    split
    · exact .inr (.inr (.inr (.inr ⟨by simp, rfl⟩)))
    · exact .inl ⟨_, rfl, by simp [resultRegs]⟩
  | const k =>
    cases hk : constTable k with
    | some q => exact .inl ⟨q, by simp [exec, execConst, hk], by simp [resultRegs], by simp [resultRegs]⟩
    | none =>
      refine .inr (.inr (.inr (.inr ⟨.inr (.inl ⟨k, rfl, (constTable_eq_none_iff k).1 hk⟩), ?_⟩)))
      simp [exec, execConst, hk, errorCode]
  | limit k =>
    cases h1 : limitQuad k with
    | some q =>
      have : k ≤ 3 := by
        by_contra h
        rw [(limitQuad_eq_none_iff k).2 (by omega)] at h1
        cases h1
      exact .inl ⟨q, by simp [exec, execLimit, h1], by simp [resultRegs, this], by simp [resultRegs, this]⟩
    | none =>
      have h3 := (limitQuad_eq_none_iff k).1 h1
      cases h2 : limitInt k with
      | some n =>
        exact .inr (.inl ⟨BitVec.ofInt 64 n, by simp [exec, execLimit, h1, h2], by
          simp [resultRegs, Nat.not_le.2 h3]⟩)
      | none =>
        refine .inr (.inr (.inr (.inr ⟨.inr (.inr ⟨k, rfl, (limitInt_eq_none_of h3).1 h2⟩), ?_⟩)))
        simp [exec, execLimit, h1, h2, errorCode]
  | classify | sign | isnan | isinf | isfin | cmp | ceq | cne | clt | cle | cgt | cge | cun =>
    exact .inr (.inl ⟨_, rfl, by simp [resultRegs]⟩)
  | _ => exact .inl ⟨_, rfl, by simp [resultRegs], by simp [resultRegs]⟩

/-- What PARSE can do (R900, R1005). -/
theorem parseCommand_cases (size : Nat) (s : State) :
    (size < s.tlen.toNat ∧ parseCommand size s = .next (s.withST 6)) ∨
    (s.tlen.toNat ≤ size ∧
      ((∃ k, readBytes s.tbuf 0 s.tlen.toNat = .error k ∧ parseCommand size s = .fault (.operandUnwritten k)) ∨
       ∃ t, readBytes s.tbuf 0 s.tlen.toNat = .ok t ∧
        ((parseText t = none ∧ parseCommand size s = .next (s.withST 3)) ∨
         ∃ q x, parseText t = some (q, x) ∧ parseCommand size s = .next ((s.withR q).withST (if x then 0x100 else 0))))) := by
  unfold parseCommand
  split
  · rename_i h
    exact .inl ⟨h, rfl⟩
  · rename_i h
    refine .inr ⟨by omega, ?_⟩
    cases hb : readBytes s.tbuf 0 s.tlen.toNat with
    | error k => exact .inl ⟨k, rfl, rfl⟩
    | ok t =>
      refine .inr ⟨t, rfl, ?_⟩
      cases ht : parseText t with
      | none => exact .inl ⟨rfl, by dsimp only; rw [ht]; rfl⟩
      | some p => exact .inr ⟨p.1, p.2, rfl, by dsimp only; rw [ht]; rfl⟩

/-- What FORMAT can do (R930). -/
theorem formatCommand_cases (size : Nat) (s : State) :
    (∃ e, (e = 4 ∨ e = 5 ∨ e = 6) ∧ formatCommand size s = .next (s.withST e)) ∨
    ((formatText s.a s.fopt).1.length ≤ size ∧ foptPrec s.fopt ≤ 35 ∧
      formatCommand size s =
      .next ((((s.withText (formatText s.a s.fopt).1).withTLEN (BitVec.ofNat 64 (formatText s.a s.fopt).1.length)).withRI
        (BitVec.ofNat 64 (formatText s.a s.fopt).1.length)).withST (if (formatText s.a s.fopt).2 then 0x100 else 0))) := by
  unfold formatCommand
  split
  · exact .inl ⟨5, by decide, rfl⟩
  · split
    · exact .inl ⟨4, by decide, rfl⟩
    · rename_i h1 h2
      dsimp only
      split
      · exact .inl ⟨6, by decide, rfl⟩
      · rename_i h3
        exact .inr ⟨by omega, by omega, rfl⟩

end Sys2Proof.Machine
end

