-- ==== Sys2Proof/Laws/PerInstr.lean ====
section
/-! SUPPORT. For every command of the table, the fields of its word (spec/30_encoding.md rules R301, R304). -/

namespace Sys2Proof.Laws.WordFields

/-- A well-formed command's word holds its opcode in bits 7:0, its selector in bits 15:8, and zeros above (R301). -/
def Statement (i : Instr) : Prop :=
  i.WellFormed → opField (encode i) = opcodeOf i ∧ kField (encode i) = selectorOf i ∧ reservedField (encode i) = 0

/-- The fields of `K·256 + OP`. -/
theorem fields_of_word {k op : Nat} (hk : k < 256) (ho : op < 256) :
    opField (BitVec.ofNat 64 (k * 256 + op)) = op ∧ kField (BitVec.ofNat 64 (k * 256 + op)) = k ∧
      reservedField (BitVec.ofNat 64 (k * 256 + op)) = 0 := by
  unfold opField kField reservedField
  simp only [BitVec.extractLsb'_toNat, BitVec.toNat_ofNat, Nat.shiftRight_eq_div_pow]
  omega

theorem statement_of (i : Instr) (h : i.WellFormed → selectorOf i < 256) (ho : opcodeOf i < 256) : Statement i :=
  fun hw => fields_of_word (h hw) ho

theorem classify : Statement .classify := statement_of _ (fun _ => by decide) (by decide)
theorem sign : Statement .sign := statement_of _ (fun _ => by decide) (by decide)
theorem decomp : Statement .decomp := statement_of _ (fun _ => by decide) (by decide)
theorem compose : Statement .compose := statement_of _ (fun _ => by decide) (by decide)
theorem isnan : Statement .isnan := statement_of _ (fun _ => by decide) (by decide)
theorem isinf : Statement .isinf := statement_of _ (fun _ => by decide) (by decide)
theorem isfin : Statement .isfin := statement_of _ (fun _ => by decide) (by decide)
theorem add : Statement .add := statement_of _ (fun _ => by decide) (by decide)
theorem sub : Statement .sub := statement_of _ (fun _ => by decide) (by decide)
theorem mul : Statement .mul := statement_of _ (fun _ => by decide) (by decide)
theorem div : Statement .div := statement_of _ (fun _ => by decide) (by decide)
theorem neg : Statement .neg := statement_of _ (fun _ => by decide) (by decide)
theorem abs : Statement .abs := statement_of _ (fun _ => by decide) (by decide)
theorem floor : Statement .floor := statement_of _ (fun _ => by decide) (by decide)
theorem ceil : Statement .ceil := statement_of _ (fun _ => by decide) (by decide)
theorem mod : Statement .mod := statement_of _ (fun _ => by decide) (by decide)
theorem modulo : Statement .modulo := statement_of _ (fun _ => by decide) (by decide)
theorem cmp : Statement .cmp := statement_of _ (fun _ => by decide) (by decide)
theorem ceq : Statement .ceq := statement_of _ (fun _ => by decide) (by decide)
theorem cne : Statement .cne := statement_of _ (fun _ => by decide) (by decide)
theorem clt : Statement .clt := statement_of _ (fun _ => by decide) (by decide)
theorem cle : Statement .cle := statement_of _ (fun _ => by decide) (by decide)
theorem cgt : Statement .cgt := statement_of _ (fun _ => by decide) (by decide)
theorem cge : Statement .cge := statement_of _ (fun _ => by decide) (by decide)
theorem cun : Statement .cun := statement_of _ (fun _ => by decide) (by decide)
theorem cvti : Statement .cvti := statement_of _ (fun _ => by decide) (by decide)
theorem cvtd : Statement .cvtd := statement_of _ (fun _ => by decide) (by decide)
theorem const (k : Nat) : Statement (.const k) := statement_of _ (fun h => of_decide_eq_true h) (show (_ : Nat) < 256 from by simp [opcodeOf])
theorem limit (k : Nat) : Statement (.limit k) := statement_of _ (fun h => of_decide_eq_true h) (show (_ : Nat) < 256 from by simp [opcodeOf])
theorem sqrt : Statement .sqrt := statement_of _ (fun _ => by decide) (by decide)
theorem exp : Statement .exp := statement_of _ (fun _ => by decide) (by decide)
theorem log : Statement .log := statement_of _ (fun _ => by decide) (by decide)
theorem pow : Statement .pow := statement_of _ (fun _ => by decide) (by decide)
theorem powi : Statement .powi := statement_of _ (fun _ => by decide) (by decide)
theorem sin : Statement .sin := statement_of _ (fun _ => by decide) (by decide)
theorem cos : Statement .cos := statement_of _ (fun _ => by decide) (by decide)
theorem sincos : Statement .sincos := statement_of _ (fun _ => by decide) (by decide)
theorem tan : Statement .tan := statement_of _ (fun _ => by decide) (by decide)
theorem cot : Statement .cot := statement_of _ (fun _ => by decide) (by decide)
theorem sinh : Statement .sinh := statement_of _ (fun _ => by decide) (by decide)
theorem cosh : Statement .cosh := statement_of _ (fun _ => by decide) (by decide)
theorem tanh : Statement .tanh := statement_of _ (fun _ => by decide) (by decide)
theorem asin : Statement .asin := statement_of _ (fun _ => by decide) (by decide)
theorem acos : Statement .acos := statement_of _ (fun _ => by decide) (by decide)
theorem atan : Statement .atan := statement_of _ (fun _ => by decide) (by decide)
theorem atan2 : Statement .atan2 := statement_of _ (fun _ => by decide) (by decide)
theorem parse : Statement .parse := statement_of _ (fun _ => by decide) (by decide)
theorem format : Statement .format := statement_of _ (fun _ => by decide) (by decide)

end Sys2Proof.Laws.WordFields
end

