-- ==== Sys2Proof/Laws/Step.lean ====
section
/-! SUPPORT. What one step can do: which accesses are legal, and for a next state which kind of action led to it. -/

namespace Sys2Proof.Machine

theorem tbufSize_ge : 64 ≤ Config.tbufSize := Nat.le_add_left _ _

theorem tbufSize_le : Config.tbufSize ≤ 4096 := by
  have := Config.block.tbufExtra.isLt
  unfold Config.tbufSize
  omega

/-- The offsets of the window below the text buffer (R201, R205). -/
theorem regionOf_of_lt {off : Offset} (size : Nat) (h : off.toNat < 0x1000) :
    regionOf size off = match regOfSlot (off.toNat / 8) with
      | some r => .reg r (off.toNat % 8)
      | none => .reserved := by
  exact if_pos h

theorem regionOf_reserved_hole {off : Offset} (size : Nat) (h1 : 0x070 ≤ off.toNat) (h2 : off.toNat < 0x1000) :
    regionOf size off = .reserved := by
  have hk : 14 ≤ off.toNat / 8 := by omega
  have : regOfSlot (off.toNat / 8) = none := by
    unfold regOfSlot
    split <;> first | omega | rfl
  rw [regionOf_of_lt size h2, this]

theorem regionOf_reserved_end {off : Offset} {size : Nat} (h : 0x1000 + size ≤ off.toNat) :
    regionOf size off = .reserved := by
  unfold regionOf
  rw [if_neg (by omega), if_neg (by omega)]

theorem regionOf_text {off : Offset} {size : Nat} (h1 : 0x1000 ≤ off.toNat) (h2 : off.toNat < 0x1000 + size) :
    regionOf size off = .text (off.toNat - 0x1000) := by
  unfold regionOf
  rw [if_neg (by omega), if_pos (by omega)]

/-- Every offset below 0x070 lies in a register (R201). -/
theorem regionOf_reg {off : Offset} (size : Nat) (h : off.toNat < 0x070) :
    ∃ r, regOfSlot (off.toNat / 8) = some r ∧ regionOf size off = .reg r (off.toNat % 8) := by
  have hk : off.toNat / 8 < 14 := by omega
  have : ∀ k, k < 14 → ∃ r, regOfSlot k = some r := by
    intro k hk
    interval_cases k <;> exact ⟨_, rfl⟩
  obtain ⟨r, hr⟩ := this _ hk
  exact ⟨r, hr, by rw [regionOf_of_lt size (by omega), hr]⟩

/-- The registers at 0x040 and above are the read-only ones (R201, R206). -/
theorem regWritable_of_slot {k : Nat} {r : RegName} (h : regOfSlot k = some r) (hk : 8 ≤ k) : regWritable r = false := by
  revert h
  unfold regOfSlot
  split <;> first | omega | (intro h; cases h; rfl) | (intro h; cases h)

/-- CMD's offset, whatever the size of the text buffer (R201, R300). -/
theorem targetOf_cmd (size : Nat) : targetOf size 64 cmdOffset = .ok (.reg .cmd) := rfl

/-- What an access that is not a bus fault reaches (R202, R203, R204). -/
theorem targetOf_cases {size width : Nat} {off : Offset} {g : Target} (h : targetOf size width off = .ok g) :
    (∃ r, g = .reg r ∧ width = 64 ∧ regionOf size off = .reg r 0) ∨
      (∃ i, g = .byte i ∧ width = 8 ∧ i < size ∧ off.toNat = 0x1000 + i) ∨
      (∃ i, g = .word i ∧ width = 64 ∧ i % 8 = 0 ∧ i + 8 ≤ size ∧ off.toNat = 0x1000 + i) := by
  have htext : ∀ i, regionOf size off = .text i → i < size ∧ off.toNat = 0x1000 + i := by
    intro i hi
    by_cases h1 : off.toNat < 0x1000
    · rw [regionOf_of_lt size h1] at hi
      split at hi <;> cases hi
    · by_cases h2 : off.toNat < 0x1000 + size
      · rw [regionOf_text (Nat.not_lt.1 h1) h2] at hi
        injection hi
        omega
      · rw [regionOf_reserved_end (Nat.not_lt.1 h2)] at hi
        cases hi
  unfold targetOf at h
  split at h
  · cases h
  · rename_i r sub hr
    split_ifs at h with h1 h2
    cases h
    rw [not_not] at h1 h2
    subst h2
    exact .inl ⟨r, rfl, h1, hr⟩
  · rename_i i hi
    obtain ⟨h3, h4⟩ := htext i hi
    split_ifs at h with h1 h2 h5 h6
    · cases h
      exact .inr (.inl ⟨i, rfl, h1, h3, h4⟩)
    · cases h
      rw [not_not] at h2 h5
      exact .inr (.inr ⟨i, rfl, h2, h5, h6, h4⟩)

/-- What a host read that is answered can do (R204, R214). -/
theorem hostRead_cases {size width : Nat} {off : Offset} {s t : State} (h : hostRead size width off s = .next t) :
    ∃ d, t = { s with readData := some d } := by
  unfold hostRead at h
  split at h
  · cases h
  · cases h; exact ⟨_, rfl⟩
  · split at h
    · cases h
    · cases h; exact ⟨_, rfl⟩
  · split at h
    · cases h
    · cases h; exact ⟨_, rfl⟩

/-- What a host write that is accepted can do: run a command or report ILLEGAL_CMD, store a register, store a byte, or
store eight bytes (R204, R300, R303). -/
theorem hostWrite_cases {size width : Nat} {off : Offset} {v : Word} {s t : State}
    (h : hostWrite size width off v s = .next t) :
    (∃ i, decode v = .ok i ∧ exec i (s.writeReg .cmd v) = .next t) ∨
      (∃ e, decode v = .error e ∧ t = (s.writeReg .cmd v).withST 1) ∨
      (∃ r, r ≠ .cmd ∧ regWritable r = true ∧ t = s.writeReg r v) ∨
      (∃ i, i < size ∧ t = { s with tbuf := writeByte s.tbuf i (v.extractLsb' 0 8) }) ∨
      (∃ i, i + 8 ≤ size ∧ t = { s with tbuf := writeBytes s.tbuf i (wordBytes v) }) := by
  unfold hostWrite at h
  split at h
  · cases h
  · unfold runCommand at h
    split at h
    · rename_i i hi
      exact .inl ⟨i, hi, h⟩
    · rename_i e he
      cases h
      exact .inr (.inl ⟨e, he, rfl⟩)
  · rename_i r hr hg
    split at h
    · rename_i hw
      cases h
      exact .inr (.inr (.inl ⟨r, hr, hw, rfl⟩))
    · cases h
  · rename_i i hg
    rcases targetOf_cases hg with ⟨r, hr, -⟩ | ⟨j, hj, -, h1, -⟩ | ⟨j, hj, -⟩
    · cases hr
    · cases hj; cases h
      exact .inr (.inr (.inr (.inl ⟨i, h1, rfl⟩)))
    · cases hj
  · rename_i i hg
    rcases targetOf_cases hg with ⟨r, hr, -⟩ | ⟨j, hj, -⟩ | ⟨j, hj, -, -, h1, -⟩
    · cases hr
    · cases hj
    · cases hj; cases h
      exact .inr (.inr (.inr (.inr ⟨i, h1, rfl⟩)))

/-- What one step that answers a next state can do: nothing, a read, a write, or a reset (R100, R220, R1100). -/
theorem step_cases {s t : State} (h : step s = .next t) :
    (s.pending = [] ∧ t = s) ∨
      ∃ e rest, s.pending = e :: rest ∧
        ((∃ d, t = { s with pending := rest, readData := some d }) ∨
          (∃ width off v, e = .access (.write width off v) ∧
            hostWrite Config.tbufSize width off v { s with pending := rest } = .next t) ∨
          t = { State.reset with pending := rest }) := by
  unfold step stepWith at h
  split at h
  · rename_i hp
    cases h
    exact .inl ⟨hp, rfl⟩
  · rename_i e rest hp
    refine .inr ⟨e, rest, hp, ?_⟩
    cases e with
    | access a =>
      cases a with
      | read width off => exact .inl (hostRead_cases h)
      | write width off v => exact .inr (.inl ⟨width, off, v, rfl, h⟩)
    | reset => cases h; exact .inr (.inr rfl)
    | resetDuring a => cases h; exact .inr (.inr rfl)

/-- A step whose action is a CMD write of a word runs that word (R300, R303). -/
theorem step_cmdWrite {s : State} {v : Word} {rest : List Event} (h : s.pending = cmdWrite v :: rest) :
    step s = runCommand v { s with pending := rest } := by
  unfold step stepWith
  rw [h]
  rfl

/-- `withFetchWord` puts a command before the very next step (log entry 1). -/
theorem step_withFetchWord (s : State) (nbits w : Nat) :
    step (s.withFetchWord nbits w) = runCommand (BitVec.ofNat 64 (w % 2 ^ nbits)) s :=
  step_cmdWrite (rest := s.pending) rfl

/-- A store of a command leaves the text buffer as it was or writes a text that fits at index 0 (R930). -/
theorem exec_tbuf {i : Instr} {s t : State} (h : exec i s = .next t) :
    t.tbuf = s.tbuf ∨ ∃ text : List Byte, text.length ≤ Config.tbufSize ∧ t.tbuf = writeBytes s.tbuf 0 text := by
  by_cases hp : i = .parse
  · subst hp
    rcases parseCommand_cases Config.tbufSize s with ⟨-, h'⟩ | ⟨-, ⟨k, -, h'⟩ | ⟨t, -, ⟨-, h'⟩ | ⟨q, x, -, h'⟩⟩⟩ <;>
      rw [show exec .parse s = parseCommand Config.tbufSize s from rfl, h'] at h <;> cases h <;> exact .inl rfl
  by_cases hf : i = .format
  · subst hf
    rcases formatCommand_cases Config.tbufSize s with ⟨e, -, h'⟩ | ⟨hl, -, h'⟩ <;>
      rw [show exec .format s = formatCommand Config.tbufSize s from rfl, h'] at h <;> cases h
    · exact .inl rfl
    · exact .inr ⟨_, hl, rfl⟩
  · rcases exec_cases i s hp hf with ⟨q, h', -⟩ | ⟨v, h', -⟩ | ⟨-, v, q, h'⟩ | ⟨-, q, q2, h'⟩ | ⟨-, h'⟩ <;>
      rw [h'] at h <;> cases h <;> exact .inl rfl

end Sys2Proof.Machine
end

