-- ==== Sys2Proof/Laws/Text.lean ====
section
/-! SUPPORT. What the text functions compute: runs of digits, printed digits, the decimal exponent, and that the parser reads
exactly the grammar of R902. -/

namespace Sys2Proof.Machine

theorem digitOf_eq_some_iff (b : Byte) (d : Nat) : digitOf b = some d ↔ DigitByte b ∧ d = b.toNat - 0x30 := by
  unfold digitOf DigitByte
  split
  · rename_i h
    simp [h, eq_comm]
  · rename_i h
    simp [h]

theorem digitOf_eq_none_iff (b : Byte) : digitOf b = none ↔ ¬DigitByte b := by
  unfold digitOf DigitByte
  split <;> rename_i h <;> simp [h]

/-- A run of digits before a byte that is none, or before the end, is taken whole (R902). -/
theorem takeDigits_append {ds rest : List Byte} (h : ∀ b ∈ ds, DigitByte b)
    (hr : ∀ b, rest.head? = some b → ¬DigitByte b) :
    takeDigits (ds ++ rest) = (ds.map (fun b => b.toNat - 0x30), rest) := by
  induction ds with
  | nil =>
    cases rest with
    | nil => rfl
    | cons b rest =>
      have := (digitOf_eq_none_iff b).2 (hr b rfl)
      simp [takeDigits, this]
  | cons b ds ih =>
    have hb := (digitOf_eq_some_iff b _).2 ⟨h b List.mem_cons_self, rfl⟩
    have := ih fun c hc => h c (List.mem_cons_of_mem _ hc)
    simp only [List.cons_append, takeDigits, hb, this, List.map_cons]

/-- A text is its leading run of digits, taken as numbers, before what follows it (R902). -/
theorem takeDigits_spec (t : List Byte) :
    ∃ ds, t = ds ++ (takeDigits t).2 ∧ (∀ b ∈ ds, DigitByte b) ∧
      (takeDigits t).1 = ds.map (fun b => b.toNat - 0x30) ∧
      ∀ b, (takeDigits t).2.head? = some b → ¬DigitByte b := by
  induction t with
  | nil => exact ⟨[], rfl, by simp, rfl, by simp [takeDigits]⟩
  | cons b rest ih =>
    cases hb : digitOf b with
    | none =>
      have he : takeDigits (b :: rest) = ([], b :: rest) := by simp [takeDigits, hb]
      rw [he]
      refine ⟨[], rfl, by simp, rfl, fun c hc => ?_⟩
      cases hc
      exact (digitOf_eq_none_iff b).1 hb
    | some d =>
      obtain ⟨ds, h1, h2, h3, h4⟩ := ih
      obtain ⟨h5, h6⟩ := (digitOf_eq_some_iff b d).1 hb
      have he : takeDigits (b :: rest) = (d :: (takeDigits rest).1, (takeDigits rest).2) := by simp [takeDigits, hb]
      rw [he]
      refine ⟨b :: ds, by rw [List.cons_append, ← h1], ?_, by rw [List.map_cons, ← h3, ← h6], h4⟩
      intro c hc
      rcases List.mem_cons.1 hc with rfl | hc
      · exact h5
      · exact h2 c hc

/-- The two ways of reading digits agree (R904). -/
theorem digitsValue_map (t : List Byte) : digitsValue (t.map (fun b => b.toNat - 0x30)) = digitsNat t := by
  unfold digitsValue digitsNat
  rw [List.foldl_map]

theorem digitsNat_append (s t : List Byte) : digitsNat (s ++ t) = digitsNat s * 10 ^ t.length + digitsNat t := by
  induction t using List.reverseRecOn with
  | nil => simp [digitsNat]
  | append_singleton t b ih =>
    have h : ∀ u : List Byte, digitsNat (u ++ [b]) = 10 * digitsNat u + (b.toNat - 0x30) := by
      intro u
      simp [digitsNat, List.foldl_append]
    rw [← List.append_assoc, h, h, ih, List.length_append, List.length_singleton, pow_succ]
    ring

theorem digitByte_toNat {d : Nat} (h : d < 10) : (digitByte d).toNat = 0x30 + d := by
  unfold digitByte
  rw [BitVec.toNat_ofNat]
  omega

theorem digitByte_digit {d : Nat} (h : d < 10) : DigitByte (digitByte d) := by
  unfold DigitByte
  rw [digitByte_toNat h]
  omega

@[simp] theorem length_fixedDigits (k n : Nat) : (fixedDigits k n).length = k := by
  induction k generalizing n with
  | zero => rfl
  | succ k ih => simp [fixedDigits, ih]

theorem fixedDigits_digit {k n : Nat} {b : Byte} (h : b ∈ fixedDigits k n) : DigitByte b := by
  induction k generalizing n with
  | zero => simp [fixedDigits] at h
  | succ k ih =>
    simp only [fixedDigits, List.mem_append, List.mem_singleton] at h
    rcases h with h | rfl
    · exact ih h
    · exact digitByte_digit (Nat.mod_lt _ (by decide))

/-- The digits printed for n read back as n, when there is room for them (R921). -/
theorem digitsNat_fixedDigits {k n : Nat} (h : n < 10 ^ k) : digitsNat (fixedDigits k n) = n := by
  induction k generalizing n with
  | zero =>
    have : n = 0 := by simpa using h
    rw [this]
    rfl
  | succ k ih =>
    have h1 : n / 10 < 10 ^ k := by
      rw [Nat.div_lt_iff_lt_mul (by decide), ← pow_succ]
      exact h
    rw [fixedDigits, digitsNat_append, ih h1]
    have h2 : n % 10 < 10 := Nat.mod_lt _ (by decide)
    have h3 : digitsNat [digitByte (n % 10)] = n % 10 := by
      simp [digitsNat, digitByte_toNat h2]
    rw [h3, List.length_singleton, pow_one, Nat.mul_comm]
    exact Nat.div_add_mod n 10

theorem fixedDigits_zero (k : Nat) : fixedDigits k 0 = List.replicate k 0x30 := by
  induction k with
  | zero => rfl
  | succ k ih =>
    rw [fixedDigits, Nat.zero_div, ih, List.replicate_succ']
    rfl

/-- The first digit printed for a number of exactly as many digits is not zero (R922). -/
theorem head_fixedDigits {k n : Nat} (h1 : 10 ^ k ≤ n) (h2 : n < 10 ^ (k + 1)) :
    (fixedDigits (k + 1) n).head? = some (digitByte (n / 10 ^ k)) ∧ digitByte (n / 10 ^ k) ≠ 0x30 := by
  have hd : 1 ≤ n / 10 ^ k ∧ n / 10 ^ k < 10 :=
    ⟨(Nat.one_le_div_iff (pow_pos (by decide) k)).2 h1,
      (Nat.div_lt_iff_lt_mul (pow_pos (by decide) k)).2 (by rw [mul_comm, ← pow_succ]; exact h2)⟩
  refine ⟨?_, fun h => ?_⟩
  · clear hd
    induction k generalizing n with
    | zero =>
      have : n % 10 = n := Nat.mod_eq_of_lt (by simpa using h2)
      simp [fixedDigits, this]
    | succ k ih =>
      have h3 : 10 ^ k ≤ n / 10 := by
        rw [Nat.le_div_iff_mul_le (by decide), ← pow_succ]
        exact h1
      have h4 : n / 10 < 10 ^ (k + 1) := by
        rw [Nat.div_lt_iff_lt_mul (by decide), ← pow_succ]
        exact h2
      rw [fixedDigits, List.head?_append, ih h3 h4, Nat.div_div_eq_div_mul, ← pow_succ']
      rfl
  · have := congrArg BitVec.toNat h
    rw [digitByte_toNat hd.2] at this
    have h48 : (0x30 : Byte).toNat = 48 := rfl
    omega

/-- The number of digits of n (R921): the least k ≥ 1 with n < 10^k. -/
theorem decimalLength_spec {fuel n : Nat} (h : n ≤ fuel) :
    1 ≤ decimalLength fuel n ∧ n < 10 ^ decimalLength fuel n ∧ (n ≠ 0 → 10 ^ (decimalLength fuel n - 1) ≤ n) := by
  induction fuel generalizing n with
  | zero =>
    have : n = 0 := by omega
    subst this
    exact ⟨le_rfl, by decide, fun h => absurd rfl h⟩
  | succ fuel ih =>
    unfold decimalLength
    split
    · rename_i h1
      exact ⟨le_rfl, by simpa using h1, fun h2 => Nat.pos_of_ne_zero h2⟩
    · rename_i h1
      obtain ⟨i1, i2, i3⟩ := ih (n := n / 10) (by omega)
      refine ⟨by omega, ?_, fun _ => ?_⟩
      · rw [pow_succ, ← Nat.div_lt_iff_lt_mul (by decide)]
        exact i2
      · have h3 := i3 (by omega)
        have h4 : decimalLength fuel (n / 10) + 1 - 1 = decimalLength fuel (n / 10) - 1 + 1 := by omega
        rw [h4, pow_succ, ← Nat.le_div_iff_mul_le (by decide)]
        exact h3

theorem powTenLe_iff (e : ℤ) {n d : ℕ} (hd : 0 < d) : powTenLe e n d = true ↔ (10 : ℝ) ^ e ≤ (n : ℝ) / d := by
  have h := zpow_le_div_iff 10 (by decide) e (n := n) hd
  unfold powTenLe
  rw [decide_eq_true_eq]
  exact_mod_cast h.symm

/-- The search for the decimal exponent keeps 10^lo ≤ n/d < 10^(lo + 2^k) and ends at the exponent (R922). -/
theorem decExpFrom_spec (k : ℕ) (lo : ℤ) {n d : ℕ} (hd : 0 < d) (h1 : (10 : ℝ) ^ lo ≤ (n : ℝ) / d)
    (h2 : (n : ℝ) / d < 10 ^ (lo + 2 ^ k)) :
    (10 : ℝ) ^ decExpFrom k lo n d ≤ (n : ℝ) / d ∧ (n : ℝ) / d < 10 ^ (decExpFrom k lo n d + 1) := by
  induction k generalizing lo with
  | zero => exact ⟨h1, by simpa [decExpFrom] using h2⟩
  | succ k ih =>
    rw [decExpFrom]
    split
    · rename_i h
      refine ih _ ((powTenLe_iff _ hd).1 h) ?_
      rw [add_assoc, ← two_mul, ← pow_succ']
      exact h2
    · rename_i h
      exact ih _ h1 (not_le.1 fun h' => h ((powTenLe_iff _ hd).2 h'))

/-- The magnitude of a finite nonzero quad, in units, lies in the range the search covers (R403, R922). -/
theorem magnitude_range {q : Quad} (hf : isFinite q = true) (hz : isZero q = false) :
    (10 : ℝ) ^ (-8192 : ℤ) ≤ (magnitude q : ℝ) / unit ∧ (magnitude q : ℝ) / unit < 10 ^ (8192 : ℤ) := by
  have two : (2 : ℝ) ≠ 0 := by norm_num
  have hm : |valReal q| = (magnitude q : ℝ) / unit := by
    unfold valReal
    rw [← Rat.cast_abs, abs_val, Rat.cast_div, Rat.cast_natCast, Rat.cast_natCast]
  have he := (isFinite_iff q).1 hf
  have ten : ∀ a b : ℤ, 0 ≤ b → a = 3 * b → (2 : ℝ) ^ a ≤ 10 ^ b := by
    rintro a b hb rfl
    rw [zpow_mul]
    exact zpow_le_zpow_left₀ hb (by norm_num) (by norm_num)
  have hp : (0 : ℝ) < 2 ^ unitExp q := zpow_pos (by norm_num) _
  rw [← hm, abs_valReal_eq_significand]
  have h1 : (1 : ℝ) ≤ significand q := by exact_mod_cast significand_pos hz
  have h2 : (significand q : ℝ) < 2 ^ 113 := by exact_mod_cast significand_lt q
  constructor
  · have h3 : (10 : ℝ) ^ (-8192 : ℤ) ≤ 2 ^ (-24576 : ℤ) := by
      rw [zpow_neg, zpow_neg]
      exact inv_anti₀ (zpow_pos (by norm_num) _) (ten 24576 8192 (by norm_num) (by norm_num))
    refine h3.trans ((zpow_le_zpow_right₀ (by norm_num) ?_).trans (le_mul_of_one_le_left hp.le h1))
    unfold unitExp
    omega
  · have h3 : (2 : ℝ) ^ (24576 : ℤ) ≤ 10 ^ (8192 : ℤ) := ten 24576 8192 (by norm_num) (by norm_num)
    refine lt_of_lt_of_le ((mul_lt_mul_of_pos_right h2 hp).trans_le ?_) h3
    rw [← zpow_natCast, ← zpow_add₀ two]
    refine zpow_le_zpow_right₀ (by norm_num) ?_
    unfold unitExp
    push_cast
    omega

/-- The decimal exponent of a finite nonzero quad (R922). -/
theorem decExp_spec {q : Quad} (hf : isFinite q = true) (hz : isZero q = false) :
    (10 : ℝ) ^ decExp (magnitude q) unit ≤ (magnitude q : ℝ) / unit ∧
      (magnitude q : ℝ) / unit < 10 ^ (decExp (magnitude q) unit + 1) := by
  obtain ⟨h1, h2⟩ := magnitude_range hf hz
  have h3 : (-8192 : ℤ) + 2 ^ 14 = 8192 := by norm_num
  exact decExpFrom_spec 14 (-8192) unit_pos h1 (h3 ▸ h2)

/-- A sign before a byte that is none is taken whole (R902). -/
theorem takeSign_append {sg rest : List Byte} {neg : Bool} (hs : SignText sg neg)
    (hr : ∀ b, rest.head? = some b → b ≠ 0x2B ∧ b ≠ 0x2D) : takeSign (sg ++ rest) = (neg, rest) := by
  rcases hs with ⟨rfl, rfl⟩ | ⟨rfl, rfl⟩ | ⟨rfl, rfl⟩
  · cases rest with
    | nil => rfl
    | cons b rest =>
      show (if b = 0x2B then (false, rest) else if b = 0x2D then (true, rest) else (false, b :: rest)) = _
      rw [if_neg (hr b rfl).1, if_neg (hr b rfl).2]
  · rfl
  · rfl

/-- A text is its sign before what follows it (R902). -/
theorem takeSign_spec (t : List Byte) : ∃ sg, t = sg ++ (takeSign t).2 ∧ SignText sg (takeSign t).1 := by
  cases t with
  | nil => exact ⟨[], rfl, .inl ⟨rfl, rfl⟩⟩
  | cons b rest =>
    have he : takeSign (b :: rest) =
        if b = 0x2B then (false, rest) else if b = 0x2D then (true, rest) else (false, b :: rest) := rfl
    rw [he]
    by_cases h1 : b = 0x2B
    · rw [if_pos h1]
      exact ⟨[b], rfl, .inr (.inl ⟨by rw [h1], rfl⟩)⟩
    · by_cases h2 : b = 0x2D
      · rw [if_neg h1, if_pos h2]
        exact ⟨[b], rfl, .inr (.inr ⟨by rw [h2], rfl⟩)⟩
      · rw [if_neg h1, if_neg h2]
        exact ⟨[], rfl, .inl ⟨rfl, rfl⟩⟩

theorem DigitByte.ne {b : Byte} (h : DigitByte b) : b ≠ 0x2B ∧ b ≠ 0x2D ∧ b ≠ 0x2E ∧ b ≠ 0x65 ∧ b ≠ 0x45 ∧ b ≠ 0x20 := by
  unfold DigitByte at h
  refine ⟨?_, ?_, ?_, ?_, ?_, ?_⟩ <;> rintro rfl <;> revert h <;> decide

/-- `exponent?` of R902, with its digits and whether its sign is `'-'`. -/
def ExponentText (t x : List Byte) (xneg : Bool) : Prop :=
  (t = [] ∧ x = [] ∧ xneg = false) ∨
    (x ≠ [] ∧ (∀ b ∈ x, DigitByte b) ∧ ∃ e sg, t = e :: (sg ++ x) ∧ (e = 0x65 ∨ e = 0x45) ∧ SignText sg xneg)

/-- The written exponent of R904. -/
def writtenExponent (x : List Byte) (xneg : Bool) : Int :=
  if xneg then -(digitsNat x : Int) else (digitsNat x : Int)

/-- The exponent parser reads exactly the grammar's exponents (R902, R904). -/
theorem parseExponent_eq_some_iff (t : List Byte) (e : Int) :
    parseExponent t = some e ↔ ∃ x xneg, ExponentText t x xneg ∧ e = writtenExponent x xneg := by
  constructor
  · intro h
    cases t with
    | nil =>
      injection h with h
      exact ⟨[], false, .inl ⟨rfl, rfl, rfl⟩, h.symm⟩
    | cons b rest =>
      unfold parseExponent at h
      dsimp only at h
      by_cases hb : b = 0x65 ∨ b = 0x45
      swap
      · rw [if_neg hb] at h
        cases h
      rw [if_pos hb] at h
      obtain ⟨sg, h1, h2⟩ := takeSign_spec rest
      obtain ⟨ds, d1, d2, d3, -⟩ := takeDigits_spec (takeSign rest).2
      split at h
      · cases h
      · rename_i d dl heq
        injection h with h
        rw [heq] at d1 d3
        rw [List.append_nil] at d1
        refine ⟨ds, (takeSign rest).1, .inr ⟨?_, d2, b, sg, by rw [← d1, ← h1], hb, h2⟩, ?_⟩
        · rintro rfl
          simp at d3
        · rw [← h, writtenExponent, ← digitsValue_map, ← d3]
      · cases h
  · rintro ⟨x, xneg, h, rfl⟩
    rcases h with ⟨rfl, rfl, rfl⟩ | ⟨hx, hd, e, sg, rfl, he, hs⟩
    · rfl
    · have hhead : ∀ b, x.head? = some b → b ≠ 0x2B ∧ b ≠ 0x2D := by
        intro b hb
        have := (hd b (List.mem_of_mem_head? hb)).ne
        exact ⟨this.1, this.2.1⟩
      have h1 := takeSign_append hs hhead
      have h2 := takeDigits_append (rest := []) hd (by simp)
      rw [List.append_nil] at h2
      simp only [parseExponent, if_pos he, h1, h2]
      cases x with
      | nil => exact absurd rfl hx
      | cons b bs =>
        simp only [List.map_cons, writtenExponent, ← digitsValue_map]

/-- The decimal parser reads exactly the grammar's decimals (R902, R904). -/
theorem parseDecimal_eq_some_iff (t : List Byte) (d : Decimal) :
    parseDecimal t = some d ↔ ∃ i f x xneg, DecimalText t i f x xneg ∧
      d = ⟨(i ++ f).map (fun b => b.toNat - 0x30), f.length, writtenExponent x xneg⟩ := by
  constructor
  · intro h
    obtain ⟨i, i1, i2, i3, i4⟩ := takeDigits_spec t
    unfold parseDecimal at h
    split at h
    · cases h
    · rename_i d0 dl rest heq
      rw [heq] at i1 i3 i4
      have hi : i ≠ [] := by
        rintro rfl
        simp at i3
      dsimp only at i1 i3 i4
      split at h
      · injection h with h
        refine ⟨i, [], [], false, ⟨hi, i2, by simp, by simp, [], [], by simp [i1], .inl ⟨rfl, rfl⟩, .inl ⟨rfl, rfl, rfl⟩⟩, ?_⟩
        rw [← h, List.append_nil, ← i3]
        rfl
      · rename_i b rest'
        split_ifs at h with hb
        · obtain ⟨f, f1, f2, f3, -⟩ := takeDigits_spec rest'
          split at h
          · rename_i e he
            injection h with h
            obtain ⟨x, xneg, hx, rfl⟩ := (parseExponent_eq_some_iff _ _).1 he
            have hxd : ∀ b ∈ x, DigitByte b := by
              rcases hx with ⟨-, rfl, -⟩ | ⟨-, hd, -⟩
              · simp
              · exact hd
            refine ⟨i, f, x, xneg, ⟨hi, i2, f2, hxd, 0x2E :: f, (takeDigits rest').2, ?_, .inr rfl, ?_⟩, ?_⟩
            · rw [i1, hb, List.append_assoc, List.cons_append, ← f1]
            · rcases hx with ⟨h1, h2, h3⟩ | ⟨h1, -, h2⟩
              · exact .inl ⟨h1, h2, h3⟩
              · exact .inr ⟨h1, h2⟩
            · rw [← h, List.map_append, ← i3, ← f3]
              simp [f3]
          · cases h
        · split at h
          · rename_i e he
            injection h with h
            obtain ⟨x, xneg, hx, rfl⟩ := (parseExponent_eq_some_iff _ _).1 he
            have hxd : ∀ b ∈ x, DigitByte b := by
              rcases hx with ⟨-, rfl, -⟩ | ⟨-, hd, -⟩
              · simp
              · exact hd
            refine ⟨i, [], x, xneg, ⟨hi, i2, by simp, hxd, [], b :: rest', by simp [i1], .inl ⟨rfl, rfl⟩, ?_⟩, ?_⟩
            · rcases hx with ⟨h1, h2, h3⟩ | ⟨h1, -, h2⟩
              · exact .inl ⟨h1, h2, h3⟩
              · exact .inr ⟨h1, h2⟩
            · rw [← h, List.append_nil, ← i3]
              rfl
          · cases h
  · rintro ⟨i, f, x, xneg, ⟨hi, i2, f2, x2, point, mark, rfl, hp, hm⟩, rfl⟩
    have hexp : ExponentText mark x xneg := by
      rcases hm with hm | ⟨h1, h2⟩
      · exact .inl hm
      · exact .inr ⟨h1, x2, h2⟩
    have hpe := (parseExponent_eq_some_iff mark (writtenExponent x xneg)).2 ⟨x, xneg, hexp, rfl⟩
    have hmh : ∀ b, mark.head? = some b → ¬DigitByte b ∧ b ≠ 0x2E := by
      intro b hb
      rcases hm with ⟨rfl, -⟩ | ⟨-, e, sg, rfl, he, -⟩
      · cases hb
      · cases hb
        refine ⟨fun hd => ?_, ?_⟩
        · rcases he with rfl | rfl
          · exact hd.ne.2.2.2.1 rfl
          · exact hd.ne.2.2.2.2.1 rfl
        · rcases he with rfl | rfl <;> decide
    obtain ⟨i0, is, rfl⟩ := List.exists_cons_of_ne_nil hi
    rcases hp with ⟨rfl, rfl⟩ | rfl
    · have h1 := takeDigits_append i2 (rest := mark) (fun b hb => (hmh b hb).1)
      rw [List.append_nil, parseDecimal, h1]
      cases mark with
      | nil =>
        rcases hm with ⟨-, rfl, rfl⟩ | ⟨-, e, sg, h, -⟩
        · simp [writtenExponent, digitsNat]
        · cases h
      | cons b rest =>
        show (if b = 0x2E then _ else _) = _
        rw [if_neg (hmh b rfl).2, hpe]
        simp
    · have h1 := takeDigits_append i2 (rest := 0x2E :: (f ++ mark)) (by
        intro b hb hd
        cases hb
        exact hd.ne.2.2.1 rfl)
      have h2 := takeDigits_append f2 (rest := mark) (fun b hb => (hmh b hb).1)
      rw [show i0 :: is ++ 0x2E :: f ++ mark = i0 :: is ++ 0x2E :: (f ++ mark) by simp, parseDecimal, h1]
      show (if (0x2E : Byte) = 0x2E then _ else _) = _
      rw [if_pos rfl, h2]
      dsimp only
      rw [hpe]
      simp

/-- Blanks around a text without blanks at its ends are removed (R901). -/
theorem stripBlanks_append {lead mid trail : List Byte} (hl : ∀ b ∈ lead, b = 0x20) (ht : ∀ b ∈ trail, b = 0x20)
    (hh : ∀ b, mid.head? = some b → b ≠ 0x20) (hg : ∀ b, mid.getLast? = some b → b ≠ 0x20) :
    stripBlanks (lead ++ mid ++ trail) = mid := by
  have drop : ∀ (u v : List Byte), (∀ b ∈ u, b = 0x20) → (∀ b, v.head? = some b → b ≠ 0x20) →
      (u ++ v).dropWhile (fun b => b == 0x20) = v := by
    intro u v hu hv
    rw [List.dropWhile_append_of_pos (by simpa using hu)]
    cases v with
    | nil => rfl
    | cons b v => rw [List.dropWhile_cons_of_neg (by simpa using hv b rfl)]
  unfold stripBlanks
  cases mid with
  | nil =>
    rw [List.append_nil, show lead ++ trail = (lead ++ trail) ++ [] by simp,
      drop (lead ++ trail) [] (by
        intro b hb
        rcases List.mem_append.1 hb with h | h
        · exact hl b h
        · exact ht b h) (by simp)]
    rfl
  | cons m mid =>
    rw [List.append_assoc, drop lead _ hl (by simpa using hh), List.reverse_append,
      drop trail.reverse _ (by simpa using ht) (by rw [List.head?_reverse]; exact hg), List.reverse_reverse]

/-- A text is what is left without its blanks, between blanks (R901). -/
theorem stripBlanks_spec (t : List Byte) :
    ∃ lead trail, t = lead ++ stripBlanks t ++ trail ∧ (∀ b ∈ lead, b = 0x20) ∧ (∀ b ∈ trail, b = 0x20) := by
  have take : ∀ u : List Byte, ∀ b ∈ u.takeWhile (fun b => b == 0x20), b = 0x20 := by
    intro u b hb
    simpa using List.mem_takeWhile_imp hb
  refine ⟨t.takeWhile (fun b => b == 0x20),
    ((t.dropWhile (fun b => b == 0x20)).reverse.takeWhile (fun b => b == 0x20)).reverse, ?_, take t, ?_⟩
  · unfold stripBlanks
    rw [List.append_assoc, ← List.reverse_append, List.takeWhile_append_dropWhile, List.reverse_reverse,
      List.takeWhile_append_dropWhile]
  · intro b hb
    exact take _ b (List.mem_reverse.1 hb)

/-- A quotient of naturals as its integer part and a fraction below 1. -/
theorem div_eq_floor_add {num den : ℕ} (hd : 0 < den) :
    (num : ℚ) / den = (num / den : ℕ) + ((num % den : ℕ) : ℚ) / den ∧ (0 : ℚ) ≤ ((num % den : ℕ) : ℚ) / den ∧
      ((num % den : ℕ) : ℚ) / den < 1 ∧ ((0 : ℚ) < ((num % den : ℕ) : ℚ) / den ↔ num % den ≠ 0) := by
  have hq : (0 : ℚ) < den := Nat.cast_pos.2 hd
  have hsplit : (num : ℚ) = den * (num / den : ℕ) + (num % den : ℕ) := by
    exact_mod_cast (Nat.div_add_mod num den).symm
  refine ⟨?_, div_nonneg (Nat.cast_nonneg _) hq.le, ?_, ?_⟩
  · rw [div_eq_iff hq.ne', add_mul, div_mul_cancel₀ _ hq.ne', mul_comm]
    exact hsplit
  · rw [div_lt_one hq]
    exact_mod_cast Nat.mod_lt num hd
  · rw [div_pos_iff_of_pos_right hq, Nat.cast_pos, Nat.pos_iff_ne_zero]

/-- When `roundsUp` says so, for a fraction t = rem/den below 1 (R922). -/
theorem roundsUp_eq_true_iff (rm : ℕ) (neg : Bool) (fl : ℕ) {num den : ℕ} (hd : 0 < den) :
    roundsUp rm neg fl (num % den) den = true ↔
      (rm = 0 ∧ ((1 : ℚ) / 2 < ((num % den : ℕ) : ℚ) / den ∨ ((1 : ℚ) / 2 = ((num % den : ℕ) : ℚ) / den ∧ fl % 2 = 1))) ∨
        (rm = 2 ∧ neg = false ∧ (0 : ℚ) < ((num % den : ℕ) : ℚ) / den) ∨
        (rm = 3 ∧ neg = true ∧ (0 : ℚ) < ((num % den : ℕ) : ℚ) / den) := by
  have hq : (0 : ℚ) < den := Nat.cast_pos.2 hd
  have h1 : (1 : ℚ) / 2 < ((num % den : ℕ) : ℚ) / den ↔ 2 * (num % den) > den := by
    rw [lt_div_iff₀ hq, one_div, inv_mul_lt_iff₀ two_pos]
    norm_cast
  have h2 : (1 : ℚ) / 2 = ((num % den : ℕ) : ℚ) / den ↔ 2 * (num % den) = den := by
    rw [eq_div_iff hq.ne', one_div, inv_mul_eq_iff_eq_mul₀ two_ne_zero, eq_comm]
    norm_cast
  rw [h1, h2, (div_eq_floor_add hd).2.2.2]
  generalize num % den = r
  unfold roundsUp
  simp only [Bool.and_eq_true, Bool.or_eq_true, decide_eq_true_eq, beq_iff_eq, Bool.not_eq_true']
  constructor
  · rintro ⟨h0, (⟨h3, h4⟩ | ⟨h3, h4⟩) | ⟨h3, h4⟩⟩
    · exact .inl ⟨h3, h4⟩
    · exact .inr (.inl ⟨h3, h4, h0⟩)
    · exact .inr (.inr ⟨h3, h4, h0⟩)
  · rintro (⟨h3, h4⟩ | ⟨h3, h4, h0⟩ | ⟨h3, h4, h0⟩)
    · exact ⟨by omega, .inl (.inl ⟨h3, h4⟩)⟩
    · exact ⟨h0, .inl (.inr ⟨h3, h4⟩)⟩
    · exact ⟨h0, .inr ⟨h3, h4⟩⟩

/-- The value rounded, at the scale that gives p + 1 significant digits (R922). -/
theorem scaled_by_ten (n d p : ℕ) (e : ℤ) :
    (n : ℚ) / d * (10 : ℚ) ^ ((p : ℤ) - e) =
      ((n * 10 ^ (-(e - p)).toNat : ℕ) : ℚ) / ((d * 10 ^ (e - p).toNat : ℕ) : ℚ) := by
  rw [Nat.cast_mul, Nat.cast_mul, Nat.cast_pow, Nat.cast_pow, Nat.cast_ofNat, show (p : ℤ) - e = -(e - p) by ring,
    mul_div_mul_comm]
  congr 1
  rcases le_total 0 (e - p) with h | h
  · have h1 : (((e - p).toNat : ℕ) : ℤ) = e - p := Int.toNat_of_nonneg h
    have h2 : (-(e - p)).toNat = 0 := by omega
    rw [h2, ← zpow_natCast (10 : ℚ) (e - p).toNat, h1, pow_zero, zpow_neg, one_div]
  · have h1 : (((-(e - p)).toNat : ℕ) : ℤ) = -(e - p) := Int.toNat_of_nonneg (by omega)
    have h2 : (e - p).toNat = 0 := by omega
    rw [h2, ← zpow_natCast (10 : ℚ) (-(e - p)).toNat, h1, pow_zero, div_one]

/-- A byte in lower case is a given letter when it is the letter or its capital. -/
theorem toLower_eq_iff (b : Byte) {l : Byte} (h1 : 0x61 ≤ l.toNat) (h2 : l.toNat ≤ 0x7A) :
    toLower b = l ↔ b = l ∨ b = l - 0x20 := by
  unfold toLower
  split <;> bv_omega

/-- A text in lower case is a word when it spells the word. -/
theorem map_toLower_eq_iff {word : List Byte} (h : ∀ l ∈ word, 0x61 ≤ l.toNat ∧ l.toNat ≤ 0x7A) (t : List Byte) :
    t.map toLower = word ↔ Spells word t := by
  unfold Spells
  induction word generalizing t with
  | nil => simp
  | cons l word ih =>
    have hl := h l List.mem_cons_self
    cases t with
    | nil => simp
    | cons b t =>
      rw [List.map_cons, List.cons.injEq, toLower_eq_iff b hl.1 hl.2, List.forall₂_cons,
        ih (fun l hm => h l (List.mem_cons_of_mem _ hm)) t]

/-- The parser's tokens are those of R902. -/
theorem isInfToken_iff (t : List Byte) : isInfToken t = true ↔ InfText t := by
  unfold isInfToken InfText
  rw [Bool.or_eq_true, beq_iff_eq, beq_iff_eq, map_toLower_eq_iff (by decide), map_toLower_eq_iff (by decide)]

theorem isNanToken_iff (t : List Byte) : isNanToken t = true ↔ NanText t := by
  unfold isNanToken NanText
  rw [beq_iff_eq, map_toLower_eq_iff (by decide)]

end Sys2Proof.Machine
end

