-- ==== Sys2Proof/Tests/Slice0.lean ====
section
/-! SUPPORT. Tests: ill-formed terms refused, command words decoded, one step of each command against the vectors of
spec/95_test_vectors.md, and for every statement with hypotheses a state and operands that meet them. -/

namespace Sys2Proof.Tests

open Sys2Proof.Machine

/-! ## Helpers -/

/-- The reset state with A, B and N written. -/
def start (a b : Quad) (n : Word) : State :=
  { State.reset with
    aLo := Reg.of (a.extractLsb' 0 64)
    aHi := Reg.of (a.extractLsb' 64 64)
    bLo := Reg.of (b.extractLsb' 0 64)
    bHi := Reg.of (b.extractLsb' 64 64)
    n := Reg.of n }

/-- The reset state with a text at TBUF[0] on and TLEN its length. -/
def holding (text : List Byte) : State :=
  { State.reset with tbuf := writeBytes [] 0 text, tlen := BitVec.ofNat 64 text.length }

/-- The state whose next action is a CMD write of a word. -/
def cmd (w : Nat) (s : State) : State := s.withFetchWord 64 w

/-- The reset state whose next action is an access. -/
def next (a : Access) : State := { State.reset with pending := [.access a] }

/-- R and ST after a step. -/
def outR (s : State) : Option (Quad × Word) :=
  match step s with
  | .next t => some (t.r, t.st)
  | .fault _ | .refused _ => none

/-- RI and ST after a step. -/
def outRI (s : State) : Option (Word × Word) :=
  match step s with
  | .next t => some (t.ri.val, t.st)
  | .fault _ | .refused _ => none

/-- The fault a step ends in. -/
def outFault (s : State) : Option Fault :=
  match step s with
  | .fault f => some f
  | .next _ | .refused _ => none

/-- TLEN, ST and the bytes below TLEN after a step. -/
def outText (s : State) : Option (Nat × Word × Option (List Byte)) :=
  match step s with
  | .next t => some (t.tlen.toNat, t.st, (readBytes t.tbuf 0 t.tlen.toNat).toOption)
  | .fault _ | .refused _ => none

/-! ## Well-formedness: the selector must fit its field (R301) -/

theorem test_wellFormed_refuses_const : ¬(Instr.const 256).WellFormed := by decide

theorem test_wellFormed_refuses_limit : ¬(Instr.limit 256).WellFormed := by decide

theorem test_wellFormed_accepts : (Instr.const 255).WellFormed ∧ (Instr.limit 255).WellFormed ∧ Instr.add.WellFormed := by decide

/-! ## Decoding: words written out from the opcode map of R304, bits 63:16 zero, K in bits 15:8, OP in bits 7:0 -/

theorem test_decode_classification :
    decode 0b00000000_00000001 = .ok .classify ∧
      decode 0b00000000_00000010 = .ok .sign ∧
      decode 0b00000000_00000011 = .ok .decomp ∧
      decode 0b00000000_00000100 = .ok .compose ∧
      decode 0b00000000_00000101 = .ok .isnan ∧
      decode 0b00000000_00000110 = .ok .isinf ∧
      decode 0b00000000_00000111 = .ok .isfin := by decide

theorem test_decode_arithmetic :
    decode 0b00000000_00010000 = .ok .add ∧
      decode 0b00000000_00010001 = .ok .sub ∧
      decode 0b00000000_00010010 = .ok .mul ∧
      decode 0b00000000_00010011 = .ok .div ∧
      decode 0b00000000_00010100 = .ok .neg ∧
      decode 0b00000000_00010101 = .ok .abs ∧
      decode 0b00000000_00010110 = .ok .floor ∧
      decode 0b00000000_00010111 = .ok .ceil ∧
      decode 0b00000000_00011000 = .ok .mod ∧
      decode 0b00000000_00011001 = .ok .modulo := by decide

theorem test_decode_comparison :
    decode 0b00000000_00100000 = .ok .cmp ∧
      decode 0b00000000_00100001 = .ok .ceq ∧
      decode 0b00000000_00100010 = .ok .cne ∧
      decode 0b00000000_00100011 = .ok .clt ∧
      decode 0b00000000_00100100 = .ok .cle ∧
      decode 0b00000000_00100101 = .ok .cgt ∧
      decode 0b00000000_00100110 = .ok .cge ∧
      decode 0b00000000_00100111 = .ok .cun := by decide

theorem test_decode_conversion :
    decode 0b00000000_00110000 = .ok .cvti ∧
      decode 0b00000000_00110001 = .ok .cvtd ∧
      decode 0b00001100_00110010 = .ok (.const 12) ∧
      decode 0b00001001_00110011 = .ok (.limit 9) := by decide

theorem test_decode_power :
    decode 0b00000000_01000000 = .ok .sqrt ∧
      decode 0b00000000_01000001 = .ok .exp ∧
      decode 0b00000000_01000010 = .ok .log ∧
      decode 0b00000000_01000011 = .ok .pow ∧
      decode 0b00000000_01000100 = .ok .powi := by decide

theorem test_decode_trigonometric :
    decode 0b00000000_01000101 = .ok .sin ∧
      decode 0b00000000_01000110 = .ok .cos ∧
      decode 0b00000000_01000111 = .ok .sincos ∧
      decode 0b00000000_01001000 = .ok .tan ∧
      decode 0b00000000_01001001 = .ok .cot := by decide

theorem test_decode_hyperbolic_and_inverse :
    decode 0b00000000_01001010 = .ok .sinh ∧
      decode 0b00000000_01001011 = .ok .cosh ∧
      decode 0b00000000_01001100 = .ok .tanh ∧
      decode 0b00000000_01001101 = .ok .asin ∧
      decode 0b00000000_01001110 = .ok .acos ∧
      decode 0b00000000_01001111 = .ok .atan ∧
      decode 0b00000000_01010000 = .ok .atan2 := by decide

theorem test_decode_text :
    decode 0b00000000_01100000 = .ok .parse ∧
      decode 0b00000000_01100001 = .ok .format := by decide

/-- Bits above the opcode's field, an unassigned opcode, and a selector where none belongs (R303, R305). -/
theorem test_decode_rejects :
    decode 0 = .error .unassignedOpcode ∧ decode 0x08 = .error .unassignedOpcode ∧ decode 0xFF = .error .unassignedOpcode ∧
      decode 0x110 = .error .unusedSelector ∧ decode 0x0001000000000010 = .error .reservedBits ∧
      decode 0x10032 = .error .reservedBits := by decide

/-- The table's rows are whole words (R306). -/
theorem test_decodeTableWord : decodeTableWord 64 0x0C32 = some (.const 12) ∧ decodeTableWord 16 0x20 = some .cmp := by decide

/-! ## One step of each command (spec/95_test_vectors.md) -/

theorem test_classify_quiet : outRI (cmd 0x1 (start 0xFFFF8000000000000000000000000001 0 0)) = some (4, 0) := by decide

theorem test_classify_signaling : outRI (cmd 0x1 (start 0x7FFF7FFFFFFFFFFFFFFFFFFFFFFFFFFF 0 0)) = some (5, 0) := by decide

theorem test_sign_negative_zero : outRI (cmd 0x2 (start 0x80000000000000000000000000000000 0 0)) = some (1, 0) := by decide

theorem test_decomp_exponent : outRI (cmd 0x3 (start 0xFFFF8000000000000000000000000001 0 0)) = some (0xFFFF, 0) := by decide

theorem test_decomp_fraction : outR (cmd 0x3 (start 0xFFFF8000000000000000000000000001 0 0)) = some (0x00008000000000000000000000000001, 0) := by decide

theorem test_compose_signaling_nan : outR (cmd 0x4 (start 1 0 0x7FFF)) = some (0x7FFF0000000000000000000000000001, 0) := by decide

theorem test_compose_bad_operand : outR (cmd 0x4 (start 0 0 0x10000)) = some (0, 2) := by decide

theorem test_isnan_signaling : outRI (cmd 0x5 (start 0x7FFF0000000000000000000000000001 0 0)) = some (1, 0) := by decide

theorem test_isinf_negative : outRI (cmd 0x6 (start 0xFFFF0000000000000000000000000000 0 0)) = some (1, 0) := by decide

theorem test_isfin_subnormal : outRI (cmd 0x7 (start 1 0 0)) = some (1, 0) := by decide

theorem test_add_tie_to_even : outR (cmd 0x10 (start 0x3FFF0000000000000000000000000001 0x3F8E0000000000000000000000000000 0)) = some (0x3FFF0000000000000000000000000002, 0) := by decide +kernel

theorem test_add_signed_zeros : outR (cmd 0x10 (start 0x80000000000000000000000000000000 0 0)) = some (0, 0) := by decide

theorem test_sub_epsilon : outR (cmd 0x11 (start 0x3FFF0000000000000000000000000001 0x3FFF0000000000000000000000000000 0)) = some (0x3F8F0000000000000000000000000000, 0) := by decide +kernel

theorem test_sub_infinities : outR (cmd 0x11 (start 0x7FFF0000000000000000000000000000 0xFFFF0000000000000000000000000000 0)) = some (0x7FFF0000000000000000000000000000, 0) := by decide

theorem test_mul_subnormal_tie : outR (cmd 0x12 (start 1 0x3FFF8000000000000000000000000000 0)) = some (2, 0) := by decide +kernel

theorem test_mul_overflow : outR (cmd 0x12 (start 0x7FFEFFFFFFFFFFFFFFFFFFFFFFFFFFFF 0x40000000000000000000000000000000 0)) = some (0x7FFF0000000000000000000000000000, 0) := by decide +kernel

theorem test_div_third : outR (cmd 0x13 (start 0x3FFF0000000000000000000000000000 0x40008000000000000000000000000000 0)) = some (0x3FFD5555555555555555555555555555, 0) := by decide +kernel

theorem test_div_by_negative_zero : outR (cmd 0x13 (start 0x3FFF0000000000000000000000000000 0x80000000000000000000000000000000 0)) = some (0xFFFF0000000000000000000000000000, 0) := by decide

theorem test_neg_nan : outR (cmd 0x14 (start 0x7FFF8000000000000000000000000001 0 0)) = some (0xFFFF8000000000000000000000000001, 0) := by decide

theorem test_abs_nan : outR (cmd 0x15 (start 0xFFFF8000000000000000000000000001 0 0)) = some (0x7FFF8000000000000000000000000001, 0) := by decide

theorem test_floor_negative : outR (cmd 0x16 (start 0xC0004000000000000000000000000000 0 0)) = some (0xC0008000000000000000000000000000, 0) := by decide +kernel

theorem test_floor_subnormal : outR (cmd 0x16 (start 0x80000000000000000000000000000001 0 0)) = some (0xBFFF0000000000000000000000000000, 0) := by decide +kernel

theorem test_ceil_negative_half : outR (cmd 0x17 (start 0xBFFE0000000000000000000000000000 0 0)) = some (0x80000000000000000000000000000000, 0) := by decide +kernel

theorem test_ceil_subnormal : outR (cmd 0x17 (start 1 0 0)) = some (0x3FFF0000000000000000000000000000, 0) := by decide +kernel

theorem test_mod_fixture : outR (cmd 0x18 (start 0xC0014000000000000000000000000000 0x40008000000000000000000000000000 0)) = some (0xC0000000000000000000000000000000, 0) := by decide +kernel

theorem test_mod_exact_negative : outR (cmd 0x18 (start 0xC0018000000000000000000000000000 0x40008000000000000000000000000000 0)) = some (0x80000000000000000000000000000000, 0) := by decide +kernel

theorem test_modulo_fixture : outR (cmd 0x19 (start 0xC0014000000000000000000000000000 0x40008000000000000000000000000000 0)) = some (0x3FFF0000000000000000000000000000, 0) := by decide +kernel

theorem test_modulo_rounds_to_divisor : outR (cmd 0x19 (start 0xBF370000000000000000000000000000 0x40008000000000000000000000000000 0)) = some (0x40008000000000000000000000000000, 0) := by decide +kernel

theorem test_cmp_less : outRI (cmd 0x20 (start 0xFFFF0000000000000000000000000000 1 0)) = some (0xFFFFFFFFFFFFFFFF, 0) := by decide +kernel

theorem test_cmp_unordered : outRI (cmd 0x20 (start 0x7FFF8000000000000000000000000000 0x7FFF8000000000000000000000000000 0)) = some (2, 0) := by decide

theorem test_ceq_signed_zeros : outRI (cmd 0x21 (start 0 0x80000000000000000000000000000000 0)) = some (1, 0) := by decide

theorem test_cne_nan : outRI (cmd 0x22 (start 0x7FFF8000000000000000000000000000 0x3FFF0000000000000000000000000000 0)) = some (0, 0) := by decide

theorem test_cne_differ : outRI (cmd 0x22 (start 0x3FFF0000000000000000000000000000 0x40000000000000000000000000000000 0)) = some (1, 0) := by decide +kernel

theorem test_clt_max_inf : outRI (cmd 0x23 (start 0x7FFEFFFFFFFFFFFFFFFFFFFFFFFFFFFF 0x7FFF0000000000000000000000000000 0)) = some (1, 0) := by decide +kernel

theorem test_cle_equal : outRI (cmd 0x24 (start 0x7FFF0000000000000000000000000000 0x7FFF0000000000000000000000000000 0)) = some (1, 0) := by decide +kernel

theorem test_cgt_denorm : outRI (cmd 0x25 (start 1 0 0)) = some (1, 0) := by decide

theorem test_cge_less : outRI (cmd 0x26 (start 0x3FFF0000000000000000000000000000 0x40000000000000000000000000000000 0)) = some (0, 0) := by decide +kernel

theorem test_cun_signaling : outRI (cmd 0x27 (start 0x3FFF0000000000000000000000000000 0x7FFF0000000000000000000000000001 0)) = some (1, 0) := by decide

theorem test_cvti_max : outR (cmd 0x30 (start 0 0 0x7FFFFFFFFFFFFFFF)) = some (0x403DFFFFFFFFFFFFFFFC000000000000, 0) := by decide +kernel

theorem test_cvti_min : outR (cmd 0x30 (start 0 0 0x8000000000000000)) = some (0xC03E0000000000000000000000000000, 0) := by decide +kernel

theorem test_cvtd_tenth : outR (cmd 0x31 (start 0 0 0x3FB999999999999A)) = some (0x3FFB999999999999A000000000000000, 0) := by decide +kernel

theorem test_cvtd_subnormal : outR (cmd 0x31 (start 0 0 1)) = some (0x3BCD0000000000000000000000000000, 0) := by decide +kernel

theorem test_const_pi : outR (cmd 0x532 (start 0 0 0)) = some (0x4000921FB54442D18469898CC51701B8, 0) := by decide

theorem test_const_bad_operand : outR (cmd 0xd32 (start 0 0 0)) = some (0, 2) := by decide

theorem test_limit_epsilon : outR (cmd 0x233 (start 0 0 0)) = some (0x3F8F0000000000000000000000000000, 0) := by decide

theorem test_limit_min_exponent : outRI (cmd 0x633 (start 0 0 0)) = some (0xFFFFFFFFFFFFC003, 0) := by decide

theorem test_sqrt_two : outR (cmd 0x40 (start 0x40000000000000000000000000000000 0 0)) = some (0x3FFF6A09E667F3BCC908B2FB1366EA95, 0) := by decide

theorem test_sqrt_denorm : outR (cmd 0x40 (start 1 0 0)) = some (0x1FC80000000000000000000000000000, 0) := by decide

theorem test_exp_negative_infinity : outR (cmd 0x41 (start 0xFFFF0000000000000000000000000000 0 0)) = some (0, 0) := by decide

theorem test_log_one : outR (cmd 0x42 (start 0x3FFF0000000000000000000000000000 0 0)) = some (0, 0) := by decide

theorem test_pow_negative_zero_odd : outR (cmd 0x43 (start 0x80000000000000000000000000000000 0xBFFF0000000000000000000000000000 0)) = some (0xFFFF0000000000000000000000000000, 0) := by decide +kernel

theorem test_pow_negative_infinity : outR (cmd 0x43 (start 0xFFFF0000000000000000000000000000 0xC0008000000000000000000000000000 0)) = some (0x80000000000000000000000000000000, 0) := by decide +kernel

theorem test_powi_tenth_cubed : outR (cmd 0x44 (start 0x40024000000000000000000000000000 0 0xFFFFFFFFFFFFFFFD)) = some (0x3FF50624DD2F1A9FBE76C8B439581062, 0) := by decide +kernel

theorem test_powi_overflowed_inverse : outR (cmd 0x44 (start 0x40000000000000000000000000000000 0 0xFFFFFFFFFFFFBFF0)) = some (0, 0) := by decide +kernel

theorem test_sin_negative_zero : outR (cmd 0x45 (start 0x80000000000000000000000000000000 0 0)) = some (0x80000000000000000000000000000000, 0) := by decide

theorem test_cos_zero : outR (cmd 0x46 (start 0x80000000000000000000000000000000 0 0)) = some (0x3FFF0000000000000000000000000000, 0) := by decide

theorem test_sincos_sine : outR (cmd 0x47 (start 0 0 0)) = some (0, 0) := by decide

theorem test_sincos_cosine : (match step (cmd 0x47 (start 0 0 0)) with | .next t => t.r2 | .fault _ | .refused _ => 0) = 0x3FFF0000000000000000000000000000 := by
  decide

theorem test_tan_negative_zero : outR (cmd 0x48 (start 0x80000000000000000000000000000000 0 0)) = some (0x80000000000000000000000000000000, 0) := by decide

theorem test_cot_negative_zero : outR (cmd 0x49 (start 0x80000000000000000000000000000000 0 0)) = some (0xFFFF0000000000000000000000000000, 0) := by decide

theorem test_sinh_negative_infinity : outR (cmd 0x4a (start 0xFFFF0000000000000000000000000000 0 0)) = some (0xFFFF0000000000000000000000000000, 0) := by decide

theorem test_cosh_negative_infinity : outR (cmd 0x4b (start 0xFFFF0000000000000000000000000000 0 0)) = some (0x7FFF0000000000000000000000000000, 0) := by decide

theorem test_tanh_negative_infinity : outR (cmd 0x4c (start 0xFFFF0000000000000000000000000000 0 0)) = some (0xBFFF0000000000000000000000000000, 0) := by decide

theorem test_asin_negative_zero : outR (cmd 0x4d (start 0x80000000000000000000000000000000 0 0)) = some (0x80000000000000000000000000000000, 0) := by decide +kernel

theorem test_acos_one : outR (cmd 0x4e (start 0x3FFF0000000000000000000000000000 0 0)) = some (0, 0) := by decide +kernel

theorem test_atan_negative_infinity : outR (cmd 0x4f (start 0xFFFF0000000000000000000000000000 0 0)) = some (0xBFFF921FB54442D18469898CC51701B8, 0) := by decide

theorem test_atan2_negative_x : outR (cmd 0x50 (start 0x80000000000000000000000000000000 0x80000000000000000000000000000000 0)) = some (0xC000921FB54442D18469898CC51701B8, 0) := by decide

theorem test_atan2_infinities : outR (cmd 0x50 (start 0xFFFF0000000000000000000000000000 0x7FFF0000000000000000000000000000 0)) = some (0xBFFE921FB54442D18469898CC51701B8, 0) := by decide

/-- `4E-4966` is just above half the smallest subnormal. -/
theorem test_parse_subnormal : outR (cmd 0x60 (holding [0x34, 0x45, 0x2D, 0x34, 0x39, 0x36, 0x36])) = some (1, 0x100) := by decide +kernel

/-- `1e` has an exponent mark without digits. -/
theorem test_parse_error : outR (cmd 0x60 (holding [0x31, 0x65])) = some (0, 3) := by decide

/-- 125 at one digit after the point is a tie: `1.2E+2`. -/
theorem test_format_tie :
    outText (cmd 0x61 { start 0x4005F400000000000000000000000000 0 0 with fopt := 0x0101 }) =
      some (6, 0x100, some [0x31, 0x2E, 0x32, 0x45, 0x2B, 0x32]) := by decide +kernel

/-- BAD_OPTION comes before PRECISION_ERROR. -/
theorem test_format_error_order : outText (cmd 0x61 { start 0x3FFF0000000000000000000000000000 0 0 with fopt := 0x1024 }) = some (0, 5, some []) := by
  decide

/-- ∞ + (−∞) is the command's draw of NAN_PATTERN (R425, R500). -/
theorem test_add_opposite_infinities (nan : Quad) :
    addQuad nan 0x7FFF0000000000000000000000000000 0xFFFF0000000000000000000000000000 = nan := by
  rw [addQuad, if_neg (by decide), if_pos (by decide), if_neg (by decide)]

/-- 0 × ∞ is the command's draw of NAN_PATTERN (R425, R502). -/
theorem test_mul_zero_infinity (nan : Quad) : mulQuad nan 0 0xFFFF0000000000000000000000000000 = nan := by
  unfold mulQuad
  dsimp only
  rw [if_neg (by decide), if_pos (by decide), if_pos (by decide)]

/-- A power of a NaN is a NaN even for exponent 0 (R814). -/
theorem test_powi_nan (nan : Quad) : powiQuad nan 0x7FFF8000000000000000000000000000 0 = nan := by
  rw [powiQuad, if_pos (by decide)]

/-- An illegal word reads nothing and writes CMD and ST (R303). -/
theorem test_illegal_command : step (cmd 0x110 State.reset) = .next { State.reset with cmd := 0x110, st := 1 } := by rfl

/-! ## Host accesses (spec/20_memory.md) -/

theorem test_read_st : (match step (next (.read 64 0x068)) with | .next t => t.readData | .fault _ | .refused _ => none) = some (.word 0) := by
  decide

theorem test_write_a_hi : (match step (next (.write 64 0x008 5)) with | .next t => t.aHi | .fault _ | .refused _ => Reg.of 0) = Reg.of 5 := by
  decide

theorem test_byte_write : (match step (next (.write 8 0x103F 0x1FF)) with | .next t => t.tbuf | .fault _ | .refused _ => []) = [(63, 0xFF)] := by
  decide

theorem test_write_read_only : outFault (next (.write 64 0x068 1)) = some (.busReadOnly 0x068) := by decide

theorem test_narrow_register_access : outFault (next (.read 32 0x000)) = some (.busWidth 0x000 32) := by decide

theorem test_read_unwritten_byte : outFault (next (.read 8 0x1000)) = some (.busUnwritten 0x1000) := by decide

theorem test_reset_during_command :
    step { start 1 1 1 with pending := [.resetDuring (.write 64 0x038 0x10), .reset] } =
      .next { State.reset with pending := [.reset] } := by rfl

/-! ## Witnesses: for each statement with hypotheses, a state and operands that meet them, clause by clause. The
step that follows from them is the statement's own conclusion. -/

abbrev one : Quad := 0x3FFF0000000000000000000000000000
abbrev minusOne : Quad := 0xBFFF0000000000000000000000000000
abbrev two : Quad := 0x40000000000000000000000000000000
abbrev half : Quad := 0x3FFE0000000000000000000000000000
abbrev minusHalf : Quad := 0xBFFE0000000000000000000000000000
abbrev posInf : Quad := 0x7FFF0000000000000000000000000000
abbrev negInf : Quad := 0xFFFF0000000000000000000000000000
abbrev negZero : Quad := 0x80000000000000000000000000000000
abbrev denorm : Quad := 1
abbrev quiet : Quad := 0x7FFF8000000000000000000000000000
abbrev signaling : Quad := 0x7FFF0000000000000000000000000001

theorem val_one : val one = 1 := by
  have h1 : quadExp one = 16383 := by decide
  have h2 : quadFrac one = 0 := by decide
  have h3 : quadSign one = false := by decide
  unfold val
  rw [h1, h2, h3]
  norm_num

theorem val_minusOne : val minusOne = -1 := by
  have h1 : quadExp minusOne = 16383 := by decide
  have h2 : quadFrac minusOne = 0 := by decide
  have h3 : quadSign minusOne = true := by decide
  unfold val
  rw [h1, h2, h3]
  norm_num

theorem val_two : val two = 2 := by
  have h1 : quadExp two = 16384 := by decide
  have h2 : quadFrac two = 0 := by decide
  have h3 : quadSign two = false := by decide
  unfold val
  rw [h1, h2, h3]
  norm_num

theorem val_half : val half = 1 / 2 := by
  have h1 : quadExp half = 16382 := by decide
  have h2 : quadFrac half = 0 := by decide
  have h3 : quadSign half = false := by decide
  unfold val
  rw [h1, h2, h3]
  norm_num

theorem val_minusHalf : val minusHalf = -(1 / 2) := by
  have h1 : quadExp minusHalf = 16382 := by decide
  have h2 : quadFrac minusHalf = 0 := by decide
  have h3 : quadSign minusHalf = true := by decide
  unfold val
  rw [h1, h2, h3]
  norm_num

theorem val_zero : val 0 = 0 := val_of_isZero (by decide)

/-- Every command but PARSE completes from reset, and PARSE from a state that holds a text. -/
theorem witness_commandCompletes :
    (∃ t, exec .sqrt State.reset = .next t) ∧ (∃ t, exec .format State.reset = .next t) ∧
      ∃ t, exec .parse (holding [0x31]) = .next t := by
  refine ⟨⟨_, rfl⟩, ⟨_, rfl⟩, ?_⟩
  rcases (parseCommand_cases Config.tbufSize (holding [0x31])) with ⟨-, h⟩ | ⟨-, ⟨k, hk, -⟩ | ⟨t, -, ⟨-, h⟩ | ⟨q, x, -, h⟩⟩⟩
  · exact ⟨_, h⟩
  · cases hk
  · exact ⟨_, h⟩
  · exact ⟨_, h⟩

theorem witness_DecodeInvertsEncode : (Instr.limit 255).WellFormed ∧ Instr.format.WellFormed := by decide

theorem witness_EncodeInvertsDecode : decode 0xFF33 = .ok (.limit 255) ∧ decode 0x01 = .ok .classify := by decide

theorem witness_ValidityOfCommandWords :
    (cmd 0x110 State.reset).pending = cmdWrite 0x110 :: [] ∧ ¬ValidWord 0x110 ∧ ¬ValidWord 0 ∧ ¬ValidWord 0x10032 := by
  unfold ValidWord
  decide

theorem witness_StepRunsDecodedCommand :
    (cmd 0x0C32 State.reset).pending = cmdWrite 0x0C32 :: [] ∧ decode 0x0C32 = .ok (.const 12) := by decide

theorem witness_ResetStateAndEvents :
    { State.reset with pending := [.reset] }.pending = .reset :: [] ∧
      { State.reset with pending := [.resetDuring (.write 64 cmdOffset 0x10)] }.pending =
        .resetDuring (.write 64 cmdOffset 0x10) :: [] := by decide

theorem witness_IdleStepChangesNothing : State.reset.pending = [] := by decide

theorem witness_RegisterReadsReturnTheRegister :
    ((0x000, .aLo) : Offset × RegName) ∈ registerMap ∧ (next (.read 64 0x000)).pending = .access (.read 64 0x000) :: [] ∧
      ((0x068, .st) : Offset × RegName) ∈ registerMap ∧ (next (.read 64 0x068)).pending = .access (.read 64 0x068) :: [] := by
  decide

theorem witness_RegisterWritesStoreTheValue :
    ((0x030, .tlen) : Offset × RegName) ∈ registerMap ∧ (0x030 : Offset).toNat < 0x038 ∧
      (next (.write 64 0x030 7)).pending = .access (.write 64 0x030 7) :: [] := by decide

/-- Each clause at the ends of its range, in a block of 68 bytes: the hole, past the end, a narrow and a misaligned
register access, a 32-bit and a misaligned text access, one that straddles the end, a read-only register, and an
unwritten byte. -/
theorem witness_IllegalAccessesFault :
    64 ≤ 68 ∧ 68 ≤ 4096 ∧ (∀ a, (next a).pending = .access a :: []) ∧
      (0x070 ≤ (Access.read 64 0x070).off.toNat ∧ (Access.read 8 0xFFF).off.toNat < 0x1000) ∧
      0x1000 + 68 ≤ (Access.read 8 0x1044).off.toNat ∧
      ((Access.read 8 0x06F).off.toNat < 0x070 ∧ (Access.read 8 0x06F).width ≠ 64) ∧
      ((Access.read 64 0x069).off.toNat < 0x070 ∧ (Access.read 64 0x069).off.toNat % 8 ≠ 0) ∧
      (0x1000 ≤ (Access.read 32 0x1000).off.toNat ∧ (Access.read 32 0x1043).off.toNat < 0x1000 + 68) ∧
      (0x1000 ≤ (Access.read 64 0x1001).off.toNat ∧ (Access.read 64 0x1001).off.toNat % 8 ≠ 0) ∧
      ((Access.read 64 0x1040).off.toNat < 0x1000 + 68 ∧ 0x1000 + 68 < (Access.read 64 0x1040).off.toNat + 8 ∧
        (Access.read 64 0x1040).off.toNat % 8 = 0) ∧
      ((0x040 ≤ (Access.write 64 0x040 1).off.toNat ∧ (Access.write 64 0x068 1).off.toNat < 0x070)) ∧
      (Access.read 8 0x1043 = .read 8 (BitVec.ofNat 13 (0x1000 + 67)) ∧ readByte (next (.read 8 0x1043)).tbuf 67 = none) ∧
      (56 % 8 = 0 ∧ 56 + 8 ≤ 68 ∧ 7 < 8 ∧ Access.read 64 0x1038 = .read 64 (BitVec.ofNat 13 (0x1000 + 56)) ∧
        readByte (next (.read 64 0x1038)).tbuf (56 + 7) = none) := by
  refine ⟨by decide, by decide, fun _ => rfl, ?_⟩
  decide

/-- The first and the last index every block has, and the first and last aligned word of the smallest. -/
theorem witness_TextBufferAccesses :
    0 < Config.tbufSize ∧ 63 < Config.tbufSize ∧ 0 % 8 = 0 ∧ 56 % 8 = 0 ∧ 56 + 8 ≤ Config.tbufSize ∧
      readByte (writeBytes [] 56 (wordBytes 0x0102030405060708)) 63 = some 0x01 ∧
      (∀ j, j < 8 → readByte (writeBytes [] 56 (wordBytes 0x0102030405060708)) (56 + j) =
        some ((0x0102030405060708 : Word).extractLsb' (8 * j) 8)) := by
  have h := tbufSize_ge
  refine ⟨by omega, by omega, by decide, by decide, by omega, by decide, ?_⟩
  intro j hj
  interval_cases j <;> decide

theorem witness_StepKeepsInvariant : Inv State.reset ∧ ∃ t, step State.reset = .next t :=
  ⟨⟨rfl, by simp [State.reset], rfl⟩, ⟨_, rfl⟩⟩

theorem witness_CommandsNeverWriteOperands : ∃ t, exec .sqrt State.reset = .next t := ⟨_, rfl⟩

theorem witness_FailedCommandChangesOnlyStatus :
    (∃ t, exec (.const 13) State.reset = .next t ∧ statusCode t.st ≠ 0) ∧
      (cmd 0x00 State.reset).pending = cmdWrite 0x00 :: [] ∧ ¬ValidWord 0x00 := by
  unfold ValidWord
  exact ⟨⟨_, rfl, by decide⟩, by decide⟩

theorem witness_EveryCommandWritesTheWholeStatus :
    (∃ t, exec .format State.reset = .next t) ∧
      (cmd 0x62 State.reset).pending = cmdWrite 0x62 :: [] ∧ ¬ValidWord 0x62 := by
  unfold ValidWord
  exact ⟨⟨_, rfl⟩, by decide⟩

theorem witness_ResultRegisterWriters :
    (∃ t, exec .add State.reset = .next t) ∧ (∃ t, exec (.limit 3) State.reset = .next t) ∧
      (∃ t, exec (.limit 10) State.reset = .next t) ∧
      (Instr.limit 3) ∉ [Instr.classify, .sign, .decomp, .isnan, .isinf, .isfin, .cmp, .ceq, .cne, .clt, .cle, .cgt,
        .cge, .cun, .format] := ⟨⟨_, rfl⟩, ⟨_, rfl⟩, ⟨_, rfl⟩, by decide⟩

theorem witness_CommandsStopOnlyAtUnwrittenText :
    exec .parse (State.reset.withTLEN 1) = .fault (.operandUnwritten 0) := by
  rw [show exec .parse (State.reset.withTLEN 1) = parseCommand Config.tbufSize (State.reset.withTLEN 1) from rfl]
  unfold parseCommand
  have h := tbufSize_ge
  rw [State.withTLEN_tlen, if_neg (show ¬Config.tbufSize < (1 : Word).toNat from fun h' => by
    have : (1 : Word).toNat = 1 := by decide
    omega)]
  rfl

theorem witness_CommandsDependOnlyOnTheirOperands :
    (∀ r ∈ operandRegs .sqrt, (start one two 0).readReg r = (start one half 5).readReg r) ∧
      (∀ r ∈ operandRegs .parse, (holding [0x31]).readReg r = { holding [0x31, 0x32] with tlen := 1 }.readReg r) ∧
      ∀ k, k < (holding [0x31]).tlen.toNat →
        readByte (holding [0x31]).tbuf k = readByte { holding [0x31, 0x32] with tlen := 1 }.tbuf k := by
  refine ⟨by decide, by decide, fun k hk => ?_⟩
  have : k = 0 := by
    have h : (holding [0x31]).tlen.toNat = 1 := by decide
    omega
  subst this
  decide

theorem witness_CommandFrame :
    (∃ t, exec .cmp State.reset = .next t) ∧ RegName.rLo ∉ resultRegs .cmp ∧ (∃ t, exec .format State.reset = .next t) ∧
      RegName.ri ∉ resultRegs .parse ∧ (formatText State.reset.a State.reset.fopt).1.length ≤ 44 := by
  refine ⟨⟨_, rfl⟩, by decide, ⟨_, rfl⟩, by decide, by decide⟩

/-- The second clause's hypotheses at the top of a binade, where 2^114 − 1 carries into the next. -/
theorem witness_RoundPackFollowsTheRealRule :
    0 < 1 ∧ (2 : ℝ) ^ (113 : ℤ) ≤ 2 ^ 114 - 1 ∧ (2 : ℝ) ^ 114 - 1 < 2 ^ ((113 : ℤ) + 1) ∧ (0 : ℝ) ≤ 0 := by
  norm_num

theorem witness_RoundPackIsExactOnQuads :
    isFinite 0x7FFEFFFFFFFFFFFFFFFFFFFFFFFFFFFF = true ∧ isFinite denorm = true ∧ isFinite negZero = true := by decide

theorem witness_RoundPackThresholdsAndMonotony : (0 : ℝ) ≤ 0 ∧ (0 : ℝ) ≤ 1 := ⟨le_refl _, zero_le_one⟩

theorem threshold_pos : (0 : ℝ) < (2 : ℝ) ^ (16384 : ℤ) - 2 ^ (16270 : ℤ) :=
  sub_pos.2 (zpow_lt_zpow_right₀ (by norm_num) (by norm_num))

/-- Half the smallest subnormal lies as near to 0, which it rounds to, as to the smallest subnormal. -/
theorem witness_RoundPackIsNearest :
    (0 : ℝ) ≤ 2 ^ (-16495 : ℤ) ∧ (2 : ℝ) ^ (-16495 : ℤ) < (2 : ℝ) ^ (16384 : ℤ) - 2 ^ (16270 : ℤ) ∧
      isFinite denorm = true ∧
      |(|valReal (roundPackReal false (2 ^ (-16495 : ℤ)))| - 2 ^ (-16495 : ℤ))| =
        |(|valReal denorm| - 2 ^ (-16495 : ℤ))| ∧
      |valReal denorm| ≠ |valReal (roundPackReal false (2 ^ (-16495 : ℤ)))| := by
  have hp : (0 : ℝ) < 2 ^ (-16495 : ℤ) := zpow_pos (by norm_num) _
  have hlt : (2 : ℝ) ^ (-16495 : ℤ) < (2 : ℝ) ^ (16384 : ℤ) - 2 ^ (16270 : ℤ) := by
    have h1 : (2 : ℝ) ^ (16384 : ℤ) = 2 * 2 ^ (16383 : ℤ) := by
      rw [show (16384 : ℤ) = 1 + 16383 by rfl, zpow_add₀ (by norm_num), zpow_one]
    have h2 : (2 : ℝ) ^ (16270 : ℤ) ≤ 2 ^ (16383 : ℤ) := zpow_le_zpow_right₀ (by norm_num) (by norm_num)
    have h3 : (2 : ℝ) ^ (-16495 : ℤ) < 2 ^ (16383 : ℤ) := zpow_lt_zpow_right₀ (by norm_num) (by norm_num)
    rw [h1]
    generalize (2 : ℝ) ^ (16383 : ℤ) = c at h2 h3
    generalize (2 : ℝ) ^ (16270 : ℤ) = d at h2
    generalize (2 : ℝ) ^ (-16495 : ℤ) = e at h3
    linarith
  have hd : |valReal denorm| = 2 * 2 ^ (-16495 : ℤ) := by
    have h1 : significand denorm = 1 := by decide
    have h2 : unitExp denorm = 1 + -16495 := by decide
    rw [abs_valReal_eq_significand, h1, h2, zpow_add₀ (by norm_num), zpow_one, Nat.cast_one, one_mul]
  have hlog : Int.log 2 ((2 : ℝ) ^ (-16495 : ℤ)) = -16495 := by
    have := log_mul_zpow (m := 1) 0 (-16495) (by norm_num) (by norm_num)
    rwa [Nat.cast_one, one_mul, Nat.cast_zero, zero_add] at this
  have hz : |valReal (roundPackReal false (2 ^ (-16495 : ℤ)))| = 0 := by
    rw [(roundPackReal_value false hp hlt).2, hlog]
    have hq : quantumExp (-16495) = 1 + -16495 := by decide
    have hh : (2 : ℝ) ^ (-16495 : ℤ) / 2 ^ quantumExp (-16495) = (1 : ℕ) / (2 : ℕ) := by
      rw [hq, zpow_add₀ (by norm_num), zpow_one]
      generalize (2 : ℝ) ^ (-16495 : ℤ) = c at hp
      field_simp
      norm_num
    rw [hh, rneReal_div (by norm_num), show rneDiv 1 2 = 0 by decide, Nat.cast_zero, zero_mul]
  refine ⟨hp.le, hlt, by decide, ?_, ?_⟩
  · rw [hz, hd]
    generalize (2 : ℝ) ^ (-16495 : ℤ) = c at hp
    rw [zero_sub, abs_neg]
    congr 1
    ring
  · rw [hz, hd]
    exact (mul_pos two_pos hp).ne'

theorem witness_NormalizerIsExact :
    isFinite denorm = true ∧ isZero denorm = false ∧ isFinite one = true ∧ isZero one = false := by decide

/-- Each class at an end of its range. -/
theorem witness_ClassifyReportsTheClass :
    (expOf negZero = 0 ∧ fracOf negZero = 0) ∧ (expOf denorm = 0 ∧ fracOf denorm ≠ 0) ∧
      (1 ≤ expOf 0x00010000000000000000000000000000 ∧ expOf 0x7FFEFFFFFFFFFFFFFFFFFFFFFFFFFFFF ≤ 32766) ∧
      (expOf negInf = 32767 ∧ fracOf negInf = 0) ∧ (expOf quiet = 32767 ∧ 2 ^ 111 ≤ fracOf quiet) ∧
      (expOf 0x7FFF7FFFFFFFFFFFFFFFFFFFFFFFFFFF = 32767 ∧ fracOf 0x7FFF7FFFFFFFFFFFFFFFFFFFFFFFFFFF ≠ 0 ∧
        fracOf 0x7FFF7FFFFFFFFFFFFFFFFFFFFFFFFFFF < 2 ^ 111) := by decide

theorem witness_ComposeBuildsTheQuad :
    ((start 0x0000FFFFFFFFFFFFFFFFFFFFFFFFFFFF 0 0xFFFF).n.val.toNat < 2 ^ 16 ∧
        (start 0x0000FFFFFFFFFFFFFFFFFFFFFFFFFFFF 0 0xFFFF).a.toNat < 2 ^ 112) ∧
      2 ^ 16 ≤ (start 0 0 0x10000).n.val.toNat ∧ 2 ^ 112 ≤ (start 0x00010000000000000000000000000000 0 0).a.toNat ∧
      ∃ t, exec .decomp (start one 0 0) = .next t ∧ (start t.r 0 t.ri.val).n.val = t.ri.val ∧ (start t.r 0 t.ri.val).a = t.r :=
  ⟨by decide, by decide, by decide, _, rfl, by decide, by decide⟩

theorem witness_AddIsTheRoundedSum :
    (isNaN quiet = true ∧ isNaN signaling = true) ∧ (isInf posInf = true ∧ isInf negInf = true) ∧ isFinite one = true ∧
      (isFinite minusOne = true ∧ val one + val one ≠ 0 ∧ val one + val minusOne = 0) ∧ val 0 + val 0 = 0 := by
  refine ⟨by decide, by decide, by decide, ⟨by decide, ?_, ?_⟩, ?_⟩
  · rw [val_one]; norm_num
  · rw [val_one, val_minusOne]; norm_num
  · rw [val_zero, add_zero]

theorem witness_SubIsTheRoundedDifference :
    isFinite (start one half 0).a = true ∧ isFinite (start one half 0).b = true ∧
      val (start one half 0).a - val (start one half 0).b ≠ 0 := by
  have ha : (start one half 0).a = one := by decide
  have hb : (start one half 0).b = half := by decide
  rw [ha, hb, val_one, val_half]
  exact ⟨by decide, by decide, by norm_num⟩

theorem witness_MulIsTheRoundedProduct :
    isNaN quiet = true ∧ (isNaN negInf = false ∧ isNaN 0 = false ∧ isInf negInf = true) ∧
      (isFinite one = true ∧ isFinite denorm = true) := by decide

theorem witness_DivIsTheRoundedQuotient :
    isNaN quiet = true ∧ (isInf posInf = true ∧ isInf negInf = true) ∧ isFinite one = true ∧ isZero negZero = true ∧
      isZero one = false := by decide

/-- A value in (0, 1), one in (−1, 0), a zero, an infinity and an integer. -/
theorem witness_FloorAndCeilAreExactIntegers :
    isNaN quiet = true ∧ (isZero negZero = true ∧ isInf posInf = true) ∧
      (isFinite half = true ∧ isZero half = false ∧ ⌊val half⌋ = 0) ∧
      (isFinite minusHalf = true ∧ isZero minusHalf = false ∧ ⌈val minusHalf⌉ = 0) ∧
      (isFinite one = true ∧ isZero one = false ∧ ⌊val one⌋ ≠ 0 ∧ ⌈val one⌉ ≠ 0) := by
  rw [val_half, val_minusHalf, val_one]
  refine ⟨by decide, by decide, ⟨by decide, by decide, by norm_num⟩, ⟨by decide, by decide, ?_⟩,
    by decide, by decide, by norm_num, by norm_num⟩
  rw [Int.ceil_eq_iff]
  norm_num

theorem witness_ModIsTheTruncatingRemainder :
    isNaN signaling = true ∧ isInf negInf = true ∧ isZero negZero = true ∧ isFinite minusOne = true ∧ isZero minusOne = false := by
  decide

theorem witness_ModuloIsTheFlooredRemainder :
    isNaN signaling = true ∧ isInf negInf = true ∧ isZero negZero = true ∧ isFinite minusOne = true ∧ isZero minusOne = false ∧
      quadSign minusOne ≠ quadSign posInf := by decide

theorem witness_ArithmeticLaws :
    ((start two one 0).a = (start one two 0).b ∧ (start two one 0).b = (start one two 0).a ∧
      isNaN (start posInf negInf 0).a = false ∧ isNaN (start posInf negInf 0).b = false) ∧
    isNaN (start quiet one 0).a = true ∧
    (isNaN (start negZero 0 0).a = false ∧ (start negZero 0 0).b = 0) ∧
    (isNaN (start negInf one 0).a = false ∧ (start negInf one 0).b = 0x3FFF0000000000000000000000000000) ∧
    ((start posInf posInf 0).a = signedInf false ∧ (start posInf posInf 0).b = signedInf false) ∧
    (isFinite (start negZero negInf 0).a = true ∧ isInf (start negZero negInf 0).b = true) ∧
    ((start one two 0).a = (start one two 5).a ∧ (start one two 0).b = (start one two 5).b) := by decide

theorem witness_ComparisonsOrderTheExtendedReals :
    isNaN quiet = true ∧ (isNaN posInf = false ∧ isNaN negInf = false) ∧ extReal negInf < extReal posInf ∧
      extReal posInf = extReal posInf := by
  refine ⟨by decide, by decide, ?_, rfl⟩
  have h1 : extReal negInf = ⊥ := by
    unfold extReal
    rw [if_pos (by decide), if_pos (by decide)]
  have h2 : extReal posInf = ⊤ := by
    unfold extReal
    rw [if_pos (by decide), if_neg (by decide)]
  rw [h1, h2]
  exact bot_lt_top

/-- Binary64 patterns of +∞, a NaN, −0, the smallest and the largest subnormal, and the least and greatest normal. -/
theorem witness_ConversionsAreExact :
    (start 0 0 0).n.val = 0 ∧
      ((0x7FF0000000000000 : Word).toNat / 2 ^ 52 % 2 ^ 11 = 0x7FF ∧ (0x7FF0000000000000 : Word).toNat % 2 ^ 52 = 0) ∧
      ((0x7FF0000000000001 : Word).toNat / 2 ^ 52 % 2 ^ 11 = 0x7FF ∧ (0x7FF0000000000001 : Word).toNat % 2 ^ 52 ≠ 0) ∧
      ((0x8000000000000000 : Word).toNat / 2 ^ 52 % 2 ^ 11 = 0 ∧ (0x8000000000000000 : Word).toNat % 2 ^ 52 = 0) ∧
      ((0x000FFFFFFFFFFFFF : Word).toNat / 2 ^ 52 % 2 ^ 11 = 0 ∧ (0x000FFFFFFFFFFFFF : Word).toNat % 2 ^ 52 ≠ 0) ∧
      ((0x7FEFFFFFFFFFFFFF : Word).toNat / 2 ^ 52 % 2 ^ 11 ≠ 0 ∧ (0x7FEFFFFFFFFFFFFF : Word).toNat / 2 ^ 52 % 2 ^ 11 ≠ 0x7FF) := by
  decide

theorem witness_ConstantsAreTheTable : 0 < 256 ∧ 255 < 256 ∧ 12 < 13 ∧ 12 < 255 := by decide

theorem witness_LimitsAreTheTable : 0 < 256 ∧ 255 < 256 ∧ 9 < 10 ∧ 9 < 255 := by decide

theorem witness_SqrtIsCorrectlyRounded :
    isNaN quiet = true ∧ isZero negZero = true ∧ (isNaN negInf = false ∧ isZero negInf = false ∧ quadSign negInf = true) ∧
      posInf = signedInf false ∧ (isFinite denorm = true ∧ isZero denorm = false ∧ quadSign denorm = false) := by decide

theorem witness_PowiIsTheSquaringLoop :
    isNaN (start quiet 0 0).a = true ∧ (isNaN (start two 0 0).a = false ∧ 0 ≤ (start two 0 0).n.val.toInt) ∧
      (start two 0 0x8000000000000000).n.val.toInt < 0 ∧ (start two 0 0).n.val = 0 ∧ (start two 0 1).n.val = 1 := by decide

/-- 20000 and 12000 as quads, from the layout: 20000 = 2^14·(1 + 3616/2^14), 12000 = 2^13·(1 + 3808/2^13). -/
theorem val_namedInputs : val 0x400D3880000000000000000000000000 = 20000 ∧ val 0xC00C7700000000000000000000000000 = -12000 := by
  have h : ∀ (q : Quad) (e t : Nat), quadExp q = e → quadFrac q = t → e ≠ 0 →
      val q = (-1) ^ (quadSign q).toNat * ((2 ^ 112 + (t : ℚ)) * 2 ^ ((e : ℤ) - 16383 - 112)) := by
    rintro q e t rfl rfl he
    unfold val
    rw [if_neg he]
  rw [h _ 16397 (3616 * 2 ^ 98) (by decide) (by decide) (by decide), h _ 16396 (3808 * 2 ^ 99) (by decide) (by decide) (by decide),
    show quadSign 0x400D3880000000000000000000000000 = false by decide,
    show quadSign 0xC00C7700000000000000000000000000 = true by decide]
  norm_num

/-- The least real that rounds to an infinity under any bound of 1/2 or more, and the next power of two. -/
theorem overflow_witness : (1 / 2 : ℚ) ≤ 1 / 2 ∧ Acc (1 / 2) (2 ^ 16385) (signedInf false) ∧
    valReal 0x7FFEFFFFFFFFFFFFFFFFFFFFFFFFFFFF + ((1 / 2 : ℚ) : ℝ) * ulp (2 ^ 16385) < 2 ^ 16385 := by
  have hp : (0 : ℝ) < 2 ^ 16385 := by positivity
  refine ⟨le_refl _, .inl (nearestQuad_of_overflow (n := 16385) (by norm_num) (le_refl _)).1.symm, ?_⟩
  have hu : ulp (2 ^ 16385) * 2 ^ 112 = 2 ^ 16385 := by
    unfold ulp
    rw [if_neg hp.ne', abs_of_pos hp, ← zpow_natCast (2 : ℝ) 16385,
      show Int.log 2 ((2 : ℝ) ^ ((16385 : ℕ) : ℤ)) = 16385 by exact_mod_cast Int.log_zpow (R := ℝ) (b := 2) (by norm_num) 16385,
      ← zpow_natCast (2 : ℝ) 112, ← zpow_add₀ (by norm_num)]
    rfl
  have hv : valReal 0x7FFEFFFFFFFFFFFFFFFFFFFFFFFFFFFF ≤ 2 ^ 16384 := by
    have h1 := abs_valReal_eq_significand 0x7FFEFFFFFFFFFFFFFFFFFFFFFFFFFFFF
    have h2 := significand_lt 0x7FFEFFFFFFFFFFFFFFFFFFFFFFFFFFFF
    have h3 : unitExp 0x7FFEFFFFFFFFFFFFFFFFFFFFFFFFFFFF = 16271 := by decide
    rw [h3] at h1
    refine (le_abs_self _).trans (h1.le.trans ?_)
    have h4 : (significand 0x7FFEFFFFFFFFFFFFFFFFFFFFFFFFFFFF : ℝ) ≤ 2 ^ (113 : ℤ) := by exact_mod_cast h2.le
    refine (mul_le_mul_of_nonneg_right h4 (by positivity)).trans (le_of_eq ?_)
    rw [← zpow_natCast (2 : ℝ) 16384, ← zpow_add₀ (by norm_num)]
    rfl
  have h2 : (2 : ℝ) ^ 16385 = 2 * 2 ^ 16384 := pow_succ' 2 16384
  rw [h2] at hu hp ⊢
  generalize ulp (2 * 2 ^ 16384) = w at *
  generalize (2 : ℝ) ^ 16384 = p at *
  generalize valReal 0x7FFEFFFFFFFFFFFFFFFFFFFFFFFFFFFF = v at *
  clear h2
  rw [show (((1 / 2 : ℚ)) : ℝ) = 1 / 2 by norm_num]
  norm_num at hu hp
  linarith

theorem witness_ExpAndLogFollowTheirRules :
    (isNaN quiet = true ∧ posInf = signedInf false ∧ negInf = signedInf true ∧ isZero negZero = true ∧
      (isFinite denorm = true ∧ isZero denorm = false ∧ quadSign denorm = false ∧ denorm ≠ signedOne false) ∧
      one = signedOne false ∧ (isNaN minusOne = false ∧ isZero minusOne = false ∧ quadSign minusOne = true)) ∧
    (isFinite 0x400D3880000000000000000000000000 = true ∧ val 0x400D3880000000000000000000000000 = 20000) ∧
    ((1 / 2 : ℚ) ≤ 1 / 2 ∧ Acc (1 / 2) (2 ^ 16385) (signedInf false) ∧
      valReal 0x7FFEFFFFFFFFFFFFFFFFFFFFFFFFFFFF + ((1 / 2 : ℚ) : ℝ) * ulp (2 ^ 16385) < 2 ^ 16385) ∧
    ((2 : ℚ) ≤ 2 ∧ Acc 2 (Real.exp (-20000)) (nearestQuad (Real.exp (-20000)))) :=
  ⟨by decide, ⟨by decide, val_namedInputs.1⟩, overflow_witness, le_refl _, .inl rfl⟩

/-- For each branch of R813's chain an operand pair that reaches it. -/
theorem witness_PowFollowsItsRule :
    isNaN quiet = true ∧ isZero negZero = true ∧ one = signedOne false ∧
      (BelowZero minusOne ∧ OddInt minusOne) ∧ (BelowZero minusHalf ∧ ¬OddInt minusHalf) ∧
      (¬BelowZero one ∧ OddInt one) ∧ (¬BelowZero half ∧ ¬OddInt half) ∧ BelowZero negInf ∧ ¬BelowZero posInf ∧
      (minusOne = signedOne true ∧ isInf posInf = true) ∧ (isFinite half = true ∧ |val half| < 1) ∧
      (isFinite two = true ∧ 1 < |val two|) ∧ (val minusOne < 0 ∧ ¬IntValued half) ∧ (0 < val two ∧ IntValued two) := by
  have hodd : ∀ q : Quad, ∀ n : ℤ, isFinite q = true → val q = n → n % 2 = 1 → OddInt q := by
    intro q n hf hv hn
    refine ⟨hf, n / 2, ?_⟩
    rw [hv]
    have : n = 2 * (n / 2) + 1 := by omega
    exact_mod_cast this
  have hfrac : ∀ q : Quad, (∃ z : ℤ, val q * 2 = 2 * z + 1) → ¬IntValued q := by
    rintro q ⟨z, hz⟩ ⟨-, k, hk⟩
    rw [hk] at hz
    have : k * 2 = 2 * z + 1 := by exact_mod_cast hz
    omega
  have hno : ∀ q : Quad, ¬IntValued q → ¬OddInt q := fun q h ⟨hf, k, hk⟩ => h ⟨hf, 2 * k + 1, by rw [hk]; push_cast; rfl⟩
  have nb : ∀ q : Quad, q ≠ signedInf true → (isFinite q = true → 0 ≤ val q) → ¬BelowZero q := by
    rintro q h1 h2 (h | ⟨hf, h⟩)
    · exact h1 h
    · exact absurd (h2 hf) (not_le.2 h)
  refine ⟨by decide, by decide, by decide, ⟨.inr ⟨by decide, ?_⟩, hodd _ (-1) (by decide) ?_ (by decide)⟩,
    ⟨.inr ⟨by decide, ?_⟩, hno _ (hfrac _ ⟨-1, ?_⟩)⟩, ⟨nb _ (by decide) fun _ => ?_, hodd _ 1 (by decide) ?_ (by decide)⟩,
    ⟨nb _ (by decide) fun _ => ?_, hno _ (hfrac _ ⟨0, ?_⟩)⟩, .inl (by decide), nb _ (by decide) fun h => ?_,
    ⟨by decide, by decide⟩, ⟨by decide, ?_⟩, ⟨by decide, ?_⟩, ⟨?_, hfrac _ ⟨0, ?_⟩⟩, ⟨?_, by decide, 2, ?_⟩⟩
  · rw [val_minusOne]; norm_num
  · rw [val_minusOne]; norm_num
  · rw [val_minusHalf]; norm_num
  · rw [val_minusHalf]; norm_num
  · rw [val_one]; norm_num
  · rw [val_one]; norm_num
  · rw [val_half]; norm_num
  · rw [val_half]; norm_num
  · exact absurd h (by decide)
  · rw [val_half]; norm_num
  · rw [val_two]; norm_num
  · rw [val_minusOne]; norm_num
  · rw [val_half]; norm_num
  · rw [val_two]; norm_num
  · rw [val_two]; norm_num

theorem witness_TrigonometricFunctionsFollowTheirRules :
    isNaN quiet = true ∧ isInf negInf = true ∧ isZero negZero = true ∧ (isFinite one = true ∧ isZero one = false) := by decide

theorem witness_SincosGivesSinAndCos :
    isNaN (start one 0 0).a = false ∧ isNaN (start quiet 0 0).a = true := by decide

theorem witness_HyperbolicFunctionsFollowTheirRules :
    (isFinite 0xC00C7700000000000000000000000000 = true ∧ |val 0xC00C7700000000000000000000000000| = 12000) ∧
    isNaN signaling = true ∧ isInf negInf = true ∧ isZero negZero = true ∧ (isFinite denorm = true ∧ isZero denorm = false) ∧
      isNaN denorm = false := by
  refine ⟨⟨by decide, ?_⟩, by decide⟩
  rw [val_namedInputs.2]
  norm_num

theorem witness_InverseTrigonometricFunctionsFollowTheirRules :
    isNaN quiet = true ∧ isInf negInf = true ∧ (isFinite two = true ∧ 1 < |val two|) ∧ isZero negZero = true ∧
      one = signedOne false ∧ (isFinite minusOne = true ∧ |val minusOne| ≤ 1 ∧ isZero minusOne = false ∧ minusOne ≠ one) := by
  refine ⟨by decide, by decide, ⟨by decide, ?_⟩, by decide, by decide, by decide, ?_, by decide, by decide⟩
  · rw [val_two]; norm_num
  · rw [val_minusOne]; norm_num

theorem witness_Atan2FollowsItsRule :
    isNaN quiet = true ∧ isZero negZero = true ∧ isInf negInf = true ∧ negInf = signedInf true ∧ posInf = signedInf false ∧
      (isFinite one = true ∧ isZero one = false) := by decide

/-- Each function has ordinary inputs, and a table that meets the contract exists for every bound. -/
theorem witness_AccurateTableGivesAccurateResults :
    (∀ f ∈ [Fn.exp, .log, .pow, .sin, .cos, .tan, .cot, .sinh, .cosh, .tanh, .atan, .atan2],
      ordinaryInput f (start two half 0).a (f.second (start two half 0)) = true) ∧
      (∀ f ∈ [Fn.asin, .acos], ordinaryInput f (start minusOne 0 0).a (f.second (start minusOne 0 0)) = true) ∧
      ordinaryInput .pow minusOne two = true ∧ ∃ fn, MeetsContract (fun _ => 1 / 2) fn :=
  ⟨by decide +kernel, by decide +kernel, by decide +kernel, exists_meetsContract _⟩

theorem witness_NaNOperandsGiveQuietNaNs :
    isNaN (start signaling 0 0).a = true ∧ isNaN (start 0 signaling 0).b = true ∧ Instr.powi ∈ nanUnary ∧ Instr.modulo ∈ nanBinary ∧
      (∃ t, exec .sincos (start quiet 0 0) = .next t ∧ isNaN t.r2 = true) ∧
      ∃ t, exec .add (start quiet 0 0) = .next t ∧ isNaN t.r = true := by
  refine ⟨by decide, by decide, by decide, by decide, ⟨_, rfl, ?_⟩, _, rfl, ?_⟩
  · have hr : ∀ (s : State) (q : Quad), (s.withR2 q).r2 = q := fun s q => State.withR2_r2 s q
    show isNaN (State.r2 (State.withR2 _ (cosQuad _ (sincosNaN .cos 1 quiet) quiet))) = true
    rw [hr, cosQuad, if_pos (by decide), sincosNaN, if_pos (by decide)]
    exact isNaN_qNaN _ _ _
  have ha : (start quiet 0 0).a = quiet := by decide
  have hr : ∀ q : Quad, ((start quiet 0 0).withR q).r = q := fun q => State.withR_r _ q
  show isNaN (((start quiet 0 0).withR (addQuad _ (start quiet 0 0).a _)).r) = true
  rw [hr, ha, addQuad, if_pos (by rw [show isNaN quiet = true by decide, Bool.true_or])]
  exact isNaN_qNaN _ _ _

theorem holdsText_holding {t : List Byte} (h : t.length ≤ 64) : HoldsText (holding t) t := by
  have h1 := tbufSize_ge
  refine ⟨?_, by omega, fun k hk => ?_⟩
  · show (BitVec.ofNat 64 t.length).toNat = t.length
    rw [BitVec.toNat_ofNat]
    omega
  · show readByte (writeBytes [] 0 t) k = t[k]?
    rw [readByte_writeBytes, if_pos (by omega), Nat.sub_zero]

theorem witness_ParseErrors :
    Config.tbufSize < ({ State.reset with tlen := 4097 } : State).tlen.toNat ∧
      (HoldsText (holding []) [] ∧ ¬WellFormedText []) ∧
      (({ State.reset with tlen := 1 } : State).tlen.toNat ≤ Config.tbufSize ∧
        readByte ({ State.reset with tlen := 1 } : State).tbuf 0 = none) := by
  have h1 := tbufSize_ge
  have h2 := tbufSize_le
  refine ⟨?_, ⟨holdsText_holding (by decide), ?_⟩, ?_, rfl⟩
  · show Config.tbufSize < 4097
    omega
  · rintro ⟨body, neg, ⟨lead, sg, trail, ht, -⟩, hb⟩
    have hbody : body = [] := by
      have := congrArg List.length ht
      simp only [List.length_nil, List.length_append] at this
      exact List.length_eq_zero_iff.1 (by omega)
    subst hbody
    rcases hb with hb | hb | ⟨i, f, x, xneg, hi, -, -, -, point, mark, hm, -⟩
    · exact absurd ((isInfToken_iff _).2 hb) (by decide)
    · exact absurd ((isNanToken_iff _).2 hb) (by decide)
    · have := congrArg List.length hm
      simp only [List.length_nil, List.length_append] at this
      exact hi (List.length_eq_zero_iff.1 (by omega))
  · show 1 ≤ Config.tbufSize
    omega

theorem witness_ParseSpecialTokens :
    (HoldsText (holding [0x20, 0x2D, 0x69, 0x6E, 0x66, 0x20]) [0x20, 0x2D, 0x69, 0x6E, 0x66, 0x20] ∧
      SignedText [0x20, 0x2D, 0x69, 0x6E, 0x66, 0x20] [0x69, 0x6E, 0x66] true ∧ InfText [0x69, 0x6E, 0x66]) ∧
    (HoldsText (holding [0x4E, 0x61, 0x4E]) [0x4E, 0x61, 0x4E] ∧ SignedText [0x4E, 0x61, 0x4E] [0x4E, 0x61, 0x4E] false ∧
      NanText [0x4E, 0x61, 0x4E]) := by
  refine ⟨⟨holdsText_holding (by decide), ⟨[0x20], [0x2D], [0x20], rfl, by decide, by decide, ?_⟩, ?_⟩,
    holdsText_holding (by decide), ⟨[], [], [], rfl, by decide, by decide, ?_⟩, ?_⟩
  · exact .inr (.inr ⟨rfl, rfl⟩)
  · exact (isInfToken_iff _).1 (by decide)
  · exact .inl ⟨rfl, rfl⟩
  · exact (isNanToken_iff _).1 (by decide)

/-- `0`, `-1.5e-3` and `NaN`. -/
theorem witness_ParseDecimalsAreCorrectlyRounded :
    (HoldsText (holding [0x30]) [0x30] ∧ SignedText [0x30] [0x30] false ∧ DecimalText [0x30] [0x30] [] [] false ∧
      digitsNat ([0x30] ++ []) = 0) ∧
    (SignedText [0x2D, 0x31, 0x2E, 0x35, 0x65, 0x2D, 0x33] [0x31, 0x2E, 0x35, 0x65, 0x2D, 0x33] true ∧
      DecimalText [0x31, 0x2E, 0x35, 0x65, 0x2D, 0x33] [0x31] [0x35] [0x33] true ∧ digitsNat ([0x31] ++ [0x35]) ≠ 0) ∧
    (HoldsText (holding [0x4E, 0x61, 0x4E]) [0x4E, 0x61, 0x4E] ∧ SignedText [0x4E, 0x61, 0x4E] [0x4E, 0x61, 0x4E] false ∧
      NanText [0x4E, 0x61, 0x4E]) := by
  unfold DecimalText DigitByte
  refine ⟨⟨holdsText_holding (by decide), ⟨[], [], [], rfl, by decide, by decide, .inl ⟨rfl, rfl⟩⟩, ?_, by decide⟩,
    ⟨⟨[], [0x2D], [], rfl, by decide, by decide, .inr (.inr ⟨rfl, rfl⟩)⟩, ?_, by decide⟩,
    witness_ParseSpecialTokens.2⟩
  · exact ⟨by decide, by decide, by decide, by decide, [], [], rfl, .inl ⟨rfl, rfl⟩, .inl ⟨rfl, rfl, rfl⟩⟩
  · exact ⟨by decide, by decide, by decide, by decide, [0x2E, 0x35], [0x65, 0x2D, 0x33], rfl, .inr rfl,
      .inr ⟨by decide, 0x65, [0x2D], rfl, .inl rfl, .inr (.inr ⟨rfl, rfl⟩)⟩⟩

/-- Each option error, a PREC of 36, and a field width of 255 in the smallest buffer. -/
theorem witness_FormatErrorsInOrder :
    (0x0100000000000423 : Word).toNat / 2 ^ 24 ≠ 0 ∧ (0x1423 : Word).toNat / 2 ^ 12 % 4 ≠ 0 ∧
      (0x0023 : Word).toNat / 2 ^ 8 % 16 = 0 ∧
      ((0xFF0424 : Word).toNat / 2 ^ 24 = 0 ∧ (0xFF0424 : Word).toNat / 2 ^ 12 % 4 = 0 ∧
        (0xFF0424 : Word).toNat / 2 ^ 8 % 16 ≠ 0 ∧ 35 < (0xFF0424 : Word).toNat % 2 ^ 8) ∧
      ((0xFF0423 : Word).toNat % 2 ^ 8 ≤ 35 ∧ 64 < (formatText 0 0xFF0423).1.length) := by decide +kernel

theorem witness_FormatWritesTheText :
    (0x2C0423 : Word).toNat / 2 ^ 24 = 0 ∧ (0x2C0423 : Word).toNat / 2 ^ 12 % 4 = 0 ∧ (0x2C0423 : Word).toNat / 2 ^ 8 % 16 ≠ 0 ∧
      (0x2C0423 : Word).toNat % 2 ^ 8 ≤ 35 ∧ (formatText 0 0x2C0423).1.length ≤ Config.tbufSize ∧ isFinite 0 = true := by
  have h : (formatText 0 0x2C0423).1.length = 44 := by decide
  have h1 := tbufSize_ge
  exact ⟨by decide, by decide, by decide, by decide, by omega, by decide⟩

theorem witness_FormatDigitsAreRoundedOnce :
    isFinite denorm = true ∧ isZero denorm = false ∧ isFinite minusOne = true ∧ isZero minusOne = false ∧ 3 ≤ 3 := by decide

theorem witness_FormatBodyLayout :
    isNaN quiet = true ∧ isInf negInf = true ∧ isZero negZero = true ∧ (isFinite denorm = true ∧ isZero denorm = false) := by decide

theorem witness_FormatThenParseRoundTrips :
    (start negZero 0 0).fopt.toNat % 2 ^ 8 = 35 ∧ (start negZero 0 0).fopt.toNat / 2 ^ 8 % 16 ≠ 0 ∧
      (start negZero 0 0).fopt.toNat / 2 ^ 12 % 16 = 0 ∧ (start negZero 0 0).fopt.toNat / 2 ^ 24 = 0 ∧
      (formatText (start negZero 0 0).a (start negZero 0 0).fopt).1.length ≤ Config.tbufSize ∧
      (∃ t, exec .format (start negZero 0 0) = .next t) ∧ isNaN (start negZero 0 0).a = false ∧
      isNaN (start quiet 0 0).a = true := by
  have h : (formatText (start negZero 0 0).a (start negZero 0 0).fopt).1.length = 44 := by decide
  have h1 := tbufSize_ge
  exact ⟨by decide, by decide, by decide, by decide, by omega, ⟨_, rfl⟩, by decide, by decide⟩

end Sys2Proof.Tests
end

section
/-! PROOFS. The frame of the commands (spec/00_scope.md rule R14): what each write of a command leaves unchanged, and
from it the frame of all 48 commands. -/

namespace Sys2Proof.Machine

/-- From `s` to `t` only registers in `rs` and the first `n` bytes of the text buffer may have changed: every other
register keeps its value and its mark, every other byte reads as before, and so does the host's side. -/
structure Keeps (rs : List RegName) (n : Nat) (s t : State) : Prop where
  reg : ∀ r, r ∉ rs → t.readReg r = s.readReg r ∧ t.regWritten r = s.regWritten r
  byte : ∀ k, n ≤ k → readByte t.tbuf k = readByte s.tbuf k
  pending : t.pending = s.pending
  readData : t.readData = s.readData

namespace Keeps

variable {rs : List RegName} {n : Nat} {s t : State}

theorem refl (rs : List RegName) (n : Nat) (s : State) : Keeps rs n s s :=
  ⟨fun _ _ => ⟨rfl, rfl⟩, fun _ _ => rfl, rfl, rfl⟩

theorem withR (h : Keeps rs n s t) (hlo : .rLo ∈ rs) (hhi : .rHi ∈ rs) (q : Quad) : Keeps rs n s (t.withR q) where
  __ := h
  reg r hr := by
    cases r with
    | rLo => exact absurd hlo hr
    | rHi => exact absurd hhi hr
    | _ => exact h.reg _ hr

theorem withR2 (h : Keeps rs n s t) (hlo : .r2Lo ∈ rs) (hhi : .r2Hi ∈ rs) (q : Quad) :
    Keeps rs n s (t.withR2 q) where
  __ := h
  reg r hr := by
    cases r with
    | r2Lo => exact absurd hlo hr
    | r2Hi => exact absurd hhi hr
    | _ => exact h.reg _ hr

theorem withRI (h : Keeps rs n s t) (hri : .ri ∈ rs) (v : Word) : Keeps rs n s (t.withRI v) where
  __ := h
  reg r hr := by
    cases r with
    | ri => exact absurd hri hr
    | _ => exact h.reg _ hr

theorem withTLEN (h : Keeps rs n s t) (htlen : .tlen ∈ rs) (v : Word) : Keeps rs n s (t.withTLEN v) where
  __ := h
  reg r hr := by
    cases r with
    | tlen => exact absurd htlen hr
    | _ => exact h.reg _ hr

theorem withST (h : Keeps rs n s t) (hst : .st ∈ rs) (v : Word) : Keeps rs n s (t.withST v) where
  __ := h
  reg r hr := by
    cases r with
    | st => exact absurd hst hr
    | _ => exact h.reg _ hr

theorem withText (h : Keeps rs n s t) {text : List Byte} (hn : text.length ≤ n) : Keeps rs n s (t.withText text) where
  __ := h
  reg r hr := by cases r <;> exact h.reg _ hr
  byte k hk := by rw [State.withText_tbuf, readByte_writeBytes, if_neg (by omega), h.byte k hk]

end Keeps

/-- The length of the text a command may store from index 0 on: FORMAT's output text, and none for the others (R930). -/
def storedLength (i : Instr) (s : State) : Nat := if i = .format then (formatText s.a s.fopt).1.length else 0

/-- What a command may change: ST, the registers of its Writes line, and for FORMAT the bytes of its output text
(R14, R1001). -/
theorem exec_keeps {i : Instr} {s t : State} (h : exec i s = .next t) :
    Keeps (.st :: resultRegs i) (storedLength i s) s t := by
  have hs := Keeps.refl (.st :: resultRegs i) (storedLength i s) s
  have hst : RegName.st ∈ .st :: resultRegs i := List.mem_cons_self
  have hmem {r : RegName} (hr : r ∈ resultRegs i) : r ∈ .st :: resultRegs i := List.mem_cons_of_mem _ hr
  by_cases hp : i = .parse
  · subst hp
    have h : parseCommand Config.tbufSize s = .next t := h
    rcases parseCommand_cases Config.tbufSize s with
      ⟨-, he⟩ | ⟨-, ⟨k, -, he⟩ | ⟨text, -, ⟨-, he⟩ | ⟨q, x, -, he⟩⟩⟩ <;> rw [he] at h <;> cases h
    · exact hs.withST hst 6
    · exact hs.withST hst 3
    · exact (hs.withR (by decide) (by decide) q).withST hst _
  by_cases hf : i = .format
  · subst hf
    have h : formatCommand Config.tbufSize s = .next t := h
    have hlen : (formatText s.a s.fopt).1.length ≤ storedLength .format s := by rw [storedLength, if_pos rfl]
    rcases formatCommand_cases Config.tbufSize s with ⟨e, -, he⟩ | ⟨-, -, he⟩ <;> rw [he] at h <;> cases h
    · exact hs.withST hst e
    · exact (((hs.withText hlen).withTLEN (by decide) _).withRI (by decide) _).withST hst _
  rcases exec_cases i s hp hf with
    ⟨q, he, hlo, hhi⟩ | ⟨v, he, hri⟩ | ⟨rfl, v, q, he⟩ | ⟨rfl, q, q2, he⟩ | ⟨-, he⟩ <;> rw [he] at h <;> cases h
  · exact (hs.withR (hmem hlo) (hmem hhi) q).withST hst 0
  · exact (hs.withRI (hmem hri) v).withST hst 0
  · exact ((hs.withRI (by decide) v).withR (by decide) (by decide) q).withST hst 0
  · exact ((hs.withR (by decide) (by decide) q).withR2 (by decide) (by decide) q2).withST hst 0
  · exact hs.withST hst 2

/-- Settles O20, clause by clause from `exec_keeps`. -/
theorem commandFrame : Obligations.CommandFrame := by
  unfold Obligations.CommandFrame
  intro i s t h
  have hk := exec_keeps h
  refine ⟨fun r hr hst => hk.reg r (List.not_mem_cons_of_ne_of_not_mem hst hr), fun hf k => hk.byte k ?_,
    fun hf k hlen => hk.byte k ?_, hk.pending, hk.readData⟩
  · rw [storedLength, if_neg hf]
    exact k.zero_le
  · rw [storedLength, if_pos hf]
    exact hlen

end Sys2Proof.Machine
end

section
/-! PROOFS. What every step keeps (spec/10_state.md rules R100, R123, R125): an idle block stays as it is, a command leaves
a status its rule allows, and each host action keeps the invariant. -/

namespace Sys2Proof.Machine

/-- Settles O7: with no action to perform, a step is the idle one. -/
theorem idleStepChangesNothing : Obligations.IdleStepChangesNothing := by
  unfold Obligations.IdleStepChangesNothing
  intro s h
  rw [step, stepWith, h]

theorem zero_mem_statusesOf (i : Instr) : 0 ∈ statusesOf i := by cases i <;> exact List.mem_cons_self

/-- The status a command ends with is one of those its rule allows (R123, R1000, R1001). -/
theorem exec_st_mem_statusesOf {i : Instr} {s t : State} (h : exec i s = .next t) : t.st ∈ statusesOf i := by
  have hinexact (x : Bool) : (if x then 0x100 else 0 : Word) ∈ [(0 : Word), 0x100] := by cases x <;> decide
  by_cases hp : i = .parse
  · subst hp
    have h : parseCommand Config.tbufSize s = .next t := h
    rcases parseCommand_cases Config.tbufSize s with
      ⟨-, he⟩ | ⟨-, ⟨k, -, he⟩ | ⟨text, -, ⟨-, he⟩ | ⟨q, x, -, he⟩⟩⟩ <;> rw [he] at h <;> cases h
    · exact (by decide : 6 ∈ statusesOf .parse)
    · exact (by decide : 3 ∈ statusesOf .parse)
    · exact List.mem_append_left [3, 6] (hinexact x)
  by_cases hf : i = .format
  · subst hf
    have h : formatCommand Config.tbufSize s = .next t := h
    rcases formatCommand_cases Config.tbufSize s with ⟨e, hcode, he⟩ | ⟨-, -, he⟩ <;> rw [he] at h <;> cases h
    · have herr : [4, 5, 6] ⊆ statusesOf .format := by decide
      exact herr (by simpa using hcode)
    · exact List.mem_append_left [4, 5, 6] (hinexact _)
  rcases exec_cases i s hp hf with
    ⟨q, he, -⟩ | ⟨v, he, -⟩ | ⟨-, v, q, he⟩ | ⟨-, q, q2, he⟩ | ⟨hi, he⟩ <;> rw [he] at h <;> cases h
  · exact zero_mem_statusesOf i
  · exact zero_mem_statusesOf i
  · exact zero_mem_statusesOf _
  · exact zero_mem_statusesOf _
  · have htwo : (2 : Word) ∈ [0, 2] := by decide
    rcases hi with rfl | ⟨k, rfl, -⟩ | ⟨k, rfl, -⟩ <;> exact htwo

/-- The statuses the rules allow are legal values of ST (R123). -/
theorem statusLegal_of_mem_statusesOf {i : Instr} {v : Word} (h : v ∈ statusesOf i) : statusLegal v = true := by
  have hall : (statusesOf i).all statusLegal = true := by cases i <;> rfl
  exact List.all_eq_true.1 hall v h

namespace Inv

variable {s t : State}

/-- The invariant speaks of the text buffer and ST alone. -/
theorem congr (h : Inv s) (htbuf : t.tbuf = s.tbuf) (hst : t.st = s.st) : Inv t := by
  rw [Inv, htbuf, hst]
  exact h

/-- A store of bytes that fits, of none among them, keeps the invariant when the status after it is legal (R123, R125). -/
theorem of_writeBytes (h : Inv s) {i : Nat} {bs : List Byte} (hfit : i + bs.length ≤ Config.tbufSize)
    (htbuf : t.tbuf = writeBytes s.tbuf i bs) (hst : statusLegal t.st = true) : Inv t := by
  obtain ⟨hwf, hbound, -⟩ := h
  rw [Inv, htbuf]
  exact ⟨bufferWf_writeBytes hwf i bs, bound_writeBytes hbound hfit, hst⟩

theorem st_legal (h : Inv s) : statusLegal s.st = true := h.2.2

/-- Every command keeps the invariant. -/
theorem of_exec (h : Inv s) {i : Instr} (he : exec i s = .next t) : Inv t := by
  have hst := statusLegal_of_mem_statusesOf (exec_st_mem_statusesOf he)
  rcases exec_tbuf he with htbuf | ⟨text, hfit, htbuf⟩
  · exact h.of_writeBytes (i := 0) (bs := []) (Nat.zero_le _) htbuf hst
  · exact h.of_writeBytes (by omega) htbuf hst

theorem of_writeReg (h : Inv s) (r : RegName) (v : Word) : Inv (s.writeReg r v) :=
  h.congr (State.writeReg_tbuf s r v) (State.writeReg_st s r v)

/-- Every host write that is accepted keeps the invariant, the command of a CMD write included. -/
theorem of_hostWrite (h : Inv s) {width : Nat} {off : Offset} {v : Word}
    (hw : hostWrite Config.tbufSize width off v s = .next t) : Inv t := by
  rcases hostWrite_cases hw with
    ⟨i, -, he⟩ | ⟨e, -, rfl⟩ | ⟨r, -, -, rfl⟩ | ⟨i, hi, rfl⟩ | ⟨i, hi, rfl⟩
  · exact (h.of_writeReg .cmd v).of_exec he
  · exact h.of_writeBytes (i := 0) (bs := []) (Nat.zero_le _) rfl (by rfl)
  · exact h.of_writeReg r v
  · exact h.of_writeBytes (i := i) (bs := [v.extractLsb' 0 8]) hi rfl h.st_legal
  · exact h.of_writeBytes (i := i) (bs := wordBytes v) hi rfl h.st_legal

end Inv

theorem inv_reset : Inv State.reset := ⟨State.reset_bufferWf, nofun, rfl⟩

/-- Settles O12, action by action: the idle step and a read change neither the text buffer nor ST, a write keeps the
invariant by `Inv.of_hostWrite`, and a reset establishes it. -/
theorem stepKeepsInvariant : Obligations.StepKeepsInvariant := by
  unfold Obligations.StepKeepsInvariant
  intro s t h hstep
  rcases step_cases hstep with ⟨-, rfl⟩ | ⟨e, rest, -, ⟨d, rfl⟩ | ⟨width, off, v, -, hw⟩ | rfl⟩
  · exact h
  · exact h.congr rfl rfl
  · have hs : Inv { s with pending := rest } := h.congr rfl rfl
    exact hs.of_hostWrite hw
  · exact inv_reset.congr rfl rfl

end Sys2Proof.Machine
end

section
/-! PROOFS. Which commands write R2, RI and TLEN (spec/10_state.md rules R114, R121, R122). -/

namespace Sys2Proof.Machine

theorem Reg.eq_of_val_of_written {x y : Reg} (h : x.val = y.val ∧ x.written = y.written) : x = y := by
  cases x
  cases y
  obtain ⟨rfl, rfl⟩ := h
  rfl

/-- SINCOS alone has R2 among its result registers (R121). -/
theorem r2_notMem_resultRegs {i : Instr} (h : i ≠ .sincos) : .r2Lo ∉ resultRegs i ∧ .r2Hi ∉ resultRegs i := by
  cases i with
  | sincos => exact absurd rfl h
  | limit k => rw [resultRegs]; split <;> decide
  | _ => simp [resultRegs]

/-- FORMAT alone has TLEN among its result registers (R114). -/
theorem tlen_notMem_resultRegs {i : Instr} (h : i ≠ .format) : .tlen ∉ resultRegs i := by
  cases i with
  | format => exact absurd rfl h
  | limit k => rw [resultRegs]; split <;> decide
  | _ => simp [resultRegs]

/-- The commands that have RI among their result registers (R122). -/
theorem writers_of_ri_mem_resultRegs {i : Instr} (h : .ri ∈ resultRegs i) :
    i ∈ [Instr.classify, .sign, .decomp, .isnan, .isinf, .isfin, .cmp, .ceq, .cne, .clt, .cle, .cgt, .cge, .cun,
      .format] ∨ ∃ k, i = .limit k ∧ 3 < k := by
  cases i with
  | limit k =>
    refine .inr ⟨k, rfl, ?_⟩
    by_contra hk
    rw [resultRegs, if_pos (by omega)] at h
    exact absurd h (by decide)
  | classify | sign | decomp | isnan | isinf | isfin | cmp | ceq | cne | clt | cle | cgt | cge | cun | format =>
    exact .inl (by decide)
  | _ => simp [resultRegs] at h

/-- LIMIT with a selector above the table's last row reports BAD_OPERAND (R730). -/
theorem exec_limit_of_nine_lt {k : Nat} (hk : 9 < k) (s : State) : exec (.limit k) s = .next (s.withST 2) := by
  have hq := (limitQuad_eq_none_iff k).2 (by omega)
  have hi := (limitInt_eq_none_of (k := k) (by omega)).2 hk
  rw [exec, execLimit, hq, hi]
  rfl

/-- Settles O17: by `exec_keeps` a register outside the command's result registers is unchanged, and a LIMIT beyond its
table, the one command with RI among them that need not write it, changes ST alone. -/
theorem resultRegisterWriters : Obligations.ResultRegisterWriters := by
  unfold Obligations.ResultRegisterWriters
  intro i s t h
  have hkeep {r : RegName} (hst : r ≠ .st) (hr : r ∉ resultRegs i) :=
    (exec_keeps h).reg r (List.not_mem_cons_of_ne_of_not_mem hst hr)
  refine ⟨fun hi => ?_, fun hi hlim => ?_, fun hi => (hkeep (by decide) (tlen_notMem_resultRegs hi)).1⟩
  · obtain ⟨hlo, hhi⟩ := r2_notMem_resultRegs hi
    exact ⟨Reg.eq_of_val_of_written (hkeep (by decide) hlo), Reg.eq_of_val_of_written (hkeep (by decide) hhi)⟩
  · by_cases hri : .ri ∈ resultRegs i
    · obtain hw | ⟨k, rfl, hk⟩ := writers_of_ri_mem_resultRegs hri
      · exact absurd hw hi
      · have hk9 := (hlim k rfl).resolve_left (by omega)
        rw [exec_limit_of_nine_lt hk9] at h
        cases h
        rfl
    · exact Reg.eq_of_val_of_written (hkeep (by decide) hri)

end Sys2Proof.Machine
end

section
/-! PROOFS. On what a command depends (spec/10_state.md rules R101, R151): two runs of one command, in states that agree on
its operands. -/

namespace Sys2Proof.Machine

theorem State.withST_readReg_of_ne {r : RegName} (h : r ≠ .st) (s : State) (v : Word) :
    (s.withST v).readReg r = s.readReg r := by
  cases r with
  | st => exact absurd rfl h
  | _ => rfl

/-- The second run of a command `i` ends as the first: with the same fault, or in a next state with the same ST and, after
a success, the same result registers and for FORMAT the same text (R101). -/
def SameOutcome (i : Instr) (o o' : Host.Outcome State Fault Refusal) : Prop :=
  (∀ f, o = .fault f → o' = .fault f) ∧
    ∀ t, o = .next t → ∃ t', o' = .next t' ∧ t'.st = t.st ∧
      (statusCode t.st = 0 → (∀ r ∈ resultRegs i, t'.readReg r = t.readReg r) ∧
        (i = .format → ∀ k, k < t.tlen.toNat → readByte t'.tbuf k = readByte t.tbuf k))

namespace SameOutcome

variable {i : Instr} {s s' : State}

theorem fault (f : Fault) : SameOutcome i (.fault f) (.fault f) := ⟨fun _ h => h, fun _ h => (nomatch h)⟩

/-- Two successes with one status. -/
theorem next {t t' : State} (hst : t'.st = t.st) (hreg : ∀ r ∈ resultRegs i, t'.readReg r = t.readReg r)
    (htext : i = .format → ∀ k, k < t.tlen.toNat → readByte t'.tbuf k = readByte t.tbuf k) :
    SameOutcome i (.next t) (.next t') := by
  refine ⟨fun _ h => (nomatch h), fun u hu => ?_⟩
  cases hu
  exact ⟨t', rfl, hst, fun _ => ⟨hreg, htext⟩⟩

/-- Two runs that report one usage error. -/
theorem raiseError (s s' : State) (e : UsageError) : SameOutcome i (raiseError s e) (raiseError s' e) := by
  have hcode : statusCode (errorCode e) ≠ 0 := by cases e <;> decide
  refine ⟨fun _ h => (nomatch h), fun u hu => ?_⟩
  cases hu
  exact ⟨_, rfl, rfl, fun h => absurd h hcode⟩

/-- Two successes that leave the same results. -/
theorem finish {t t' : State} (hi : i ≠ .format)
    (hr : ∀ r ∈ resultRegs i, r ≠ .st ∧ t'.readReg r = t.readReg r) : SameOutcome i (finish t) (finish t') := by
  refine next rfl (fun r hmem => ?_) fun h => absurd h hi
  obtain ⟨hst, heq⟩ := hr r hmem
  rw [State.withST_readReg_of_ne hst, State.withST_readReg_of_ne hst, heq]

theorem finishR (hr : resultRegs i = [.rLo, .rHi]) {q q' : Quad} (hq : q = q') :
    SameOutcome i (finishR s q) (finishR s' q') := by
  subst hq
  refine finish ?_ (by simp [hr, State.readReg])
  rintro rfl
  cases hr

theorem finishRI (hr : resultRegs i = [.ri]) {v v' : Word} (hv : v = v') :
    SameOutcome i (finishRI s v) (finishRI s' v') := by
  subst hv
  refine finish ?_ (by simp [hr, State.readReg])
  rintro rfl
  cases hr

end SameOutcome

section
variable {s s' : State} {rs : List RegName} (h : ∀ r ∈ rs, s.readReg r = s'.readReg r)
include h

theorem State.a_eq_of_agree (hlo : .aLo ∈ rs) (hhi : .aHi ∈ rs) : s.a = s'.a :=
  congrArg₂ (· ++ ·) (h _ hhi) (h _ hlo)

theorem State.b_eq_of_agree (hlo : .bLo ∈ rs) (hhi : .bHi ∈ rs) : s.b = s'.b :=
  congrArg₂ (· ++ ·) (h _ hhi) (h _ hlo)

end

/-- Buffers that agree on a range of bytes read alike there. -/
theorem readBytes_congr {m m' : List Host.Cell} {i n : Nat}
    (h : ∀ k, i ≤ k → k < i + n → readByte m k = readByte m' k) : readBytes m i n = readBytes m' i n := by
  induction n generalizing i with
  | zero => rfl
  | succ n ih =>
    have hrest : readBytes m (i + 1) n = readBytes m' (i + 1) n := ih fun k hk hlt => h k (by omega) (by omega)
    rw [readBytes, readBytes, h i le_rfl (by omega), hrest]

/-- PARSE depends on TLEN and the bytes below it alone (R900, R1005). -/
theorem parseCommand_sameOutcome (size : Nat) {s s' : State} (htlen : s.tlen = s'.tlen)
    (htext : ∀ k, k < s.tlen.toNat → readByte s.tbuf k = readByte s'.tbuf k) :
    SameOutcome .parse (parseCommand size s) (parseCommand size s') := by
  have hbytes : readBytes s.tbuf 0 s.tlen.toNat = readBytes s'.tbuf 0 s.tlen.toNat :=
    readBytes_congr fun k _ hk => htext k (by omega)
  rw [parseCommand, parseCommand, ← htlen, ← hbytes]
  split_ifs
  · exact .raiseError s s' .bufferOverflow
  cases readBytes s.tbuf 0 s.tlen.toNat with
  | error k => exact .fault (.operandUnwritten k)
  | ok text =>
    dsimp only
    cases parseText text with
    | none => exact .raiseError s s' .parseError
    | some p => exact .next rfl (by simp [resultRegs, State.readReg]) nofun

/-- FORMAT depends on A and FOPT alone (R930). -/
theorem formatCommand_sameOutcome (size : Nat) {s s' : State} (ha : s.a = s'.a) (hfopt : s.fopt = s'.fopt) :
    SameOutcome .format (formatCommand size s) (formatCommand size s') := by
  rw [formatCommand, formatCommand, ← ha, ← hfopt]
  dsimp only
  split_ifs
  · exact .raiseError s s' .badOption
  · exact .raiseError s s' .precisionError
  · exact .raiseError s s' .bufferOverflow
  · refine .next rfl (by simp [resultRegs, State.readReg]) fun _ k hk => ?_
    have hlen : k < (formatText s.a s.fopt).1.length := lt_of_lt_of_le hk (Nat.mod_le _ _)
    simp [readByte_writeBytes, hlen]

/-- Two runs of a command in states that agree on its operands end alike. -/
theorem exec_sameOutcome {i : Instr} {s s' : State} (h : ∀ r ∈ operandRegs i, s.readReg r = s'.readReg r)
    (htext : i = .parse → ∀ k, k < s.tlen.toNat → readByte s.tbuf k = readByte s'.tbuf k) :
    SameOutcome i (exec i s) (exec i s') := by
  cases i with
  | classify | sign | isnan | isinf | isfin =>
    have ha := State.a_eq_of_agree h (by decide) (by decide)
    exact .finishRI rfl (by rw [ha])
  | neg | abs | floor | ceil | sqrt | exp | log | sin | cos | tan | cot | sinh | cosh | tanh | asin | acos | atan =>
    have ha := State.a_eq_of_agree h (by decide) (by decide)
    exact .finishR rfl (by rw [ha])
  | add | sub | mul | div | mod | modulo | pow | atan2 =>
    have ha := State.a_eq_of_agree h (by decide) (by decide)
    have hb := State.b_eq_of_agree h (by decide) (by decide)
    exact .finishR rfl (by rw [ha, hb])
  | cmp | ceq | cne | clt | cle | cgt | cge | cun =>
    have ha := State.a_eq_of_agree h (by decide) (by decide)
    have hb := State.b_eq_of_agree h (by decide) (by decide)
    exact .finishRI rfl (by rw [ha, hb])
  | cvti =>
    have hn : s.n.val = s'.n.val := h .n (by decide)
    exact .finishR rfl (by rw [State.nInt, State.nInt, hn])
  | cvtd =>
    have hn : s.n.val = s'.n.val := h .n (by decide)
    exact .finishR rfl (by rw [hn])
  | powi =>
    have ha := State.a_eq_of_agree h (by decide) (by decide)
    have hn : s.n.val = s'.n.val := h .n (by decide)
    exact .finishR rfl (by rw [State.nInt, State.nInt, ha, hn])
  | decomp =>
    have ha := State.a_eq_of_agree h (by decide) (by decide)
    rw [exec, exec, execDecomp, execDecomp, ← ha]
    exact .finish (by decide) (by simp [resultRegs, State.readReg])
  | sincos =>
    have ha := State.a_eq_of_agree h (by decide) (by decide)
    rw [exec, exec, execSincos, execSincos, ← ha]
    exact .finish (by decide) (by simp [resultRegs, State.readReg])
  | compose =>
    have ha := State.a_eq_of_agree h (by decide) (by decide)
    have hn : s.n.val = s'.n.val := h .n (by decide)
    rw [exec, exec, execCompose, execCompose, ← ha, ← hn]
    split_ifs
    · exact .raiseError s s' .badOperand
    · exact .finishR rfl rfl
  | const k =>
    rw [exec, exec, execConst, execConst]
    cases constTable k with
    | none => exact .raiseError s s' .badOperand
    | some q => exact .finishR rfl rfl
  | limit k =>
    rw [exec, exec, execLimit, execLimit]
    cases hq : limitQuad k with
    | some q =>
      have hk : k ≤ 3 := by
        by_contra hk
        simp [(limitQuad_eq_none_iff k).2 (by omega)] at hq
      have hr : resultRegs (.limit k) = [.rLo, .rHi] := if_pos hk
      exact .finishR hr rfl
    | none =>
      have hr : resultRegs (.limit k) = [.ri] := if_neg (Nat.not_le.2 ((limitQuad_eq_none_iff k).1 hq))
      cases limitInt k with
      | none => exact .raiseError s s' .badOperand
      | some n => exact .finishRI hr rfl
  | parse => exact parseCommand_sameOutcome Config.tbufSize (h .tlen (by decide)) (htext rfl)
  | format =>
    exact formatCommand_sameOutcome Config.tbufSize (State.a_eq_of_agree h (by decide) (by decide)) (h .fopt (by decide))

/-- Settles O19, command by command in `exec_sameOutcome`. -/
theorem commandsDependOnlyOnTheirOperands : Obligations.CommandsDependOnlyOnTheirOperands := by
  unfold Obligations.CommandsDependOnlyOnTheirOperands
  exact fun i s s' h htext => exec_sameOutcome h htext

end Sys2Proof.Machine
end

section
/-! PROOFS. How a command ends (spec/20_memory.md rule R231, spec/60_exceptions.md rule R1004): in a next state, but for
a PARSE of a text with an unwritten byte. -/

namespace Sys2Proof.Machine

/-- Every command but PARSE completes. -/
theorem exec_completes {i : Instr} (s : State) (hp : i ≠ .parse) : ∃ t, exec i s = .next t := by
  by_cases hf : i = .format
  · subst hf
    rcases formatCommand_cases Config.tbufSize s with ⟨e, -, he⟩ | ⟨-, -, he⟩ <;> exact ⟨_, he⟩
  · rcases exec_cases i s hp hf with ⟨q, he, -⟩ | ⟨v, he, -⟩ | ⟨-, v, q, he⟩ | ⟨-, q, q2, he⟩ | ⟨-, he⟩ <;>
      exact ⟨_, he⟩

/-- PARSE completes, or stops at an unwritten byte of a text that fits (R900, R1005). -/
theorem parseCommand_completes_or_unwritten (size : Nat) (s : State) :
    (∃ t, parseCommand size s = .next t) ∨
      ∃ k, parseCommand size s = .fault (.operandUnwritten k) ∧ k < s.tlen.toNat ∧ s.tlen.toNat ≤ size ∧
        readByte s.tbuf k = none := by
  rcases parseCommand_cases size s with ⟨-, he⟩ | ⟨hfit, ⟨k, hk, he⟩ | ⟨text, -, ⟨-, he⟩ | ⟨q, x, -, he⟩⟩⟩
  · exact .inl ⟨_, he⟩
  · obtain ⟨-, hlt, hnone, -⟩ := readBytes_eq_error hk
    exact .inr ⟨k, he, by omega, hfit, hnone⟩
  · exact .inl ⟨_, he⟩
  · exact .inl ⟨_, he⟩

/-- Settles O18: `exec_completes` for every command but PARSE, and for PARSE the outcomes of its own rule. -/
theorem commandsStopOnlyAtUnwrittenText : Obligations.CommandsStopOnlyAtUnwrittenText := by
  unfold Obligations.CommandsStopOnlyAtUnwrittenText
  exact ⟨fun i s hp => exec_completes s hp, parseCommand_completes_or_unwritten Config.tbufSize⟩

end Sys2Proof.Machine
end

section
/-! PROOFS. The rules of the host's accesses (spec/20_memory.md rules R201 to R206, R214): what each access reaches or
which bus fault refuses it, what a read answers and what a write stores. -/

namespace Sys2Proof.Machine

/-! ### What an access reaches -/

section
variable {size width : Nat} {off : Offset}

theorem targetOf_reserved (h : regionOf size off = .reserved) :
    targetOf size width off = .error (.busReserved off) := by
  rw [targetOf, h]

/-- A register takes no other width than 64 bits (R202). -/
theorem targetOf_reg_width (h : off.toNat < 0x070) (hw : width ≠ 64) :
    targetOf size width off = .error (.busWidth off width) := by
  obtain ⟨r, -, hr⟩ := regionOf_reg size h
  simp [targetOf, hr, hw]

/-- A register is reached at its own offset only (R203). -/
theorem targetOf_reg_misaligned (h : off.toNat < 0x070) (hoff : off.toNat % 8 ≠ 0) :
    targetOf size 64 off = .error (.busMisaligned off) := by
  obtain ⟨r, -, hr⟩ := regionOf_reg size h
  simp [targetOf, hr, hoff]

theorem targetOf_reg_aligned (h : off.toNat < 0x070) (hoff : off.toNat % 8 = 0) :
    ∃ r, regOfSlot (off.toNat / 8) = some r ∧ targetOf size 64 off = .ok (.reg r) := by
  obtain ⟨r, hslot, hr⟩ := regionOf_reg size h
  exact ⟨r, hslot, by simp [targetOf, hr, hoff]⟩

/-- The offsets of R201's table reach the registers it names. -/
theorem targetOf_registerMap {r : RegName} (h : (off, r) ∈ registerMap) : targetOf size 64 off = .ok (.reg r) := by
  have hslot : ∀ p ∈ registerMap, p.1.toNat < 0x070 ∧ p.1.toNat % 8 = 0 ∧ regOfSlot (p.1.toNat / 8) = some p.2 := by
    decide
  obtain ⟨hlt, hoff, hr⟩ := hslot _ h
  obtain ⟨r', hr', ht⟩ := targetOf_reg_aligned (size := size) hlt hoff
  rw [ht, Option.some.inj (hr'.symm.trans hr)]

/-- The text buffer takes 8-bit and 64-bit accesses only (R204). -/
theorem targetOf_text_width (h1 : 0x1000 ≤ off.toNat) (h2 : off.toNat < 0x1000 + size) (h8 : width ≠ 8)
    (h64 : width ≠ 64) : targetOf size width off = .error (.busWidth off width) := by
  simp [targetOf, regionOf_text h1 h2, h8, h64]

/-- A word of the text buffer stands at a multiple of 8 (R204). -/
theorem targetOf_text_misaligned (h1 : 0x1000 ≤ off.toNat) (h2 : off.toNat < 0x1000 + size) (hoff : off.toNat % 8 ≠ 0) :
    targetOf size 64 off = .error (.busMisaligned off) := by
  have hi : (off.toNat - 0x1000) % 8 ≠ 0 := by omega
  simp [targetOf, regionOf_text h1 h2, hi]

/-- A word that starts inside the text buffer and ends past it touches a reserved offset (R205, log entry 12). -/
theorem targetOf_text_past_end (h1 : 0x1000 ≤ off.toNat) (h2 : off.toNat < 0x1000 + size)
    (hend : 0x1000 + size < off.toNat + 8) (hoff : off.toNat % 8 = 0) :
    targetOf size 64 off = .error (.busReserved off) := by
  have hi : (off.toNat - 0x1000) % 8 = 0 := by omega
  have hfit : ¬off.toNat - 0x1000 + 8 ≤ size := by omega
  simp [targetOf, regionOf_text h1 h2, hi, hfit]

end

/-- The window holds every index of the largest text buffer (R9, R201). -/
theorem regionOf_textOffset {size i : Nat} (hsize : size ≤ 4096) (hi : i < size) :
    regionOf size (BitVec.ofNat 13 (0x1000 + i)) = .text i := by
  have hoff : (BitVec.ofNat 13 (0x1000 + i)).toNat = 0x1000 + i := by
    rw [BitVec.toNat_ofNat]
    omega
  rw [regionOf_text (by omega) (by omega), hoff, Nat.add_sub_cancel_left]

theorem targetOf_byte {size i : Nat} (hsize : size ≤ 4096) (hi : i < size) :
    targetOf size 8 (BitVec.ofNat 13 (0x1000 + i)) = .ok (.byte i) := by
  simp [targetOf, regionOf_textOffset hsize hi]

theorem targetOf_word {size i : Nat} (hsize : size ≤ 4096) (halign : i % 8 = 0) (hfit : i + 8 ≤ size) :
    targetOf size 64 (BitVec.ofNat 13 (0x1000 + i)) = .ok (.word i) := by
  simp [targetOf, regionOf_textOffset hsize (by omega : i < size), halign, hfit]

/-! ### What the step of an access does -/

section
variable {size width : Nat} {off : Offset} {s : State} {rest : List Event}

theorem stepWith_read (hp : s.pending = .access (.read width off) :: rest) :
    stepWith size s = hostRead size width off { s with pending := rest } := by
  rw [stepWith, hp]
  rfl

theorem stepWith_write {v : Word} (hp : s.pending = .access (.write width off v) :: rest) :
    stepWith size s = hostWrite size width off v { s with pending := rest } := by
  rw [stepWith, hp]
  rfl

/-- An access that reaches nothing is the bus fault that refuses it, a read and a write alike (R206). -/
theorem stepWith_refused_access {a : Access} {f : Fault} (hp : s.pending = .access a :: rest)
    (ht : targetOf size a.width a.off = .error f) : stepWith size s = .fault f := by
  cases a with
  | read width off =>
    have ht : targetOf size width off = .error f := ht
    rw [stepWith_read hp, hostRead, ht]
  | write width off v =>
    have ht : targetOf size width off = .error f := ht
    rw [stepWith_write hp, hostWrite, ht]

end

section
variable {size width : Nat} {off : Offset} {s : State} {v : Word}

theorem hostRead_reg {r : RegName} (ht : targetOf size width off = .ok (.reg r)) :
    hostRead size width off s = .next { s with readData := some (.word (s.readReg r)) } := by
  rw [hostRead, ht]

theorem hostRead_byte {i : Nat} {b : Byte} (ht : targetOf size width off = .ok (.byte i))
    (hb : readByte s.tbuf i = some b) :
    hostRead size width off s = .next { s with readData := some (.byte b) } := by
  simp only [hostRead, ht, hb]

theorem hostRead_byte_unwritten {i : Nat} (ht : targetOf size width off = .ok (.byte i))
    (hb : readByte s.tbuf i = none) : hostRead size width off s = .fault (.busUnwritten off) := by
  simp only [hostRead, ht, hb]

theorem hostRead_word {i : Nat} (ht : targetOf size width off = .ok (.word i))
    (hb : readBytes s.tbuf i 8 = .ok (wordBytes v)) :
    hostRead size width off s = .next { s with readData := some (.word v) } := by
  simp only [hostRead, ht, hb, bytesWord_wordBytes]

/-- A word read needs all of its eight bytes (R150, log entry 19). -/
theorem hostRead_word_unwritten {i j : Nat} (ht : targetOf size width off = .ok (.word i)) (hj : j < 8)
    (hb : readByte s.tbuf (i + j) = none) : hostRead size width off s = .fault (.busUnwritten off) := by
  cases hread : readBytes s.tbuf i 8 with
  | error k => simp only [hostRead, ht, hread]
  | ok bs =>
    obtain ⟨hlen, hbytes⟩ := readBytes_eq_ok.1 hread
    have hget : bs[j]? = none := (hbytes j hj).symm.trans hb
    have hout : bs.length ≤ j := List.getElem?_eq_none_iff.1 hget
    omega

theorem hostWrite_reg {r : RegName} (ht : targetOf size width off = .ok (.reg r)) (hr : r ≠ .cmd)
    (hw : regWritable r = true) : hostWrite size width off v s = .next (s.writeReg r v) := by
  simp [hostWrite, ht, hw]

/-- A write of a register that is read-only is refused (R206). -/
theorem hostWrite_readOnly {r : RegName} (ht : targetOf size width off = .ok (.reg r)) (hw : regWritable r = false) :
    hostWrite size width off v s = .fault (.busReadOnly off) := by
  have hr : r ≠ .cmd := by
    rintro rfl
    cases hw
  simp [hostWrite, ht, hw]

theorem hostWrite_byte {i : Nat} (ht : targetOf size width off = .ok (.byte i)) :
    hostWrite size width off v s = .next { s with tbuf := writeByte s.tbuf i (v.extractLsb' 0 8) } := by
  rw [hostWrite, ht]

theorem hostWrite_word {i : Nat} (ht : targetOf size width off = .ok (.word i)) :
    hostWrite size width off v s = .next { s with tbuf := writeBytes s.tbuf i (wordBytes v) } := by
  rw [hostWrite, ht]

end

end Sys2Proof.Machine
end

section
/-! PROOFS. The statements about the host's accesses: of the registers (R201, R214), refused ones (R202 to R206), and of
the text buffer (R204, R210). -/

namespace Sys2Proof.Machine

/-! ### Registers -/

/-- A host write marks the register it stores and no other (R150). -/
theorem State.writeReg_regWritten (s : State) (r r' : RegName) (v : Word) :
    (s.writeReg r v).regWritten r' = if regWritable r && r' == r then true else s.regWritten r' := by
  cases r <;> cases r' <;> rfl

/-- Below CMD's offset stand the operand registers, which the host may write (R201). -/
theorem regWritable_of_registerMap {off : Offset} {r : RegName} (h : (off, r) ∈ registerMap)
    (hoff : off.toNat < 0x038) : r ≠ .cmd ∧ regWritable r = true := by
  have hall : ∀ p ∈ registerMap, p.1.toNat < 0x038 → p.2 ≠ .cmd ∧ regWritable p.2 = true := by decide
  exact hall _ h hoff

/-- Settles O8: the read reaches the register of the map and answers its value. -/
theorem registerReadsReturnTheRegister : Obligations.RegisterReadsReturnTheRegister := by
  unfold Obligations.RegisterReadsReturnTheRegister
  intro s off r rest hmem hp
  exact (stepWith_read hp).trans (hostRead_reg (targetOf_registerMap hmem))

/-- Settles O9: the write reaches the register of the map, and `State.writeReg` stores and marks that one alone. -/
theorem registerWritesStoreTheValue : Obligations.RegisterWritesStoreTheValue := by
  unfold Obligations.RegisterWritesStoreTheValue
  intro s off r v rest hmem hoff hp
  obtain ⟨hcmd, hw⟩ := regWritable_of_registerMap hmem hoff
  refine ⟨_, (stepWith_write hp).trans (hostWrite_reg (targetOf_registerMap hmem) hcmd hw),
    State.writeReg_readReg _ r v hw, ?_, fun r' hr' => ⟨?_, ?_⟩,
    State.writeReg_tbuf _ r v, State.writeReg_pending _ r v, State.writeReg_readData _ r v⟩
  · simp [State.writeReg_regWritten, hw]
  · rw [State.writeReg_readReg_of_ne _ r r' v hr'.symm]
    rfl
  · simp [State.writeReg_regWritten, hr']
    rfl

/-! ### Refused accesses -/

/-- Settles O10, clause by clause: by `targetOf` where the access reaches nothing, and else by the register or the bytes
it reaches. -/
theorem illegalAccessesFault : Obligations.IllegalAccessesFault := by
  unfold Obligations.IllegalAccessesFault
  refine ⟨fun _ => rfl, tbufSize_ge, tbufSize_le, fun size s a rest hmin hmax hp => ?_⟩
  have hrefuse {width : Nat} {f : Fault} (hw : a.width = width) (ht : targetOf size width a.off = .error f) :
      stepWith size s = .fault f := stepWith_refused_access hp (hw ▸ ht)
  refine ⟨fun h1 h2 => hrefuse rfl (targetOf_reserved (regionOf_reserved_hole size h1 h2)),
    fun h => hrefuse rfl (targetOf_reserved (regionOf_reserved_end h)),
    fun h hw => hrefuse rfl (targetOf_reg_width h hw),
    fun h hw hoff => hrefuse hw (targetOf_reg_misaligned h hoff),
    fun h1 h2 h8 h64 => hrefuse rfl (targetOf_text_width h1 h2 h8 h64),
    fun h1 h2 hw hoff => hrefuse hw (targetOf_text_misaligned h1 h2 hoff),
    fun h2 hend hw hoff => hrefuse hw (targetOf_text_past_end (by omega) h2 hend hoff), ?_, ?_, ?_⟩
  · intro v ha h1 h2 hoff
    obtain ⟨r, hslot, ht⟩ := targetOf_reg_aligned (size := size) h2 hoff
    exact (stepWith_write (ha ▸ hp)).trans (hostWrite_readOnly ht (regWritable_of_slot hslot (by omega)))
  · rintro i hi rfl hb
    exact (stepWith_read hp).trans (hostRead_byte_unwritten (targetOf_byte hmax hi) hb)
  · rintro i j halign hfit hj rfl hb
    exact (stepWith_read hp).trans (hostRead_word_unwritten (targetOf_word hmax halign hfit) hj hb)

/-! ### The text buffer -/

@[simp] theorem wordBytes_length (v : Word) : (wordBytes v).length = 8 := rfl

/-- Byte `j` of a word is its bits from `8 * j` on (R210). -/
theorem getElem?_wordBytes (v : Word) {j : Nat} (hj : j < 8) : (wordBytes v)[j]? = some (v.extractLsb' (8 * j) 8) := by
  interval_cases j <;> rfl

/-- The eight bytes of a word, written at `i`, read back (R204, R210). -/
theorem readByte_writeBytes_wordBytes (m : List Host.Cell) (i k : Nat) (v : Word) :
    readByte (writeBytes m i (wordBytes v)) k =
      if i ≤ k ∧ k < i + 8 then some (v.extractLsb' (8 * (k - i)) 8) else readByte m k := by
  rw [readByte_writeBytes, wordBytes_length]
  split_ifs with h
  · exact getElem?_wordBytes v (by omega)
  · rfl

/-- Settles O11, one form of access after the other, by what each reaches. -/
theorem textBufferAccesses : Obligations.TextBufferAccesses := by
  unfold Obligations.TextBufferAccesses
  intro s i rest hi
  refine ⟨fun b hp hb => ?_, fun v hp => ⟨_, ?_, fun k => readByte_writeByte s.tbuf i k _⟩,
    fun v halign hfit hp hbytes => ?_,
    fun v halign hfit hp => ⟨_, ?_, fun k => readByte_writeBytes_wordBytes s.tbuf i k v⟩⟩
  · exact (stepWith_read hp).trans (hostRead_byte (targetOf_byte tbufSize_le hi) hb)
  · exact (stepWith_write hp).trans (hostWrite_byte (targetOf_byte tbufSize_le hi))
  · have hread : readBytes s.tbuf i 8 = .ok (wordBytes v) :=
      readBytes_eq_ok.2 ⟨rfl, fun j hj => (hbytes j hj).trans (getElem?_wordBytes v hj).symm⟩
    exact (stepWith_read hp).trans (hostRead_word (targetOf_word tbufSize_le halign hfit) hread)
  · exact (stepWith_write hp).trans (hostWrite_word (targetOf_word tbufSize_le halign hfit))

end Sys2Proof.Machine
end

section
/-! PROOFS. The decoder and the encoder of the command word (spec/30_encoding.md rules R301, R303 to R305): a word is its
three fields, and it decodes to a command exactly when they are that command's. -/

namespace Sys2Proof.Machine

/-! ### The fields of a word -/

theorem opField_eq (v : Word) : opField v = v.toNat % 2 ^ 8 := by
  rw [opField, BitVec.extractLsb'_toNat, Nat.shiftRight_zero]

theorem kField_eq (v : Word) : kField v = v.toNat / 2 ^ 8 % 2 ^ 8 := by
  rw [kField, BitVec.extractLsb'_toNat, Nat.shiftRight_eq_div_pow]

theorem reservedField_eq (v : Word) : reservedField v = v.toNat / 2 ^ 16 := by
  have hv := v.isLt
  rw [reservedField, BitVec.extractLsb'_toNat, Nat.shiftRight_eq_div_pow]
  omega

theorem kField_lt (v : Word) : kField v < 256 := BitVec.isLt _

/-- A word without reserved bits is `K·256 + OP` of its own fields (R301). -/
theorem ofNat_fields {v : Word} (h : reservedField v = 0) : BitVec.ofNat 64 (kField v * 256 + opField v) = v := by
  rw [reservedField_eq] at h
  have hv : kField v * 256 + opField v = v.toNat := by
    rw [kField_eq, opField_eq]
    omega
  rw [hv, BitVec.ofNat_toNat, BitVec.setWidth_eq]

/-! ### The opcode and the selector of a command -/

/-- The field K is as wide as the selectors of the well-formed commands (R301). -/
theorem wellFormed_iff_selectorOf_lt (i : Instr) : i.WellFormed ↔ selectorOf i < 256 := by
  cases i with
  | const k => exact decide_eq_true_iff
  | limit k => exact decide_eq_true_iff
  | _ => decide

theorem opcodeOf_mem_assignedOpcodes (i : Instr) : opcodeOf i ∈ assignedOpcodes := by
  cases i with
  | const k => exact (by decide : 0x32 ∈ assignedOpcodes)
  | limit k => exact (by decide : 0x33 ∈ assignedOpcodes)
  | _ => decide

theorem opcodeOf_lt (i : Instr) : opcodeOf i < 256 :=
  (by decide : ∀ op ∈ assignedOpcodes, op < 256) _ (opcodeOf_mem_assignedOpcodes i)

/-- CONST and LIMIT alone take a selector (R301). -/
theorem selectorOf_eq_zero_or (i : Instr) : selectorOf i = 0 ∨ opcodeOf i = 0x32 ∨ opcodeOf i = 0x33 := by
  cases i with
  | const k => exact .inr (.inl rfl)
  | limit k => exact .inr (.inr rfl)
  | _ => exact .inl rfl

/-! ### The decoder -/

theorem withoutSelector_eq_ok_iff {i j : Instr} {k : Nat} : withoutSelector i k = .ok j ↔ i = j ∧ k = 0 := by
  unfold withoutSelector
  split_ifs with h <;> simp [h]

theorem decodeFields_opcodeOf_selectorOf (i : Instr) : decodeFields (opcodeOf i) (selectorOf i) = .ok i := by
  cases i <;> rfl

/-- A row of the opcode map gives its own command and no other (R304). -/
theorem decodeFields_eq_ok_iff {op k : Nat} {i : Instr} :
    decodeFields op k = .ok i ↔ opcodeOf i = op ∧ selectorOf i = k := by
  constructor
  · intro h
    unfold decodeFields at h
    split at h
    -- the rows of CONST and LIMIT, the reserved opcodes, and the rows without a selector
    case h_28 | h_29 => cases h; exact ⟨rfl, rfl⟩
    case h_49 => cases h
    all_goals
      obtain ⟨rfl, rfl⟩ := withoutSelector_eq_ok_iff.1 h
      exact ⟨rfl, rfl⟩
  · rintro ⟨rfl, rfl⟩
    exact decodeFields_opcodeOf_selectorOf i

/-- The opcode map gives a command for each assigned OP, with a selector other than 0 for CONST and LIMIT only
(R303, R305). -/
theorem exists_decodeFields_eq_ok_iff {op k : Nat} :
    (∃ i, decodeFields op k = .ok i) ↔ op ∈ assignedOpcodes ∧ (k = 0 ∨ op = 0x32 ∨ op = 0x33) := by
  constructor
  · rintro ⟨i, h⟩
    obtain ⟨rfl, rfl⟩ := decodeFields_eq_ok_iff.1 h
    exact ⟨opcodeOf_mem_assignedOpcodes i, selectorOf_eq_zero_or i⟩
  · rintro ⟨hop, rfl | rfl | rfl⟩
    · have hrows : ∀ op ∈ assignedOpcodes, (decodeFields op 0).isOk = true := by decide
      have hrow := hrows op hop
      cases h : decodeFields op 0 with
      | ok i => exact ⟨i, rfl⟩
      | error e =>
        rw [h] at hrow
        cases hrow
    · exact ⟨.const k, rfl⟩
    · exact ⟨.limit k, rfl⟩

/-- A word decodes to a command exactly when it holds the command's fields and nothing above them (R301, R303). -/
theorem decode_eq_ok_iff {v : Word} {i : Instr} :
    decode v = .ok i ↔ opcodeOf i = opField v ∧ selectorOf i = kField v ∧ reservedField v = 0 := by
  unfold decode
  split_ifs with h
  · simp [h]
  · rw [decodeFields_eq_ok_iff, not_not.1 h]
    simp

theorem exists_decode_eq_ok_iff_validWord (v : Word) : (∃ i, decode v = .ok i) ↔ ValidWord v := by
  unfold decode ValidWord
  rw [← opField_eq, ← kField_eq, ← reservedField_eq]
  split_ifs with h
  · simp [h]
  · rw [exists_decodeFields_eq_ok_iff, not_not.1 h]
    simp

/-! ### Encoding -/

/-- The fields of a well-formed command's word, for all 48 commands (R301). -/
theorem encode_fields (i : Instr) : Laws.WordFields.Statement i :=
  Laws.WordFields.statement_of i (wellFormed_iff_selectorOf_lt i).1 (opcodeOf_lt i)

/-- Settles O1: the word of a command holds the command's fields, and so decodes to it. -/
theorem decodeInvertsEncode : Obligations.DecodeInvertsEncode := by
  unfold Obligations.DecodeInvertsEncode
  intro i hi
  obtain ⟨hop, hk, hres⟩ := encode_fields i hi
  exact decode_eq_ok_iff.2 ⟨hop.symm, hk.symm, hres⟩

/-- Settles O2: a word that decodes holds the command's fields, and is the word of its own fields. -/
theorem encodeInvertsDecode : Obligations.EncodeInvertsDecode := by
  unfold Obligations.EncodeInvertsDecode
  intro v i h
  obtain ⟨hop, hk, hres⟩ := decode_eq_ok_iff.1 h
  constructor
  · rw [wellFormed_iff_selectorOf_lt, hk]
    exact kField_lt v
  · rw [encode, hop, hk]
    exact ofNat_fields hres

/-- Settles O4: the decoder, evaluated on each word. -/
theorem sampleWordsDecode : Obligations.SampleWordsDecode := by
  unfold Obligations.SampleWordsDecode
  decide

end Sys2Proof.Machine
end

section
/-! PROOFS. What a CMD write does (spec/30_encoding.md rules R300, R303): it runs the command its word decodes to, or
reports ILLEGAL_CMD. -/

namespace Sys2Proof.Machine

theorem runCommand_of_decode_ok {v : Word} {i : Instr} (h : decode v = .ok i) (s : State) :
    runCommand v s = exec i { s with cmd := v } := by
  rw [runCommand, h]
  rfl

/-- An invalid word stores itself in CMD and 1 in ST (R1002, log entry 22). -/
theorem runCommand_of_not_validWord {v : Word} (h : ¬ValidWord v) (s : State) :
    runCommand v s = .next { s with cmd := v, st := 1 } := by
  cases hd : decode v with
  | ok i => exact absurd ((exists_decode_eq_ok_iff_validWord v).1 ⟨i, hd⟩) h
  | error e =>
    rw [runCommand, hd]
    rfl

/-- Settles O3: the words that decode by the three fields, the step by the outcome of an invalid CMD write. -/
theorem validityOfCommandWords : Obligations.ValidityOfCommandWords := by
  unfold Obligations.ValidityOfCommandWords
  exact ⟨exists_decode_eq_ok_iff_validWord,
    fun _ _ _ hp hv => (step_cmdWrite hp).trans (runCommand_of_not_validWord hv _)⟩

/-- Settles O5: the step of a CMD write is `runCommand`. -/
theorem stepRunsDecodedCommand : Obligations.StepRunsDecodedCommand := by
  unfold Obligations.StepRunsDecodedCommand
  exact fun _ _ _ _ hp hd => (step_cmdWrite hp).trans (runCommand_of_decode_ok hd _)

end Sys2Proof.Machine
end

section
/-! PROOFS. The fields of a quad as arithmetic on its pattern (spec/40_classify.md rules R400 to R402), and the classifier
commands (R430 to R436). -/

namespace Sys2Proof.Machine

/-! ### The fields by arithmetic -/

theorem quadExp_eq_expOf (q : Quad) : quadExp q = expOf q := by
  rw [quadExp, BitVec.extractLsb'_toNat, Nat.shiftRight_eq_div_pow, expOf]

theorem quadFrac_eq_fracOf (q : Quad) : quadFrac q = fracOf q := by
  rw [quadFrac, BitVec.extractLsb'_toNat, Nat.shiftRight_zero, fracOf]

theorem quadSign_eq_decide (q : Quad) : quadSign q = decide (2 ^ 127 ≤ q.toNat) :=
  (BitVec.msb_eq_getLsbD_last q).symm.trans (BitVec.msb_eq_decide q)

/-- The quiet bit T[111] (R402). -/
theorem getLsbD_111_eq_true_iff (q : Quad) : q.getLsbD 111 = true ↔ 2 ^ 111 ≤ fracOf q := by
  rw [← BitVec.testBit_toNat, Nat.testBit_eq_decide_div_mod_eq, decide_eq_true_iff, fracOf]
  omega

/-- The classes of R401 by the fields as arithmetic. -/
theorem quadClass_eq (q : Quad) :
    quadClass q =
      if expOf q = 0 then (if fracOf q = 0 then .zero else .subnormal)
      else if expOf q ≤ 32766 then .normal
      else if fracOf q = 0 then .infinity
      else if 2 ^ 111 ≤ fracOf q then .quietNaN
      else .signalingNaN := by
  simp only [quadClass, quadExp_eq_expOf, quadFrac_eq_fracOf, getLsbD_111_eq_true_iff]

/-! ### Reporting the class and the fields -/

/-- A predicate's word, by what the predicate says. -/
theorem boolWord_eq_ite {p : Bool} {c : Prop} [Decidable c] (h : p = true ↔ c) : boolWord p = if c then 1 else 0 := by
  simp only [boolWord, h]

/-- Settles O26: the code of each class, and the class by the fields. -/
theorem classifyReportsTheClass : Obligations.ClassifyReportsTheClass := by
  unfold Obligations.ClassifyReportsTheClass
  refine ⟨by decide, fun s => ⟨classCode (quadClass s.a), rfl, ?_⟩⟩
  rw [quadClass_eq]
  refine ⟨fun he ht => ?_, fun he ht => ?_, fun h1 h2 => ?_, fun he ht => ?_, fun he ht => ?_, fun he h0 ht => ?_⟩
  · rw [if_pos he, if_pos ht]
    rfl
  · rw [if_pos he, if_neg ht]
    rfl
  · rw [if_neg (by omega), if_pos h2]
    rfl
  · rw [if_neg (by omega), if_neg (by omega), if_pos ht]
    rfl
  · rw [if_neg (by omega), if_neg (by omega), if_neg (by omega), if_pos ht]
    rfl
  · rw [if_neg (by omega), if_neg (by omega), if_neg h0, if_neg (by omega)]
    rfl

theorem exec_decomp (s : State) :
    exec .decomp s = .next (((s.withRI (BitVec.ofNat 64 (s.a.toNat / 2 ^ 112))).withR
      (BitVec.ofNat 128 (s.a.toNat % 2 ^ 112))).withST 0) := by
  have hexp : (s.a.extractLsb' 112 16).setWidth 64 = BitVec.ofNat 64 (s.a.toNat / 2 ^ 112) := by
    apply BitVec.eq_of_toNat_eq
    have := s.a.isLt
    simp only [BitVec.toNat_setWidth, BitVec.extractLsb'_toNat, Nat.shiftRight_eq_div_pow, BitVec.toNat_ofNat]
    omega
  have hfrac : (s.a.extractLsb' 0 112).setWidth 128 = BitVec.ofNat 128 (s.a.toNat % 2 ^ 112) := by
    apply BitVec.eq_of_toNat_eq
    rw [BitVec.toNat_setWidth, BitVec.extractLsb'_toNat, Nat.shiftRight_zero, BitVec.toNat_ofNat]
  rw [← hexp, ← hfrac]
  rfl

/-- Settles O27: each command's word for RI, by the predicate it reports. -/
theorem fieldCommandsReportTheFields : Obligations.FieldCommandsReportTheFields := by
  unfold Obligations.FieldCommandsReportTheFields
  refine ⟨by decide, by decide, by decide, by decide, by decide, fun s => ?_⟩
  have hword {p : Bool} {c : Prop} [Decidable c] (h : p = true ↔ c) :
      finishRI s (boolWord p) = .next ((s.withRI (if c then 1 else 0)).withST 0) := by
    rw [finishRI_eq, boolWord_eq_ite h]
  rw [← quadExp_eq_expOf, ← quadFrac_eq_fracOf]
  refine ⟨hword ?_, exec_decomp s, hword (isNaN_iff s.a), hword (isInf_iff s.a), hword ?_⟩
  · rw [quadSign_eq_decide, decide_eq_true_iff]
  · rw [isFinite_iff]
    omega

/-! ### Composing a quad -/

/-- The bits of a pattern from `k` up are 0 exactly when it is below 2^k. -/
theorem extractLsb'_top_eq_zero_iff {k n : Nat} (v : BitVec (k + n)) : v.extractLsb' k n = 0 ↔ v.toNat < 2 ^ k := by
  have hlt : v.toNat / 2 ^ k < 2 ^ n := Nat.div_lt_of_lt_mul (Nat.pow_add .. ▸ v.isLt)
  rw [← BitVec.toNat_inj, BitVec.extractLsb'_toNat, Nat.shiftRight_eq_div_pow, Nat.mod_eq_of_lt hlt]
  exact Nat.div_eq_zero_iff_lt (Nat.two_pow_pos k)

/-- When COMPOSE reports BAD_OPERAND (R433). -/
theorem compose_outOfRange_iff (s : State) :
    (s.n.val.extractLsb' 16 48 ≠ 0 ∨ s.a.extractLsb' 112 16 ≠ 0) ↔ 2 ^ 16 ≤ s.n.val.toNat ∨ 2 ^ 112 ≤ s.a.toNat := by
  rw [Ne, Ne, extractLsb'_top_eq_zero_iff (k := 16) (n := 48) s.n.val, extractLsb'_top_eq_zero_iff (k := 112) (n := 16) s.a,
    not_lt, not_lt]

/-- The low fields of two patterns side by side, when nothing lies above them. -/
theorem extractLsb'_append_extractLsb' {n : Word} {a : Quad} (hn : n.toNat < 2 ^ 16) (ha : a.toNat < 2 ^ 112) :
    n.extractLsb' 0 16 ++ a.extractLsb' 0 112 = BitVec.ofNat 128 (n.toNat * 2 ^ 112 + a.toNat) := by
  apply BitVec.eq_of_toNat_eq
  rw [BitVec.toNat_append, BitVec.extractLsb'_toNat, BitVec.extractLsb'_toNat, Nat.shiftRight_zero, Nat.shiftRight_zero,
    Nat.mod_eq_of_lt hn, Nat.mod_eq_of_lt ha, ← Nat.shiftLeft_add_eq_or_of_lt ha, Nat.shiftLeft_eq, BitVec.toNat_ofNat,
    Nat.mod_eq_of_lt (by omega)]

theorem exec_compose_of_inRange {s : State} (hn : s.n.val.toNat < 2 ^ 16) (ha : s.a.toNat < 2 ^ 112) :
    exec .compose s = .next ((s.withR (BitVec.ofNat 128 (s.n.val.toNat * 2 ^ 112 + s.a.toNat))).withST 0) := by
  rw [← extractLsb'_append_extractLsb' hn ha]
  exact if_neg ((compose_outOfRange_iff s).not.2 (by omega))

theorem exec_compose_of_outOfRange {s : State} (h : 2 ^ 16 ≤ s.n.val.toNat ∨ 2 ^ 112 ≤ s.a.toNat) :
    exec .compose s = .next (s.withST 2) :=
  if_pos ((compose_outOfRange_iff s).2 h)

/-- COMPOSE puts together what DECOMP took apart (R433). -/
theorem exec_compose_of_exec_decomp {s t s' : State} (h : exec .decomp s = .next t) (hn : s'.n.val = t.ri.val)
    (ha : s'.a = t.r) : exec .compose s' = .next ((s'.withR s.a).withST 0) := by
  have hlt := s.a.isLt
  rw [exec_decomp] at h
  cases h
  have hn' : s'.n.val.toNat = s.a.toNat / 2 ^ 112 := by
    rw [hn, State.withST_ri, State.withR_ri, State.withRI_ri, Reg.of_val, BitVec.toNat_ofNat, Nat.mod_eq_of_lt (by omega)]
  have ha' : s'.a.toNat = s.a.toNat % 2 ^ 112 := by
    rw [ha, State.withST_r, State.withR_r, BitVec.toNat_ofNat, Nat.mod_eq_of_lt (by omega)]
  rw [exec_compose_of_inRange (by omega) (by omega), hn', ha', Nat.div_add_mod', BitVec.ofNat_toNat, BitVec.setWidth_eq]

/-- Settles O28: in range, out of range, and after a DECOMP, whose fields are in range. -/
theorem composeBuildsTheQuad : Obligations.ComposeBuildsTheQuad := by
  unfold Obligations.ComposeBuildsTheQuad
  exact ⟨by decide, fun _ => exec_compose_of_inRange, fun _ => exec_compose_of_outOfRange,
    fun _ _ _ => exec_compose_of_exec_decomp⟩

end Sys2Proof.Machine
end

section
/-! PROOFS. The normalizer and the rounder (spec/40_classify.md rules R420 to R423): both give back the significand and
the unit of a finite quad, and the rounder's value is the nearest multiple of a quantum that every other value of at
least that unit is a multiple of. -/

namespace Sys2Proof.Machine

/-! ### The normalizer -/

theorem log_ratCast {x : ℚ} (hx : 0 < x) : Int.log 2 (x : ℝ) = Int.log 2 x := by
  refine eq_of_forall_le_iff fun k => ?_
  rw [← Int.zpow_le_iff_le_log (by decide) hx, ← Int.zpow_le_iff_le_log (by decide) (by exact_mod_cast hx)]
  rw [← Rat.cast_le (K := ℝ)]
  push_cast
  rfl

theorem log2_significand_of_normal {q : Quad} (he : quadExp q ≠ 0) : (significand q).log2 = 112 := by
  have hf := quadFrac_lt q
  rw [significand, if_neg he, Nat.log2_eq_iff (by omega)]
  omega

/-- The normalizer moves the significand's top bit to bit 112 and lowers the exponent by as much (R420). -/
theorem normalize_eq {q : Quad} (hz : isZero q = false) :
    normalize q = (quadSign q, significand q * 2 ^ (112 - (significand q).log2),
      unitExp q + 112 - (112 - (significand q).log2 : ℕ)) := by
  by_cases he : quadExp q = 0
  · have hp := significand_pos hz
    have hu : unitExp q = -16494 := by rw [unitExp, he]; rfl
    rw [hu]
    rw [significand, if_pos he] at hp ⊢
    rw [normalize, if_pos he, bitLength, if_neg hp.ne', Nat.shiftLeft_eq, Nat.add_sub_add_right 112 1]
    congr 2
  · have hu : unitExp q = (quadExp q : ℤ) - 16495 := by rw [unitExp, max_eq_left (by omega)]
    rw [log2_significand_of_normal he, hu, normalize, if_neg he, significand, if_neg he]
    congr 2 <;> omega

theorem log2_significand_le (q : Quad) : (significand q).log2 ≤ 112 := by
  rcases Nat.eq_zero_or_pos (significand q) with h | h
  · rw [h]
    exact Nat.zero_le _
  · exact Nat.lt_succ_iff.1 ((Nat.log2_lt h.ne').2 (significand_lt q))

/-- Settles O25: the normalized significand has its top bit set, and the two shifts cancel. -/
theorem normalizerIsExact : Obligations.NormalizerIsExact := by
  unfold Obligations.NormalizerIsExact
  intro q _ hz
  have hp := significand_pos hz
  have hlog := log2_significand_le q
  rw [normalize_eq hz]
  dsimp only
  generalize hL : 112 - (significand q).log2 = L
  generalize hM : significand q * 2 ^ L = M
  have hlo : 2 ^ 112 ≤ M := by
    rw [show 112 = (significand q).log2 + L by omega, pow_add, ← hM]
    exact Nat.mul_le_mul_right _ (Nat.log2_self_le hp.ne')
  have hhi : M < 2 ^ 113 := by
    rw [show 113 = (significand q).log2 + 1 + L by omega, pow_add, ← hM]
    exact Nat.mul_lt_mul_of_pos_right Nat.lt_log2_self (Nat.two_pow_pos L)
  have hval : |val q| = (M : ℚ) * 2 ^ (unitExp q + 112 - L - 112) := by
    rw [abs_val_eq_significand, ← hM, Nat.cast_mul, mul_assoc, Nat.cast_pow, ← zpow_natCast, Nat.cast_ofNat,
      ← zpow_add₀ two_ne_zero]
    congr 2
    ring
  refine ⟨rfl, hlo, hhi, hval, ?_⟩
  have hpos : 0 < |val q| := abs_pos.2 ((val_eq_zero_iff q).not.2 (by rw [hz]; decide))
  rw [← log_ratCast hpos, hval]
  push_cast
  rw [log_mul_zpow 112 _ hlo hhi]
  push_cast
  ring

/-! ### RoundPack over fractions and over the reals -/

theorem roundPackReal_zero (s : Bool) : roundPackReal s 0 = signedZero s := by
  rw [roundPackReal, if_pos rfl]

theorem roundPackReal_of_pos (s : Bool) {v : ℝ} (hv : 0 < v) :
    roundPackReal s v =
      packRounded s (quantumExp (Int.log 2 v)) (rneReal (v / 2 ^ quantumExp (Int.log 2 v))) := by
  rw [roundPackReal, if_neg hv.ne']

/-- A fraction over a power of two is a fraction. -/
theorem div_div_two_zpow (n d : ℕ) (k : ℤ) :
    (n : ℝ) / d / 2 ^ k = ((n * 2 ^ (-k).toNat : ℕ) : ℝ) / ((d * 2 ^ k.toNat : ℕ) : ℝ) := by
  have hk : (2 : ℝ) ^ k = 2 ^ k.toNat / 2 ^ (-k).toNat := by
    rw [← zpow_natCast, ← zpow_natCast, ← zpow_sub₀ two_ne_zero]
    congr 1
    omega
  rw [hk]
  push_cast
  field_simp

/-- The machine's rounder is RoundPack of the fraction's value (R421). -/
theorem roundPack_eq_roundPackReal (s : Bool) (n : ℕ) {d : ℕ} (hd : 0 < d) :
    roundPack s n d = roundPackReal s ((n : ℝ) / d) := by
  rcases Nat.eq_zero_or_pos n with rfl | hn
  · rw [Nat.cast_zero, zero_div, roundPackReal_zero, roundPack, if_pos rfl]
  · have hv : (0 : ℝ) < (n : ℝ) / d := div_pos (Nat.cast_pos.2 hn) (Nat.cast_pos.2 hd)
    rw [roundPackReal_of_pos s hv, div_div_two_zpow, rneReal_div (Nat.mul_pos hd (Nat.two_pow_pos _)),
      ← floorLog2_eq_log hn hd, roundPack, if_neg hn.ne']

theorem log_eq_of_bounds {v : ℝ} {e : ℤ} (h1 : (2 : ℝ) ^ e ≤ v) (h2 : v < 2 ^ (e + 1)) : Int.log 2 v = e := by
  have hv : 0 < v := (zpow_pos two_pos e).trans_le h1
  have hlo := (Int.zpow_le_iff_le_log (b := 2) (by decide) hv).1 (by exact_mod_cast h1)
  have hhi := (Int.lt_zpow_iff_log_lt (b := 2) (by decide) hv).1 (by exact_mod_cast h2)
  omega

/-- The last four lines of R421, on the bit fields. -/
theorem packQuantum_eq_fields (s : Bool) {qe : ℤ} (hqe : -16495 ≤ qe) (m : ℕ) :
    packQuantum s qe m =
      if 16271 < qe then BitVec.ofBool s ++ 0x7FFF#15 ++ 0#112
      else if (m : ℤ) = 0 then BitVec.ofBool s ++ 0#127
      else if (m : ℤ) < 2 ^ 112 then BitVec.ofBool s ++ 0#15 ++ BitVec.ofInt 112 m
      else BitVec.ofBool s ++ BitVec.ofInt 15 (qe + 16495) ++ BitVec.ofInt 112 (m - 2 ^ 112) := by
  have hzero : signedZero s = BitVec.ofBool s ++ 0#127 := by cases s <;> decide
  unfold packQuantum
  refine if_congr Iff.rfl rfl (if_ctx_congr (by omega) (fun _ => hzero) fun _ => if_ctx_congr (by omega) ?_ ?_)
  · intro h
    rw [BitVec.ofInt_natCast]
    rfl
  · intro h
    rw [mkQuad, ← BitVec.ofInt_natCast, ← BitVec.ofInt_natCast, Int.toNat_of_nonneg (by omega), Nat.cast_sub (by omega)]
    push_cast
    rfl

/-- Settles O21: the fraction's rounder, the zero, R421 by its two last steps, and R422. -/
theorem roundPackFollowsTheRealRule : Obligations.RoundPackFollowsTheRealRule := by
  unfold Obligations.RoundPackFollowsTheRealRule
  refine ⟨fun s n d => roundPack_eq_roundPackReal s n, fun s => ?_, fun s v e m qe h1 h2 hm => ?_, fun x => rneReal_spec⟩
  · rw [roundPackReal_zero]
    cases s <;> decide
  · rw [roundPackReal_of_pos s ((zpow_pos two_pos e).trans_le h1), log_eq_of_bounds h1 h2, packRounded]
    change (m, qe) = if rneReal (v / 2 ^ quantumExp e) = 2 ^ 113 then (2 ^ 112, quantumExp e + 1)
      else ((rneReal (v / 2 ^ quantumExp e) : ℤ), quantumExp e) at hm
    have hq : -16494 ≤ quantumExp e := by unfold quantumExp; omega
    by_cases hc : rneReal (v / 2 ^ quantumExp e) = 2 ^ 113
    · rw [if_pos hc] at hm ⊢
      obtain ⟨rfl, rfl⟩ := Prod.mk.inj hm
      exact_mod_cast packQuantum_eq_fields s (by omega) (2 ^ 112)
    · rw [if_neg hc] at hm ⊢
      obtain ⟨rfl, rfl⟩ := Prod.mk.inj hm
      exact packQuantum_eq_fields s (by omega) _

/-! ### Exact results -/

/-- A finite quad is what R421 packs from its own unit and significand (R400, R403). -/
theorem packQuantum_significand {q : Quad} (hf : isFinite q = true) :
    packQuantum (quadSign q) (unitExp q) (significand q) = q := by
  have he := (isFinite_iff q).1 hf
  have ht := quadFrac_lt q
  have hfields := mkQuad_fields q
  rw [packQuantum, if_neg (by unfold unitExp; omega)]
  by_cases hz : quadExp q = 0
  · rw [significand, if_pos hz, if_pos ht]
    rw [hz] at hfields
    split_ifs with h0
    · rwa [h0] at hfields
    · exact hfields
  · rw [significand, if_neg hz, if_neg (by omega), if_neg (by omega), Nat.add_sub_cancel_left,
      show (unitExp q + 16495).toNat = quadExp q by unfold unitExp; omega]
    exact hfields

/-- Settles O22: RoundPack chooses the quad's own unit, of which the value is a whole number. -/
theorem roundPackIsExactOnQuads : Obligations.RoundPackIsExactOnQuads := by
  unfold Obligations.RoundPackIsExactOnQuads
  intro q hf
  by_cases hz : isZero q = true
  · rw [valReal, val_of_isZero hz, Rat.cast_zero, abs_zero, roundPackReal_zero]
    exact ((isZero_iff_eq q).1 hz).symm
  · rw [Bool.not_eq_true] at hz
    have hunit : (0 : ℝ) < 2 ^ unitExp q := zpow_pos two_pos _
    have hpos : 0 < |valReal q| := by
      rw [abs_valReal_eq_significand]
      exact mul_pos (Nat.cast_pos.2 (significand_pos hz)) hunit
    rw [roundPackReal_of_pos _ hpos, quantumExp_log_abs_valReal hz, abs_valReal_eq_significand,
      mul_div_cancel_right₀ _ hunit.ne', rneReal_natCast, packRounded, if_neg (significand_lt q).ne,
      packQuantum_significand hf]

/-! ### The nearest quad -/

/-- No integer is nearer to x than `RNE_int(x)`, and it is even when another is as near (R422). -/
theorem rneReal_nearest {x : ℝ} (hx : 0 ≤ x) (n : ℕ) :
    |x - rneReal x| ≤ |x - n| ∧ (|x - rneReal x| = |x - n| → (n : ℝ) ≠ rneReal x → rneReal x % 2 = 0) := by
  obtain ⟨hhalf, heven⟩ := rneReal_spec hx
  by_cases hn : n = rneReal x
  · rw [hn]
    exact ⟨le_rfl, fun _ h => absurd rfl h⟩
  · have hone : (1 : ℝ) ≤ |(n : ℝ) - rneReal x| := by
      have : (1 : ℤ) ≤ |(n : ℤ) - rneReal x| := Int.one_le_abs (by omega)
      exact_mod_cast this
    have htri : |(n : ℝ) - rneReal x| ≤ |x - rneReal x| + |x - n| := by
      rw [abs_sub_comm x n, add_comm]
      exact abs_sub_le _ _ _
    exact ⟨by linarith, fun h _ => heven (le_antisymm hhalf (by linarith))⟩

/-- The same against the magnitude of any quad, in v's own quanta: it is a whole number of them, or it lies below the
binade of v (R421). -/
theorem rneReal_nearest_abs_valReal {v : ℝ} (hv : 0 < v) (p : Quad) {x y : ℝ}
    (hx : x = v / 2 ^ quantumExp (Int.log 2 v)) (hy : y = |valReal p| / 2 ^ quantumExp (Int.log 2 v)) :
    |x - rneReal x| ≤ |x - y| ∧ (|x - rneReal x| = |x - y| → y ≠ rneReal x → rneReal x % 2 = 0) := by
  obtain ⟨hpos, -, hmin, hnormal⟩ := div_quantum_bounds hv
  rw [← hx] at hpos hnormal
  generalize quantumExp (Int.log 2 v) = k at *
  have hyk : y = significand p * 2 ^ (unitExp p - k) := by
    rw [hy, abs_valReal_eq_significand, zpow_sub₀ two_ne_zero, mul_div_assoc]
  rcases le_or_gt k (unitExp p) with hk | hk
  · have hwhole : y = (significand p * 2 ^ (unitExp p - k).toNat : ℕ) := by
      rw [hyk]
      push_cast
      rw [← zpow_natCast, Int.toNat_of_nonneg (by omega)]
    rw [hwhole]
    exact rneReal_nearest hpos.le _
  · have hx112 : (2 : ℝ) ^ 112 ≤ x := hnormal.resolve_left (by unfold unitExp at hk; omega)
    have hy112 : y < 2 ^ 112 := by
      have hsig : (significand p : ℝ) < 2 ^ 113 := by exact_mod_cast significand_lt p
      have hhalf : (2 : ℝ) ^ (unitExp p - k) ≤ 2 ^ (-1 : ℤ) := zpow_le_zpow_right₀ one_le_two (by omega)
      rw [hyk]
      calc (significand p : ℝ) * 2 ^ (unitExp p - k)
          ≤ significand p * 2 ^ (-1 : ℤ) := mul_le_mul_of_nonneg_left hhalf (Nat.cast_nonneg _)
        _ < 2 ^ 113 * 2 ^ (-1 : ℤ) := mul_lt_mul_of_pos_right hsig (by norm_num)
        _ = 2 ^ 112 := by norm_num
    have hlt : |x - rneReal x| < |x - y| := by
      have h := (rneReal_nearest hpos.le (2 ^ 112)).1
      rw [Nat.cast_pow, Nat.cast_ofNat] at h
      rw [abs_of_nonneg (by linarith : 0 ≤ x - 2 ^ 112)] at h
      rw [abs_of_pos (by linarith : 0 < x - y)]
      linarith
    exact ⟨hlt.le, fun h => absurd h hlt.ne⟩

/-- A packed even integer has an even fraction (R421). -/
theorem quadFrac_packRounded_even (s : Bool) (qe : ℤ) {m : ℕ} (hm : m ≤ 2 ^ 113) (heven : m % 2 = 0) :
    quadFrac (packRounded s qe m) % 2 = 0 := by
  have hpack : ∀ (k : ℤ) (n : ℕ), n < 2 ^ 113 → n % 2 = 0 → quadFrac (packQuantum s k n) % 2 = 0 := by
    intro k n hn h
    unfold packQuantum signedInf signedZero
    split_ifs <;> rw [quadFrac_mkQuad _ _ _ (by omega)]
    · exact h
    · omega
  unfold packRounded
  split_ifs with hc
  · exact hpack _ _ (by norm_num) (by norm_num)
  · exact hpack _ _ (by omega) heven

theorem isFinite_roundPackReal (s : Bool) {v : ℝ} (hv : 0 ≤ v) (h : v < (2 : ℝ) ^ (16384 : ℤ) - 2 ^ (16270 : ℤ)) :
    isFinite (roundPackReal s v) = true := by
  rcases hv.eq_or_lt with rfl | hv
  · rw [roundPackReal_zero]
    exact isFinite_of_isZero (isZero_signedZero s)
  · exact (roundPackReal_value s hv h).1

/-- Below the overflow threshold no quad's magnitude is nearer to v than RoundPack's, and RoundPack's fraction is even
when another magnitude is as near (R421, R422). -/
theorem roundPackReal_nearest (s : Bool) {v : ℝ} (hv : 0 ≤ v) (h : v < (2 : ℝ) ^ (16384 : ℤ) - 2 ^ (16270 : ℤ))
    (p : Quad) :
    |(|valReal (roundPackReal s v)| - v)| ≤ |(|valReal p| - v)| ∧
      (|(|valReal (roundPackReal s v)| - v)| = |(|valReal p| - v)| →
        |valReal p| ≠ |valReal (roundPackReal s v)| → fracOf (roundPackReal s v) % 2 = 0) := by
  rcases hv.eq_or_lt with rfl | hv
  · have hzero : |valReal (roundPackReal s 0)| = 0 := by
      rw [roundPackReal_zero, valReal, val_of_isZero (isZero_signedZero s), Rat.cast_zero, abs_zero]
    rw [hzero, sub_zero, sub_zero, abs_zero, abs_abs]
    exact ⟨abs_nonneg _, fun h0 hne => absurd h0.symm hne⟩
  · have hq : (0 : ℝ) < 2 ^ quantumExp (Int.log 2 v) := zpow_pos two_pos _
    obtain ⟨hle, heven⟩ := rneReal_nearest_abs_valReal hv p rfl rfl
    have hscale (a : ℝ) : |a - v| = |v / 2 ^ quantumExp (Int.log 2 v) - a / 2 ^ quantumExp (Int.log 2 v)| *
        2 ^ quantumExp (Int.log 2 v) := by
      rw [← sub_div, abs_div, abs_of_pos hq, div_mul_cancel₀ _ hq.ne', abs_sub_comm]
    have hval : |valReal (roundPackReal s v)| / 2 ^ quantumExp (Int.log 2 v) =
        rneReal (v / 2 ^ quantumExp (Int.log 2 v)) := by
      rw [(roundPackReal_value s hv h).2, mul_div_cancel_right₀ _ hq.ne']
    rw [hscale |valReal (roundPackReal s v)|, hscale |valReal p|, hval, mul_left_inj' hq.ne']
    refine ⟨mul_le_mul_of_nonneg_right hle hq.le, fun heq hne => ?_⟩
    rw [← quadFrac_eq_fracOf, roundPackReal_of_pos s hv]
    refine quadFrac_packRounded_even s _ (rneReal_quantum_bounds hv).1 (heven heq fun h => hne ?_)
    rwa [← hval, div_left_inj' hq.ne'] at h

/-- Settles O24: `roundPackReal_nearest` with the sign of RoundPack. -/
theorem roundPackIsNearest : Obligations.RoundPackIsNearest := by
  unfold Obligations.RoundPackIsNearest
  exact fun s v hv h => ⟨isFinite_roundPackReal s hv h, roundPackReal_sign s v, fun p _ => roundPackReal_nearest s hv h p⟩

/-! ### Overflow, underflow and monotony -/

theorem rneReal_eq_zero_iff {x : ℝ} (hx : 0 ≤ x) : rneReal x = 0 ↔ x ≤ 1 / 2 := by
  constructor
  · intro h
    have hspec := (rneReal_spec hx).1
    rwa [h, Nat.cast_zero, sub_zero, abs_of_nonneg hx] at hspec
  · intro h
    have hhalf : rneReal (1 / 2) = 0 := by
      have := rneReal_div (n := 1) (d := 2) two_pos
      push_cast at this
      exact this
    have hmono := rneReal_mono hx h
    omega

/-- Where RoundPack overflows (R423 (b)). -/
theorem isInf_roundPackReal_iff (s : Bool) {v : ℝ} (hv : 0 ≤ v) :
    isInf (roundPackReal s v) = true ↔ (2 : ℝ) ^ (16384 : ℤ) - 2 ^ (16270 : ℤ) ≤ v := by
  constructor
  · intro hinf
    by_contra h
    rw [not_inf_of_finite (isFinite_roundPackReal s hv (not_le.1 h))] at hinf
    cases hinf
  · intro h
    rw [roundPackReal_of_overflow s h]
    exact isInf_signedInf s

theorem two_zpow_neg_16495_lt_threshold : (2 : ℝ) ^ (-16495 : ℤ) < (2 : ℝ) ^ (16384 : ℤ) - 2 ^ (16270 : ℤ) := by
  have h1 : (2 : ℝ) ^ (16384 : ℤ) = 2 ^ (114 : ℤ) * 2 ^ (16270 : ℤ) := by rw [← zpow_add₀ two_ne_zero]; rfl
  have h2 : (2 : ℝ) ^ (-16495 : ℤ) < 2 ^ (16270 : ℤ) := zpow_lt_zpow_right₀ one_lt_two (by decide)
  have h3 : (2 : ℝ) ≤ 2 ^ (114 : ℤ) := by norm_num
  rw [h1, ← sub_one_mul]
  refine h2.trans_le (le_mul_of_one_le_left (zpow_pos two_pos _).le ?_)
  linarith

/-- A value below the overflow threshold rounds to a zero when it is at most half its quantum (R421). -/
theorem isZero_roundPackReal_iff_quantum (s : Bool) {v : ℝ} (hv : 0 < v)
    (h : v < (2 : ℝ) ^ (16384 : ℤ) - 2 ^ (16270 : ℤ)) :
    isZero (roundPackReal s v) = true ↔ v / 2 ^ quantumExp (Int.log 2 v) ≤ 1 / 2 := by
  have hq : (0 : ℝ) < 2 ^ quantumExp (Int.log 2 v) := zpow_pos two_pos _
  rw [← rneReal_eq_zero_iff (div_pos hv hq).le, ← val_eq_zero_iff, ← Rat.cast_eq_zero (α := ℝ), ← abs_eq_zero]
  change |valReal (roundPackReal s v)| = 0 ↔ _
  rw [(roundPackReal_value s hv h).2, mul_eq_zero_iff_right hq.ne', Nat.cast_eq_zero]

/-- Where RoundPack underflows (R423 (c)). -/
theorem isZero_roundPackReal_iff (s : Bool) {v : ℝ} (hv : 0 ≤ v) :
    isZero (roundPackReal s v) = true ↔ v ≤ 2 ^ (-16495 : ℤ) := by
  rcases hv.eq_or_lt with rfl | hv
  · rw [roundPackReal_zero]
    exact iff_of_true (isZero_signedZero s) (zpow_pos two_pos _).le
  rcases le_or_gt ((2 : ℝ) ^ (16384 : ℤ) - 2 ^ (16270 : ℤ)) v with h | h
  · rw [roundPackReal_of_overflow s h]
    refine iff_of_false ?_ (not_le.2 (two_zpow_neg_16495_lt_threshold.trans_le h))
    cases s <;> decide
  · rw [isZero_roundPackReal_iff_quantum s hv h]
    -- either side puts v in a binade whose quantum is the smallest
    have hsmall : quantumExp (Int.log 2 v) = -16494 →
        (v / 2 ^ quantumExp (Int.log 2 v) ≤ 1 / 2 ↔ v ≤ 2 ^ (-16495 : ℤ)) := by
      intro hk
      rw [hk, div_le_iff₀ (zpow_pos two_pos _), one_div, ← zpow_neg_one, ← zpow_add₀ two_ne_zero]
      rfl
    constructor
    · intro hx
      refine (hsmall ?_).1 hx
      refine (div_quantum_bounds hv).2.2.2.resolve_right fun hbig => ?_
      have : (1 : ℝ) / 2 < 2 ^ 112 := by norm_num
      linarith
    · intro hle
      refine (hsmall ?_).2 hle
      have hlog := Int.log_mono_right (b := 2) hv hle
      have hzpow : Int.log 2 ((2 : ℝ) ^ (-16495 : ℤ)) = -16495 :=
        log_eq_of_bounds le_rfl (zpow_lt_zpow_right₀ one_lt_two (by decide))
      unfold quantumExp
      omega

theorem extReal_roundPackReal_of_lt {v : ℝ} (hv : 0 ≤ v) (h : v < (2 : ℝ) ^ (16384 : ℤ) - 2 ^ (16270 : ℤ)) :
    extReal (roundPackReal false v) = (|valReal (roundPackReal false v)| : ℝ) := by
  have hpos : 0 ≤ val (roundPackReal false v) := by
    rw [← not_lt, val_lt_zero_iff, roundPackReal_sign]
    exact fun h => Bool.false_ne_true h.1
  rw [extReal, not_inf_of_finite (isFinite_roundPackReal false hv h), abs_of_nonneg (Rat.cast_nonneg.2 hpos)]
  rfl

/-- Below the overflow threshold RoundPack is monotone: two nearest points cannot cross (R423 (d)). -/
theorem abs_valReal_roundPackReal_mono (s : Bool) {v w : ℝ} (hv : 0 ≤ v) (hvw : v ≤ w)
    (h : w < (2 : ℝ) ^ (16384 : ℤ) - 2 ^ (16270 : ℤ)) :
    |valReal (roundPackReal s v)| ≤ |valReal (roundPackReal s w)| := by
  rcases hvw.eq_or_lt with rfl | hlt
  · exact le_rfl
  have h1 := sq_le_sq.2 (roundPackReal_nearest s hv (hvw.trans_lt h) (roundPackReal s w)).1
  have h2 := sq_le_sq.2 (roundPackReal_nearest s (hv.trans hvw) h (roundPackReal s v)).1
  by_contra hcross
  have := mul_pos (sub_pos.2 (not_le.1 hcross)) (sub_pos.2 hlt)
  nlinarith

/-- RoundPack of sign + is monotone (R423 (d)). -/
theorem extReal_roundPackReal_mono {v w : ℝ} (hv : 0 ≤ v) (hvw : v ≤ w) :
    extReal (roundPackReal false v) ≤ extReal (roundPackReal false w) := by
  rcases le_or_gt ((2 : ℝ) ^ (16384 : ℤ) - 2 ^ (16270 : ℤ)) w with h | h
  · have htop : extReal (signedInf false) = ⊤ := by
      rw [extReal, if_pos (isInf_signedInf false), quadSign_signedInf, if_neg Bool.false_ne_true]
    rw [roundPackReal_of_overflow false h, htop]
    exact le_top
  · rw [extReal_roundPackReal_of_lt hv (hvw.trans_lt h), extReal_roundPackReal_of_lt (hv.trans hvw) h]
    exact EReal.coe_le_coe_iff.2 (abs_valReal_roundPackReal_mono false hv hvw h)

/-- Settles O23, clause by clause. -/
theorem roundPackThresholdsAndMonotony : Obligations.RoundPackThresholdsAndMonotony := by
  unfold Obligations.RoundPackThresholdsAndMonotony
  exact ⟨fun s _ hv => ⟨isInf_roundPackReal_iff s hv, isZero_roundPackReal_iff s hv⟩,
    fun _ _ => extReal_roundPackReal_mono⟩

end Sys2Proof.Machine
end

section
/-! PROOFS. The NaN results (spec/40_classify.md rules R424, R425): what each function that gives a quad does with a NaN
operand, that the NaNs it gives are quiet ones, and from it the same of every command. -/

namespace Sys2Proof.Machine

/-- A result that is a NaN only where it is a quiet one (R425). -/
def QuietIfNaN (q : Quad) : Prop := isNaN q = true → quadClass q = .quietNaN

/-- R424 and R425 of a result: it is a NaN when `operandNaN` says that a quad operand is one, and any NaN it is, is
quiet. -/
structure NaNRule (operandNaN : Bool) (q : Quad) : Prop where
  isNaN_of_operand : operandNaN = true → isNaN q = true
  quiet : QuietIfNaN q

theorem NaNRule.quadClass_eq {operandNaN : Bool} {q : Quad} (h : NaNRule operandNaN q) (ho : operandNaN = true) :
    quadClass q = .quietNaN :=
  h.quiet (h.isNaN_of_operand ho)

/-! ### Results that meet the rule -/

theorem isNaN_of_quiet {q : Quad} (h : quadClass q = .quietNaN) : isNaN q = true := by rw [isNaN, h]

theorem isFinite_of_not_nan_not_inf {q : Quad} (hn : isNaN q = false) (hi : isInf q = false) : isFinite q = true := by
  rcases quad_trichotomy q with ⟨h, -⟩ | ⟨-, h, -⟩ | ⟨-, -, h⟩
  · rw [hn] at h
    cases h
  · rw [hi] at h
    cases h
  · exact h

theorem isInf_eq_false_of_ne {q : Quad} (hpos : q ≠ signedInf false) (hneg : q ≠ signedInf true) : isInf q = false := by
  rw [← Bool.not_eq_true, isInf_iff_eq]
  cases quadSign q
  · exact hpos
  · exact hneg

theorem isNaN_flipSign (q : Quad) : isNaN (flipSign q) = isNaN q := by
  obtain ⟨-, he, ht⟩ := flipSign_fields q
  rw [Bool.eq_iff_iff, isNaN_iff, isNaN_iff, he, ht]

theorem isNaN_clearSign (q : Quad) : isNaN (clearSign q) = isNaN q := by
  obtain ⟨-, he, ht⟩ := clearSign_fields q
  rw [Bool.eq_iff_iff, isNaN_iff, isNaN_iff, he, ht]

theorem quietIfNaN_of_not_nan {q : Quad} (h : isNaN q = false) : QuietIfNaN q := by simp [QuietIfNaN, h]

theorem quietIfNaN_of_quiet {q : Quad} (h : quadClass q = .quietNaN) : QuietIfNaN q := fun _ => h

theorem quietIfNaN_ite {c : Prop} [Decidable c] {p q : Quad} (hp : c → QuietIfNaN p) (hq : ¬c → QuietIfNaN q) :
    QuietIfNaN (if c then p else q) := by
  split_ifs with h
  · exact hp h
  · exact hq h

@[simp] theorem quietIfNaN_signedZero (s : Bool) : QuietIfNaN (signedZero s) := quietIfNaN_of_not_nan (isNaN_signedZero s)

@[simp] theorem quietIfNaN_signedInf (s : Bool) : QuietIfNaN (signedInf s) := quietIfNaN_of_not_nan (isNaN_signedInf s)

@[simp] theorem quietIfNaN_signedOne (s : Bool) : QuietIfNaN (signedOne s) :=
  quietIfNaN_of_not_nan (not_nan_of_finite (isFinite_signedOne s))

theorem quietIfNaN_roundPack (s : Bool) (n d : Nat) : QuietIfNaN (roundPack s n d) :=
  quietIfNaN_of_not_nan (roundPack_not_nan s n d)

theorem quietIfNaN_withSign (s : Bool) {q : Quad} (h : isNaN q = false) : QuietIfNaN (withSign s q) :=
  quietIfNaN_of_not_nan ((isNaN_withSign s q).trans h)

theorem quietIfNaN_fn {f : Fn} {a b : Quad} (h : ordinaryInput f a b = true) : QuietIfNaN (Config.fn f a b) :=
  quietIfNaN_of_not_nan (Config.fn_not_nan h)

/-- The table's value at a finite nonzero input of a function whose only special inputs are the others (R802, R803). -/
theorem quietIfNaN_fn1 {f : Fn} {a : Quad}
    (hf : ∀ b, ordinaryInput f a b = (isFinite a && isFinite b && !isZero a)) (hnan : isNaN a = false)
    (hinf : isInf a = false) (hz : isZero a = false) : QuietIfNaN (fn1 Config.fn f a) := by
  refine quietIfNaN_fn ?_
  rw [hf, isFinite_of_not_nan_not_inf hnan hinf, hz]
  decide

section

variable {nan : Quad} (hn : quadClass nan = .quietNaN)
include hn

/-- The shape of every result: the delivered NaN for a NaN operand, before anything else (R424, R803). -/
theorem nanRule_ite {operandNaN : Bool} {q : Quad} (h : operandNaN = false → QuietIfNaN q) :
    NaNRule operandNaN (if operandNaN then nan else q) := by
  cases operandNaN with
  | true => exact ⟨fun _ => isNaN_of_quiet hn, quietIfNaN_of_quiet hn⟩
  | false => exact ⟨fun h => absurd h Bool.false_ne_true, h rfl⟩

/-! ### Arithmetic -/

theorem addQuad_nanRule (a b : Quad) : NaNRule (isNaN a || isNaN b) (addQuad nan a b) := by
  refine nanRule_ite hn fun hnan => ?_
  obtain ⟨ha, hb⟩ := Bool.or_eq_false_iff.1 hnan
  split_ifs
  · exact quietIfNaN_of_not_nan ha
  · exact quietIfNaN_of_quiet hn
  · exact quietIfNaN_of_not_nan ha
  · exact quietIfNaN_of_not_nan hb
  · exact quietIfNaN_roundPack _ _ _
  · exact quietIfNaN_of_not_nan ha
  · exact quietIfNaN_signedZero _

theorem mulQuad_nanRule (a b : Quad) : NaNRule (isNaN a || isNaN b) (mulQuad nan a b) := by
  refine nanRule_ite hn fun _ => ?_
  split_ifs
  · exact quietIfNaN_of_quiet hn
  · exact quietIfNaN_signedInf _
  · exact quietIfNaN_roundPack _ _ _

theorem divQuad_nanRule (a b : Quad) : NaNRule (isNaN a || isNaN b) (divQuad nan a b) := by
  refine nanRule_ite hn fun _ => ?_
  split_ifs
  · exact quietIfNaN_of_quiet hn
  · exact quietIfNaN_signedInf _
  · exact quietIfNaN_signedZero _
  · exact quietIfNaN_of_quiet hn
  · exact quietIfNaN_signedInf _
  · exact quietIfNaN_roundPack _ _ _

theorem floorQuad_nanRule (a : Quad) : NaNRule (isNaN a) (floorQuad nan a) := by
  refine nanRule_ite hn fun ha => ?_
  split_ifs
  · exact quietIfNaN_of_not_nan ha
  · exact quietIfNaN_signedZero _
  · exact quietIfNaN_roundPack _ _ _

theorem ceilQuad_nanRule (a : Quad) : NaNRule (isNaN a) (ceilQuad nan a) := by
  refine nanRule_ite hn fun ha => ?_
  split_ifs
  · exact quietIfNaN_of_not_nan ha
  · exact quietIfNaN_signedZero _
  · exact quietIfNaN_roundPack _ _ _

theorem modQuad_nanRule (a b : Quad) : NaNRule (isNaN a || isNaN b) (modQuad nan a b) := by
  refine nanRule_ite hn fun hnan => ?_
  split_ifs
  · exact quietIfNaN_of_quiet hn
  · exact quietIfNaN_of_not_nan (Bool.or_eq_false_iff.1 hnan).1
  · exact quietIfNaN_roundPack _ _ _

theorem moduloQuad_nanRule (a b : Quad) : NaNRule (isNaN a || isNaN b) (moduloQuad nan a b) := by
  refine nanRule_ite hn fun hnan => ?_
  dsimp only
  split_ifs
  · exact quietIfNaN_of_quiet hn
  · exact quietIfNaN_signedZero _
  · exact (modQuad_nanRule hn a b).quiet
  · exact quietIfNaN_of_not_nan (Bool.or_eq_false_iff.1 hnan).2
  · exact quietIfNaN_roundPack _ _ _

theorem sqrtQuad_nanRule (a : Quad) : NaNRule (isNaN a) (sqrtQuad nan a) := by
  refine nanRule_ite hn fun ha => ?_
  split_ifs
  · exact quietIfNaN_of_not_nan ha
  · exact quietIfNaN_of_quiet hn
  · exact quietIfNaN_of_not_nan ha
  · exact quietIfNaN_of_not_nan (packRounded_not_nan _ _ _)

theorem doubleQuad_quietIfNaN (n : Word) : QuietIfNaN (doubleQuad nan n) := by
  unfold doubleQuad
  dsimp only
  split_ifs
  · exact quietIfNaN_signedInf _
  · exact quietIfNaN_of_quiet hn
  · exact quietIfNaN_signedZero _
  · exact quietIfNaN_roundPack _ _ _
  · exact quietIfNaN_roundPack _ _ _

omit hn in
/-- Every product of the squaring loop, and so the loop's last, is a quiet NaN if it is one (R814). -/
theorem powiLoop_quietIfNaN (fuel e : Nat) {r : Quad} (hr : QuietIfNaN r) (base : Quad) :
    QuietIfNaN (powiLoop fuel e r base) := by
  induction fuel generalizing e r base with
  | zero => exact hr
  | succ fuel ih =>
    rw [powiLoop]
    refine quietIfNaN_ite (fun _ => hr) fun _ => ih _ (quietIfNaN_ite (fun _ => ?_) fun _ => hr) _
    exact (mulQuad_nanRule (quadClass_qNaN _ _ _) _ _).quiet

theorem powiQuad_nanRule (x : Quad) (n : Int) : NaNRule (isNaN x) (powiQuad nan x n) := by
  have hloop : QuietIfNaN (powiLoop 64 n.natAbs oneQuad x) := powiLoop_quietIfNaN _ _ (quietIfNaN_signedOne false) _
  refine nanRule_ite hn fun _ => quietIfNaN_ite (fun _ => ?_) fun _ => hloop
  exact (divQuad_nanRule (quadClass_qNaN _ _ _) _ _).quiet

/-! ### The functions of the table -/

/-- The shape of the functions whose special inputs are the infinities and the zeros (R815, R816, R818 to R822). -/
theorem nanRule_fn1 {f : Fn} {a atInf atZero : Quad}
    (hf : ∀ b, ordinaryInput f a b = (isFinite a && isFinite b && !isZero a))
    (hinf : isNaN a = false → QuietIfNaN atInf) (hzero : isNaN a = false → QuietIfNaN atZero) :
    NaNRule (isNaN a)
      (if isNaN a then nan else if isInf a then atInf else if isZero a then atZero else fn1 Config.fn f a) := by
  refine nanRule_ite hn fun ha => ?_
  split_ifs with hi hz
  · exact hinf ha
  · exact hzero ha
  · exact quietIfNaN_fn1 hf ha (eq_false_of_ne_true hi) (eq_false_of_ne_true hz)

theorem sinQuad_nanRule (a : Quad) : NaNRule (isNaN a) (sinQuad Config.fn nan a) :=
  nanRule_fn1 hn (fun _ => rfl) (fun _ => quietIfNaN_of_quiet hn) quietIfNaN_of_not_nan

theorem cosQuad_nanRule (a : Quad) : NaNRule (isNaN a) (cosQuad Config.fn nan a) :=
  nanRule_fn1 hn (fun _ => rfl) (fun _ => quietIfNaN_of_quiet hn) fun _ => quietIfNaN_signedOne false

theorem tanQuad_nanRule (a : Quad) : NaNRule (isNaN a) (tanQuad Config.fn nan a) :=
  nanRule_fn1 hn (fun _ => rfl) (fun _ => quietIfNaN_of_quiet hn) quietIfNaN_of_not_nan

theorem cotQuad_nanRule (a : Quad) : NaNRule (isNaN a) (cotQuad Config.fn nan a) :=
  nanRule_fn1 hn (fun _ => rfl) (fun _ => quietIfNaN_of_quiet hn) fun _ => quietIfNaN_signedInf _

theorem sinhQuad_nanRule (a : Quad) : NaNRule (isNaN a) (sinhQuad Config.fn nan a) :=
  nanRule_fn1 hn (fun _ => rfl) quietIfNaN_of_not_nan quietIfNaN_of_not_nan

theorem coshQuad_nanRule (a : Quad) : NaNRule (isNaN a) (coshQuad Config.fn nan a) :=
  nanRule_fn1 hn (fun _ => rfl) (fun _ => quietIfNaN_signedInf _) fun _ => quietIfNaN_signedOne false

theorem tanhQuad_nanRule (a : Quad) : NaNRule (isNaN a) (tanhQuad Config.fn nan a) :=
  nanRule_fn1 hn (fun _ => rfl) (fun _ => quietIfNaN_signedOne _) quietIfNaN_of_not_nan

theorem expQuad_nanRule (a : Quad) : NaNRule (isNaN a) (expQuad Config.fn nan a) := by
  refine nanRule_ite hn fun ha => ?_
  split_ifs with hpos hneg hz
  · exact quietIfNaN_signedInf _
  · exact quietIfNaN_signedZero _
  · exact quietIfNaN_signedOne _
  · exact quietIfNaN_fn1 (fun _ => rfl) ha (isInf_eq_false_of_ne hpos hneg) (eq_false_of_ne_true hz)

theorem atanQuad_nanRule (a : Quad) : NaNRule (isNaN a) (atanQuad Config.fn nan a) := by
  refine nanRule_ite hn fun ha => ?_
  split_ifs with hz hi
  · exact quietIfNaN_of_not_nan ha
  · exact quietIfNaN_withSign _ (by decide)
  · exact quietIfNaN_fn1 (fun _ => rfl) ha (eq_false_of_ne_true hi) (eq_false_of_ne_true hz)

theorem logQuad_nanRule (a : Quad) : NaNRule (isNaN a) (logQuad Config.fn nan a) := by
  refine nanRule_ite hn fun ha => ?_
  split_ifs with hz hs hpos hone
  · exact quietIfNaN_signedInf _
  · exact quietIfNaN_of_quiet hn
  · exact quietIfNaN_signedInf _
  · exact quietIfNaN_signedZero _
  · have hneg : a ≠ signedInf true := fun h => hs (by rw [h, quadSign_signedInf])
    have hfin := isFinite_of_not_nan_not_inf ha (isInf_eq_false_of_ne hpos hneg)
    refine quietIfNaN_fn ?_
    simp [ordinaryInput, hfin, isFinite_of_isZero, hz, hs, hone]

theorem asinQuad_nanRule (a : Quad) : NaNRule (isNaN a) (asinQuad Config.fn nan a) := by
  refine nanRule_ite hn fun ha => ?_
  split_ifs with hdom hz
  · exact quietIfNaN_of_quiet hn
  · exact quietIfNaN_of_not_nan ha
  · obtain ⟨hi, habove⟩ := Bool.or_eq_false_iff.1 (eq_false_of_ne_true hdom)
    have hfin := isFinite_of_not_nan_not_inf ha hi
    refine quietIfNaN_fn ?_
    simp [ordinaryInput, hfin, isFinite_of_isZero, hz, habove]

theorem acosQuad_nanRule (a : Quad) : NaNRule (isNaN a) (acosQuad Config.fn nan a) := by
  refine nanRule_ite hn fun ha => ?_
  split_ifs with hdom hone
  · exact quietIfNaN_of_quiet hn
  · exact quietIfNaN_signedZero _
  · obtain ⟨hi, habove⟩ := Bool.or_eq_false_iff.1 (eq_false_of_ne_true hdom)
    have hfin := isFinite_of_not_nan_not_inf ha hi
    refine quietIfNaN_fn ?_
    simp [ordinaryInput, hfin, isFinite_of_isZero, hone, habove]

theorem powQuad_nanRule (x y : Quad) : NaNRule (isNaN x || isNaN y) (powQuad Config.fn nan x y) := by
  refine nanRule_ite hn fun hnan => ?_
  obtain ⟨hx, hy⟩ := Bool.or_eq_false_iff.1 hnan
  refine quietIfNaN_ite (fun _ => quietIfNaN_signedOne _) fun hy0 => quietIfNaN_ite (fun _ => quietIfNaN_signedOne _)
    fun hx1 => quietIfNaN_ite (fun _ => ?zeroBase) fun hx0 => quietIfNaN_ite (fun _ => ?infiniteExponent)
    fun hyInf => quietIfNaN_ite (fun _ => ?posInfBase) fun hpos => quietIfNaN_ite (fun _ => ?negInfBase)
    fun hneg => quietIfNaN_ite (fun _ => quietIfNaN_of_quiet hn) fun hdom => quietIfNaN_fn ?ordinary
  case zeroBase => split_ifs <;> simp [quietIfNaN_of_not_nan hx]
  case infiniteExponent => split_ifs <;> simp [oneQuad]
  case posInfBase => split_ifs <;> simp
  case negInfBase => split_ifs <;> simp
  case ordinary =>
    have hxFin := isFinite_of_not_nan_not_inf hx (isInf_eq_false_of_ne hpos hneg)
    have hyFin := isFinite_of_not_nan_not_inf hy (eq_false_of_ne_true hyInf)
    simp [ordinaryInput, hxFin, hyFin, hx0, hy0, hx1, eq_false_of_ne_true hdom]

theorem atan2Quad_nanRule (y x : Quad) : NaNRule (isNaN y || isNaN x) (atan2Quad Config.fn nan y x) := by
  refine nanRule_ite hn fun hnan => ?_
  obtain ⟨hy, hx⟩ := Bool.or_eq_false_iff.1 hnan
  split_ifs with hy0 hs hyInf hpos hneg hx0 hneg' hpos'
  · exact quietIfNaN_withSign _ (by decide)
  · exact quietIfNaN_of_not_nan hy
  · exact quietIfNaN_withSign _ (by decide)
  · exact quietIfNaN_withSign _ (by decide)
  · exact quietIfNaN_withSign _ (by decide)
  · exact quietIfNaN_withSign _ (by decide)
  · exact quietIfNaN_withSign _ (by decide)
  · exact quietIfNaN_signedZero _
  · have hxFin := isFinite_of_not_nan_not_inf hx (isInf_eq_false_of_ne hpos' hneg')
    have hyFin := isFinite_of_not_nan_not_inf hy (eq_false_of_ne_true hyInf)
    refine quietIfNaN_fn ?_
    simp [ordinaryInput, hxFin, hyFin, hx0, hy0]

end

/-! ### The commands -/

/-- Command `i` completes in `s` with ST = 0 and a result in R that meets R424 and R425. -/
def Delivers (operandNaN : Bool) (i : Instr) (s : State) : Prop :=
  ∃ t, exec i s = .next t ∧ t.st = 0 ∧ NaNRule operandNaN t.r

theorem delivers_of_exec_eq_finishR {operandNaN : Bool} {i : Instr} {s : State} {q : Quad} (h : NaNRule operandNaN q)
    (he : exec i s = finishR s q) : Delivers operandNaN i s :=
  ⟨_, he, rfl, by rwa [State.withST_r, State.withR_r]⟩

/-- What a completed command delivered: `exec` is a function. -/
theorem Delivers.quiet {operandNaN : Bool} {i : Instr} {s t : State} (h : Delivers operandNaN i s)
    (he : exec i s = .next t) : QuietIfNaN t.r := by
  obtain ⟨t', he', -, hr⟩ := h
  rw [he] at he'
  cases he'
  exact hr.quiet

/-- Either of SINCOS's draws is a quiet NaN (log entry 4). -/
theorem quadClass_sincosNaN (single : Instr) (result : Nat) (a : Quad) :
    quadClass (sincosNaN single result a) = .quietNaN := by
  unfold sincosNaN
  split_ifs <;> exact quadClass_qNaN _ _ _

theorem delivers_of_mem_nanUnary {i : Instr} (hi : i ∈ nanUnary) (s : State) : Delivers (isNaN s.a) i s := by
  have hq {cmd : Instr} {k : Nat} {ops : List Quad} := quadClass_qNaN cmd k ops
  cases i with
  | floor => exact delivers_of_exec_eq_finishR (floorQuad_nanRule hq s.a) rfl
  | ceil => exact delivers_of_exec_eq_finishR (ceilQuad_nanRule hq s.a) rfl
  | sqrt => exact delivers_of_exec_eq_finishR (sqrtQuad_nanRule hq s.a) rfl
  | exp => exact delivers_of_exec_eq_finishR (expQuad_nanRule hq s.a) rfl
  | log => exact delivers_of_exec_eq_finishR (logQuad_nanRule hq s.a) rfl
  | powi => exact delivers_of_exec_eq_finishR (powiQuad_nanRule hq s.a s.nInt) rfl
  | sin => exact delivers_of_exec_eq_finishR (sinQuad_nanRule hq s.a) rfl
  | cos => exact delivers_of_exec_eq_finishR (cosQuad_nanRule hq s.a) rfl
  | sincos =>
    refine ⟨_, rfl, rfl, ?_⟩
    rw [State.withST_r, State.withR2_r, State.withR_r]
    exact sinQuad_nanRule (quadClass_sincosNaN _ _ _) s.a
  | tan => exact delivers_of_exec_eq_finishR (tanQuad_nanRule hq s.a) rfl
  | cot => exact delivers_of_exec_eq_finishR (cotQuad_nanRule hq s.a) rfl
  | sinh => exact delivers_of_exec_eq_finishR (sinhQuad_nanRule hq s.a) rfl
  | cosh => exact delivers_of_exec_eq_finishR (coshQuad_nanRule hq s.a) rfl
  | tanh => exact delivers_of_exec_eq_finishR (tanhQuad_nanRule hq s.a) rfl
  | asin => exact delivers_of_exec_eq_finishR (asinQuad_nanRule hq s.a) rfl
  | acos => exact delivers_of_exec_eq_finishR (acosQuad_nanRule hq s.a) rfl
  | atan => exact delivers_of_exec_eq_finishR (atanQuad_nanRule hq s.a) rfl
  | _ => simp [nanUnary] at hi

theorem delivers_of_mem_nanBinary {i : Instr} (hi : i ∈ nanBinary) (s : State) :
    Delivers (isNaN s.a || isNaN s.b) i s := by
  have hq {cmd : Instr} {k : Nat} {ops : List Quad} := quadClass_qNaN cmd k ops
  cases i with
  | add => exact delivers_of_exec_eq_finishR (addQuad_nanRule hq s.a s.b) rfl
  | sub =>
    have h := addQuad_nanRule (quadClass_qNaN .sub 0 [s.a, s.b]) s.a (flipSign s.b)
    rw [isNaN_flipSign] at h
    exact delivers_of_exec_eq_finishR h rfl
  | mul => exact delivers_of_exec_eq_finishR (mulQuad_nanRule hq s.a s.b) rfl
  | div => exact delivers_of_exec_eq_finishR (divQuad_nanRule hq s.a s.b) rfl
  | mod => exact delivers_of_exec_eq_finishR (modQuad_nanRule hq s.a s.b) rfl
  | modulo => exact delivers_of_exec_eq_finishR (moduloQuad_nanRule hq s.a s.b) rfl
  | pow => exact delivers_of_exec_eq_finishR (powQuad_nanRule hq s.a s.b) rfl
  | atan2 => exact delivers_of_exec_eq_finishR (atan2Quad_nanRule hq s.a s.b) rfl
  | _ => simp [nanBinary] at hi

/-- CVTD has no quad operand; the NaN of a binary64 NaN is quiet (R710). -/
theorem delivers_cvtd (s : State) : Delivers false .cvtd s :=
  delivers_of_exec_eq_finishR ⟨fun h => absurd h Bool.false_ne_true, doubleQuad_quietIfNaN (quadClass_qNaN _ _ _) _⟩ rfl

/-- SINCOS's second result is the cosine's (R817). -/
theorem exec_sincos_r2_nanRule {s t : State} (h : exec .sincos s = .next t) : NaNRule (isNaN s.a) t.r2 := by
  cases h
  rw [State.withST_r2, State.withR2_r2]
  exact cosQuad_nanRule (quadClass_sincosNaN _ _ _) s.a

/-- Settles O52: `Delivers` for the commands of R424's list, SINCOS's second result, and the sign operations. -/
theorem naNOperandsGiveQuietNaNs : Obligations.NaNOperandsGiveQuietNaNs := by
  unfold Obligations.NaNOperandsGiveQuietNaNs
  refine ⟨fun s i hi hnan => ?_, fun s i hi hnan => ?_, fun s t i hi he => ?_,
    fun s t he => (exec_sincos_r2_nanRule he).quiet, fun s t i hi hnan he => ?_⟩
  · obtain ⟨t, he, hst, hr⟩ := delivers_of_mem_nanUnary hi s
    refine ⟨t, he, hst, hr.quadClass_eq hnan, ?_⟩
    rintro rfl
    exact (exec_sincos_r2_nanRule he).quadClass_eq hnan
  · obtain ⟨t, he, hst, hr⟩ := delivers_of_mem_nanBinary hi s
    exact ⟨t, he, hst, hr.quadClass_eq (Bool.or_eq_true_iff.2 hnan)⟩
  · rcases List.mem_append.1 hi with hi | hi
    · rcases List.mem_cons.1 hi with rfl | hi
      · exact (delivers_cvtd s).quiet he
      · exact (delivers_of_mem_nanUnary hi s).quiet he
    · exact (delivers_of_mem_nanBinary hi s).quiet he
  · rcases List.mem_pair.1 hi with rfl | rfl <;> cases he
    · rwa [State.withST_r, State.withR_r, isNaN_flipSign]
    · rwa [State.withST_r, State.withR_r, isNaN_clearSign]

end Sys2Proof.Machine
end

section
/-! PROOFS. Exact values and exact results (spec/40_classify.md rules R403, R421, R423): what a quad's value is in units, by
its sign and by its significand, and which values RoundPack gives unrounded. -/

namespace Sys2Proof.Machine

/-! ### Classes, signs and values -/

theorem not_nan_of_inf {q : Quad} (h : isInf q = true) : isNaN q = false := by
  rw [(isInf_iff_eq q).1 h]
  exact isNaN_signedInf _

theorem isZero_eq_false_of_inf {q : Quad} (h : isInf q = true) : isZero q = false := by
  rw [← Bool.not_eq_true]
  intro hz
  rw [not_inf_of_finite (isFinite_of_isZero hz)] at h
  cases h

theorem isFinite_flipSign (q : Quad) : isFinite (flipSign q) = isFinite q := by
  rw [Bool.eq_iff_iff, isFinite_iff, isFinite_iff, (flipSign_fields q).2.1]

theorem val_flipSign (q : Quad) : val (flipSign q) = -val q := by
  obtain ⟨hs, he, ht⟩ := flipSign_fields q
  have hpow : (-1 : ℚ) ^ (!quadSign q).toNat = -(-1) ^ (quadSign q).toNat := by cases quadSign q <;> decide
  rw [val, val, hs, he, ht, hpow, neg_mul]

theorem unit_ne_zero : (unit : ℚ) ≠ 0 := Nat.cast_ne_zero.2 unit_pos.ne'

theorem val_add_val (a b : Quad) : val a + val b = ((scaled a + scaled b : ℤ) : ℚ) / unit := by
  rw [val_eq_scaled, val_eq_scaled, ← add_div, Int.cast_add]

theorem val_oneQuad : val oneQuad = 1 := by
  rw [oneQuad, signedOne, val, quadSign_mkQuad, quadExp_mkQuad _ _ _ (by decide), quadFrac_mkQuad _ _ _ (by decide)]
  norm_num

theorem val_eq_ite_abs (q : Quad) : val q = if quadSign q then -|val q| else |val q| := by
  rw [abs_val, val_eq_scaled, scaled]
  split <;> push_cast
  · rw [neg_div]
  · rfl

theorem magnitude_pos {q : Quad} (hz : isZero q = false) : 0 < magnitude q := by
  rw [Nat.pos_iff_ne_zero, Ne, magnitude_eq_zero_iff, hz]
  exact Bool.false_ne_true

/-- The magnitude in units is the significand times a power of two (R403). -/
theorem magnitude_eq_significand (q : Quad) : magnitude q = significand q * 2 ^ (quadExp q - 1) := by
  unfold magnitude significand
  split
  · rename_i h
    rw [h, Nat.zero_sub, pow_zero, mul_one]
  · rfl

theorem abs_val_pos {q : Quad} (hz : isZero q = false) : 0 < |val q| := by
  rw [abs_pos, Ne, val_eq_zero_iff, hz]
  exact Bool.false_ne_true

theorem abs_val_div_abs_val (a b : Quad) : |val a| / |val b| = (magnitude a : ℚ) / magnitude b := by
  rw [abs_val, abs_val, div_div_div_cancel_right₀ unit_ne_zero]

/-! ### The rounder on exact values -/

/-- The machine's rounder is RoundPack of the fraction as a rational (R421). -/
theorem roundPackReal_ratCast_div (s : Bool) (n : ℕ) {d : ℕ} (hd : 0 < d) :
    roundPackReal s (((n : ℚ) / d : ℚ) : ℝ) = roundPack s n d := by
  rw [Rat.cast_div, Rat.cast_natCast, Rat.cast_natCast, roundPack_eq_roundPackReal s n hd]

/-- The machine's signed rounder is the correct rounding of the fraction (R421). -/
theorem roundSigned_eq_nearestOf (n : ℤ) {d : ℕ} (hd : 0 < d) : roundSigned n d = nearestOf ((n : ℚ) / d) := by
  have hd' : (0 : ℝ) < d := Nat.cast_pos.2 hd
  have hsign : signReal ((n : ℝ) / d) = decide (n < 0) := by
    rw [Bool.eq_iff_iff, signReal_iff, decide_eq_true_iff, div_lt_iff₀ hd', zero_mul, Int.cast_lt_zero]
  have habs : |(n : ℝ) / d| = (n.natAbs : ℝ) / d := by
    rw [abs_div, abs_of_pos hd', Nat.cast_natAbs, Int.cast_abs]
  rw [roundSigned, roundPack_eq_roundPackReal _ _ hd, nearestOf, nearestQuad]
  push_cast
  rw [hsign, habs]

/-- A finite quad that is not a zero is the correct rounding of its own value (R423 (a)). -/
theorem nearestOf_val {q : Quad} (hf : isFinite q = true) (hz : isZero q = false) : nearestOf (val q) = q := by
  have hsign : signReal (valReal q) = quadSign q := by
    rw [Bool.eq_iff_iff, signReal_iff, valReal, Rat.cast_lt_zero, val_lt_zero_iff, hz, and_iff_left rfl]
  have h := roundPackIsExactOnQuads q hf
  rwa [← hsign] at h

/-- A significand at a quad's largest exponent is below the overflow threshold (R423). -/
theorem natCast_mul_zpow_lt_threshold {m : ℕ} {k : ℤ} (hm : m < 2 ^ 113) (hk : k ≤ 16271) :
    (m : ℝ) * 2 ^ k < 2 ^ (16384 : ℤ) - 2 ^ (16270 : ℤ) := by
  have hle : (m : ℝ) ≤ 2 ^ 113 - 1 := by
    rw [le_sub_iff_add_le]
    exact_mod_cast hm
  have hpow : (2 : ℝ) ^ k ≤ 2 ^ (16271 : ℤ) := zpow_le_zpow_right₀ one_le_two hk
  have htop : (2 : ℝ) ^ (16384 : ℤ) = 2 ^ 113 * 2 ^ (16271 : ℤ) := by
    rw [← zpow_natCast, ← zpow_add₀ two_ne_zero]
    rfl
  have hlt : (2 : ℝ) ^ (16270 : ℤ) < 2 ^ (16271 : ℤ) := zpow_lt_zpow_right₀ one_lt_two (by decide)
  calc (m : ℝ) * 2 ^ k ≤ (2 ^ 113 - 1) * 2 ^ (16271 : ℤ) := mul_le_mul hle hpow (by positivity) (by norm_num)
    _ = 2 ^ (16384 : ℤ) - 2 ^ (16271 : ℤ) := by rw [sub_one_mul, htop]
    _ < _ := sub_lt_sub_left hlt _

/-- RoundPack is exact on an m·2^k that fits a quad's significand and exponent (R421). -/
theorem abs_val_roundPackReal_exact (s : Bool) {m : ℕ} {k : ℤ} (hm : m < 2 ^ 113) (hk : -16494 ≤ k) (hk' : k ≤ 16271)
    {v : ℚ} (hv : v = m * 2 ^ k) : |val (roundPackReal s (v : ℝ))| = v := by
  rcases Nat.eq_zero_or_pos m with rfl | hpos
  · rw [Nat.cast_zero, zero_mul] at hv
    rw [hv, Rat.cast_zero, roundPackReal_zero, val_of_isZero (isZero_signedZero s), abs_zero]
  have hvReal : (v : ℝ) = m * 2 ^ k := by
    rw [hv]
    push_cast
    rfl
  have hvpos : (0 : ℝ) < v := by
    rw [hvReal]
    positivity
  have hlt : (v : ℝ) < 2 ^ (113 + k) := by
    rw [hvReal, zpow_add₀ two_ne_zero]
    exact mul_lt_mul_of_pos_right (by exact_mod_cast hm) (zpow_pos two_pos k)
  have hquantum : quantumExp (Int.log 2 (v : ℝ)) ≤ k := by
    have := (Int.lt_zpow_iff_log_lt (b := 2) (by decide) hvpos).1 (by exact_mod_cast hlt)
    unfold quantumExp
    omega
  have hthreshold : (v : ℝ) < 2 ^ (16384 : ℤ) - 2 ^ (16270 : ℤ) := by
    rw [hvReal]
    exact natCast_mul_zpow_lt_threshold hm hk'
  have hwhole : (v : ℝ) / 2 ^ quantumExp (Int.log 2 (v : ℝ)) =
      (m * 2 ^ (k - quantumExp (Int.log 2 (v : ℝ))).toNat : ℕ) := by
    push_cast
    rw [← zpow_natCast, Int.toNat_of_nonneg (by omega), zpow_sub₀ two_ne_zero, ← mul_div_assoc, ← hvReal]
  have hvalue := (roundPackReal_value s hvpos hthreshold).2
  rw [hwhole, rneReal_natCast, ← hwhole, div_mul_cancel₀ _ (zpow_pos two_pos _).ne', valReal] at hvalue
  exact_mod_cast hvalue

/-- A rounded value whose magnitude is exact is exact (R421). -/
theorem val_nearestOf_of_abs {v : ℚ} (h : |val (nearestOf v)| = |v|) : val (nearestOf v) = v := by
  have hsign : quadSign (nearestOf v) = decide (v < 0) := by
    rw [Bool.eq_iff_iff, nearestOf, nearestQuad_sign, signReal_iff, Rat.cast_lt_zero, decide_eq_true_iff]
  rw [val_eq_ite_abs, hsign, h]
  rcases lt_or_ge v 0 with hv | hv
  · rw [if_pos (decide_eq_true hv), abs_of_neg hv, neg_neg]
  · rw [if_neg (by simpa using hv), abs_of_nonneg hv]

end Sys2Proof.Machine
end

section
/-! PROOFS. The arithmetic commands (spec/41_arith.md rules R500 to R509): each function's result against its rule over the
exact rationals. -/

namespace Sys2Proof.Machine

/-! ### Sum, product and quotient -/

/-- The sum of finite operands: the zero test and the rounding are on the exact value (R500). -/
theorem addQuad_of_finite (nan : Quad) {a b : Quad} (ha : isFinite a = true) (hb : isFinite b = true) :
    addQuad nan a b =
      if val a + val b ≠ 0 then nearestOf (val a + val b)
      else if isZero a && isZero b && (quadSign a == quadSign b) then a else signedZero false := by
  have hzero : val a + val b ≠ 0 ↔ scaled a + scaled b ≠ 0 := by
    rw [val_add_val, Ne, div_eq_zero_iff, or_iff_left unit_ne_zero, Int.cast_eq_zero]
  have hround : nearestOf (val a + val b) = roundSigned (scaled a + scaled b) unit := by
    rw [val_add_val, roundSigned_eq_nearestOf _ unit_pos]
  simp only [hzero, hround]
  simp [addQuad, not_nan_of_finite ha, not_nan_of_finite hb, not_inf_of_finite ha, not_inf_of_finite hb]

/-- R500: the sum, case by case. -/
theorem addQuad_addRule (nan a b : Quad) : AddRule nan a b (addQuad nan a b) := by
  refine ⟨fun h => ?_, fun ha hb => ?_, fun ha hb => ?_, fun ha hb => ?_, fun ha hb h => ?_, fun ha hb h => ?_⟩
  · simp [addQuad, h]
  · simp [addQuad, not_nan_of_inf ha, not_nan_of_inf hb, ha, hb]
  · simp [addQuad, not_nan_of_inf ha, not_nan_of_finite hb, not_inf_of_finite hb, ha]
  · simp [addQuad, not_nan_of_finite ha, not_nan_of_inf hb, not_inf_of_finite ha, hb]
  · rw [addQuad_of_finite nan ha hb, if_pos h]
  · rw [addQuad_of_finite nan ha hb, if_neg (not_not.2 h)]
    simp [and_assoc]

/-- R502: the product, case by case. -/
theorem mulQuad_mulRule (nan a b : Quad) : MulRule nan a b (mulQuad nan a b) := by
  refine ⟨fun h => ?_, fun ha hb h => ?_, fun ha hb => ?_⟩
  · simp [mulQuad, h]
  · simp [mulQuad, ha, hb, h]
  · have hval : |val a * val b| = ((magnitude a * magnitude b : ℕ) : ℚ) / ((unit * unit : ℕ) : ℚ) := by
      rw [abs_mul, abs_val, abs_val, div_mul_div_comm, Nat.cast_mul, Nat.cast_mul]
    rw [hval, roundPackReal_ratCast_div _ _ (Nat.mul_pos unit_pos unit_pos)]
    simp [mulQuad, not_nan_of_finite ha, not_nan_of_finite hb, not_inf_of_finite ha, not_inf_of_finite hb]

/-- R503: the quotient, case by case. -/
theorem divQuad_divRule (nan a b : Quad) : DivRule nan a b (divQuad nan a b) := by
  refine ⟨fun h => ?_, fun ha hb => ?_, fun ha hb => ?_, fun ha hb => ?_, fun ha hz => ?_, fun ha hb hz => ?_⟩
  · simp [divQuad, h]
  · simp [divQuad, ha, hb]
  · simp [divQuad, not_nan_of_inf ha, not_nan_of_finite hb, not_inf_of_finite hb, ha]
  · simp [divQuad, not_nan_of_finite ha, not_nan_of_inf hb, not_inf_of_finite ha, hb]
  · have hb := isFinite_of_isZero hz
    simp [divQuad, not_nan_of_finite ha, not_nan_of_finite hb, not_inf_of_finite ha, not_inf_of_finite hb, hz]
  · rw [abs_div, abs_val_div_abs_val, roundPackReal_ratCast_div _ _ (magnitude_pos hz)]
    simp [divQuad, not_nan_of_finite ha, not_nan_of_finite hb, not_inf_of_finite ha, not_inf_of_finite hb, hz]

/-- Settles O29: `addQuad_addRule`. -/
theorem addIsTheRoundedSum : Obligations.AddIsTheRoundedSum := by
  unfold Obligations.AddIsTheRoundedSum
  exact ⟨by decide, fun s => ⟨_, rfl, addQuad_addRule _ _ _⟩⟩

/-- Settles O30: `addQuad_addRule` at B with its sign flipped, whose value is −val(B). -/
theorem subIsTheRoundedDifference : Obligations.SubIsTheRoundedDifference := by
  unfold Obligations.SubIsTheRoundedDifference
  refine ⟨by decide, fun s => ?_⟩
  have hrule := addQuad_addRule (qNaN .sub 0 [s.a, s.b]) s.a (flipSign s.b)
  refine ⟨_, rfl, hrule, ?_⟩
  obtain ⟨-, -, -, -, hsum, -⟩ := hrule
  rwa [isFinite_flipSign, val_flipSign, ← sub_eq_add_neg] at hsum

/-- Settles O31: `mulQuad_mulRule`. -/
theorem mulIsTheRoundedProduct : Obligations.MulIsTheRoundedProduct := by
  unfold Obligations.MulIsTheRoundedProduct
  exact ⟨by decide, fun s => ⟨_, rfl, mulQuad_mulRule _ _ _⟩⟩

/-- Settles O32: `divQuad_divRule`. -/
theorem divIsTheRoundedQuotient : Obligations.DivIsTheRoundedQuotient := by
  unfold Obligations.DivIsTheRoundedQuotient
  exact ⟨by decide, fun s => ⟨_, rfl, divQuad_divRule _ _ _⟩⟩

/-! ### The sign -/

/-- Settles O33: bit by bit, with the sign bit apart from the others. -/
theorem negAndAbsChangeOnlyTheSign : Obligations.NegAndAbsChangeOnlyTheSign := by
  unfold Obligations.NegAndAbsChangeOnlyTheSign
  refine ⟨by decide, by decide, fun s => ⟨⟨_, rfl, ?_, fun k hk => ?_⟩, _, rfl, ?_, fun k hk => ?_⟩⟩
  · rw [flipSign_getLsbD _ _ (by decide), if_pos rfl]
  · rw [flipSign_getLsbD _ _ (by omega), if_neg (by omega)]
  · rw [clearSign_getLsbD _ _ (by decide), if_pos rfl]
  · rw [clearSign_getLsbD _ _ (by omega), if_neg (by omega)]

/-! ### The integers below and above -/

theorem floor_val (q : Quad) : ⌊val q⌋ = scaled q / (unit : ℤ) := by
  rw [val_eq_scaled, Rat.floor_intCast_div_natCast]

theorem ceil_val (q : Quad) : ⌈val q⌉ = -(-scaled q / (unit : ℤ)) := by
  rw [val_eq_scaled, Rat.ceil_intCast_div_natCast]

/-- A quad whose unit is 1 or more is an integer (R403). -/
theorem exists_val_eq_intCast {q : Quad} (hu : 0 ≤ unitExp q) : ∃ n : ℤ, val q = n := by
  have habs := abs_val_eq_significand q
  rw [← Int.toNat_of_nonneg hu, zpow_natCast] at habs
  have hcast : |val q| = (significand q * 2 ^ (unitExp q).toNat : ℕ) := by
    rw [habs]
    push_cast
    rfl
  rcases abs_choice (val q) with h | h
  · exact ⟨(significand q * 2 ^ (unitExp q).toNat : ℕ), by rw [← h, hcast, Int.cast_natCast]⟩
  · exact ⟨-(significand q * 2 ^ (unitExp q).toNat : ℕ), by rw [Int.cast_neg, Int.cast_natCast, ← hcast, h, neg_neg]⟩

theorem abs_val_le_of_unitExp_neg {q : Quad} (hu : unitExp q < 0) : |val q| ≤ 2 ^ 112 := by
  have hunit : (2 : ℚ) ^ unitExp q ≤ 2 ^ (-1 : ℤ) := zpow_le_zpow_right₀ one_le_two (by omega)
  have hsig : (significand q : ℚ) ≤ 2 ^ 113 := by exact_mod_cast (significand_lt q).le
  rw [abs_val_eq_significand]
  calc (significand q : ℚ) * 2 ^ unitExp q ≤ 2 ^ 113 * 2 ^ (-1 : ℤ) :=
        mul_le_mul hsig hunit (by positivity) (by positivity)
    _ = 2 ^ 112 := by norm_num

/-- The floor of a finite quad's value fits a quad: it is the value itself, or at most 2^112. -/
theorem abs_floor_val_fits {q : Quad} (hf : isFinite q = true) :
    ∃ (m : ℕ) (k : ℤ), m < 2 ^ 113 ∧ 0 ≤ k ∧ k ≤ 16271 ∧ |((⌊val q⌋ : ℤ) : ℚ)| = m * 2 ^ k := by
  rcases le_or_gt 0 (unitExp q) with hu | hu
  · have he := (isFinite_iff q).1 hf
    obtain ⟨n, hn⟩ := exists_val_eq_intCast hu
    refine ⟨significand q, unitExp q, significand_lt q, hu, by unfold unitExp; omega, ?_⟩
    rw [← abs_val_eq_significand, hn, Int.floor_intCast]
  · obtain ⟨hlo, hhi⟩ := abs_le.1 (abs_val_le_of_unitExp_neg hu)
    have h1 : -2 ^ 112 ≤ ⌊val q⌋ := Int.le_floor.2 (by exact_mod_cast hlo)
    have h2 : ⌊val q⌋ ≤ 2 ^ 112 := by exact_mod_cast (Int.floor_le (val q)).trans hhi
    refine ⟨⌊val q⌋.natAbs, 0, by omega, le_rfl, by decide, ?_⟩
    rw [zpow_zero, mul_one, Nat.cast_natAbs, Int.cast_abs]

/-- An integer that fits a quad is rounded to itself (R506, R507). -/
theorem val_nearestOf_intCast {n : ℤ} {m : ℕ} {k : ℤ} (hm : m < 2 ^ 113) (hk : 0 ≤ k) (hk' : k ≤ 16271)
    (h : |(n : ℚ)| = m * 2 ^ k) : val (nearestOf n) = n := by
  refine val_nearestOf_of_abs ?_
  rw [nearestOf, nearestQuad, ← Rat.cast_abs]
  exact abs_val_roundPackReal_exact _ hm (by omega) hk' h

theorem val_nearestOf_floor {q : Quad} (hf : isFinite q = true) : val (nearestOf (⌊val q⌋ : ℤ)) = (⌊val q⌋ : ℤ) := by
  obtain ⟨m, k, hm, hk, hk', h⟩ := abs_floor_val_fits hf
  exact val_nearestOf_intCast hm hk hk' h

theorem val_nearestOf_ceil {q : Quad} (hf : isFinite q = true) : val (nearestOf (⌈val q⌉ : ℤ)) = (⌈val q⌉ : ℤ) := by
  obtain ⟨m, k, hm, hk, hk', h⟩ := abs_floor_val_fits (q := flipSign q) (by rwa [isFinite_flipSign])
  rw [val_flipSign, Int.floor_neg, Int.cast_neg, abs_neg] at h
  exact val_nearestOf_intCast hm hk hk' h

/-- The shape FLOOR and CEIL share (R506, R507). -/
theorem integralRule_ite (nan a z : Quad) (n : ℤ) (hn : isFinite a = true → val (nearestOf n) = n) :
    IntegralRule nan a n z
      (if isNaN a then nan else if isZero a || isInf a then a else if n = 0 then z else roundSigned n 1) := by
  have hround : roundSigned n 1 = nearestOf n := by rw [roundSigned_eq_nearestOf n one_pos, Nat.cast_one, div_one]
  refine ⟨fun h => if_pos h, fun h => ?_, fun ha hz h0 => ?_, fun ha hz h0 => ?_⟩
  · have hnan : isNaN a = false := h.elim (fun hz => not_nan_of_finite (isFinite_of_isZero hz)) not_nan_of_inf
    simp [hnan, h]
  · simp [not_nan_of_finite ha, not_inf_of_finite ha, hz, h0]
  · simp [not_nan_of_finite ha, not_inf_of_finite ha, hz, h0, hround, hn ha]

/-- Settles O34: the integer quotient of units is the floor, the ceiling is minus the floor of minus the value, and
both fit a quad. -/
theorem floorAndCeilAreExactIntegers : Obligations.FloorAndCeilAreExactIntegers := by
  unfold Obligations.FloorAndCeilAreExactIntegers
  refine ⟨by decide, by decide, fun s => ⟨⟨_, rfl, ?_⟩, _, rfl, ?_⟩⟩
  · rw [floorQuad, ← floor_val]
    exact integralRule_ite _ _ _ _ val_nearestOf_floor
  · rw [ceilQuad, ← ceil_val]
    exact integralRule_ite _ _ _ _ val_nearestOf_ceil

/-! ### Remainders -/

/-- The truncating remainder by the fractional part of the quotient. -/
theorem truncRemainder_eq (x : ℚ) {y : ℚ} (hy : y ≠ 0) : truncRemainder x y = |y| * Int.fract |x / y| := by
  rw [truncRemainder, ← abs_div, Int.fract, mul_sub, abs_div, mul_div_cancel₀ _ (abs_ne_zero.2 hy), mul_comm |y|]

theorem abs_floorRemainder_eq (x : ℚ) {y : ℚ} (hy : y ≠ 0) : |floorRemainder x y| = |y| * Int.fract (x / y) := by
  have h : floorRemainder x y = y * Int.fract (x / y) := by
    rw [floorRemainder, Int.fract, mul_sub, mul_div_cancel₀ _ hy]
  rw [h, abs_mul, abs_of_nonneg (Int.fract_nonneg (x / y))]

/-- The remainder of the magnitudes in units is the truncating remainder (R508). -/
theorem truncRemainder_val (a : Quad) {b : Quad} (hz : isZero b = false) :
    truncRemainder (val a) (val b) = ((magnitude a % magnitude b : ℕ) : ℚ) / unit := by
  have hb : (magnitude b : ℚ) ≠ 0 := Nat.cast_ne_zero.2 (magnitude_pos hz).ne'
  rw [truncRemainder_eq _ (abs_pos.1 (abs_val_pos hz)), abs_div, abs_val_div_abs_val,
    Int.fract_div_natCast_eq_div_natCast_mod, abs_val, mul_comm, div_mul_div_cancel₀ hb]

/-- The remainder of two multiples of powers of two is a multiple of the smaller power, by less than the smaller
operand's factor. -/
theorem exists_mul_two_pow_mod (m n i j : ℕ) (hn : 0 < n) (hm : m < 2 ^ 113) (hn' : n < 2 ^ 113) :
    ∃ r k, r < 2 ^ 113 ∧ k ≤ i ∧ m * 2 ^ i % (n * 2 ^ j) = r * 2 ^ k := by
  rcases le_total j i with h | h
  · refine ⟨m * 2 ^ (i - j) % n, j, (Nat.mod_lt _ hn).trans hn', h, ?_⟩
    rw [← Nat.mul_mod_mul_right, mul_assoc, ← pow_add, Nat.sub_add_cancel h]
  · refine ⟨m % (n * 2 ^ (j - i)), i, (Nat.mod_le _ _).trans_lt hm, le_rfl, ?_⟩
    rw [← Nat.mul_mod_mul_right, mul_assoc, ← pow_add, Nat.sub_add_cancel h]

theorem roundPack_mod (s : Bool) (a : Quad) {b : Quad} (hz : isZero b = false) :
    roundPack s (magnitude a % magnitude b) unit = roundPackReal s (truncRemainder (val a) (val b) : ℚ) := by
  rw [truncRemainder_val a hz, roundPackReal_ratCast_div _ _ unit_pos]

/-- The truncating remainder fits a quad (R508). -/
theorem abs_val_roundPackReal_truncRemainder (s : Bool) {a b : Quad} (ha : isFinite a = true) (hz : isZero b = false) :
    |val (roundPackReal s (truncRemainder (val a) (val b) : ℚ))| = truncRemainder (val a) (val b) := by
  obtain ⟨r, k, hr, hk, h⟩ := exists_mul_two_pow_mod (significand a) (significand b) (quadExp a - 1) (quadExp b - 1)
    (significand_pos hz) (significand_lt a) (significand_lt b)
  have he := (isFinite_iff a).1 ha
  refine abs_val_roundPackReal_exact s (k := (k : ℤ) - 16494) hr (by omega) (by omega) ?_
  rw [truncRemainder_val a hz, magnitude_eq_significand, magnitude_eq_significand, h, unit_cast,
    zpow_sub₀ two_ne_zero, zpow_natCast, ← mul_div_assoc, Nat.cast_mul, Nat.cast_pow, Nat.cast_ofNat]

/-- R508: the truncating remainder, case by case. -/
theorem modQuad_modRule (nan a b : Quad) : ModRule nan a b (modQuad nan a b) := by
  refine ⟨fun h => ?_, fun h => ?_, fun ha hb => ?_, fun ha hb hz => ?_⟩
  · simp [modQuad, h]
  · simp [modQuad, h]
  · simp [modQuad, not_nan_of_finite ha, not_nan_of_inf hb, not_inf_of_finite ha, hb, isZero_eq_false_of_inf hb]
  · have hmod : modQuad nan a b = roundPackReal (quadSign a) (truncRemainder (val a) (val b) : ℚ) := by
      rw [← roundPack_mod _ a hz]
      simp [modQuad, not_nan_of_finite ha, not_nan_of_finite hb, not_inf_of_finite ha, not_inf_of_finite hb, hz]
    rw [hmod]
    exact ⟨rfl, abs_val_roundPackReal_truncRemainder _ ha hz⟩

/-- Settles O35: `modQuad_modRule`. -/
theorem modIsTheTruncatingRemainder : Obligations.ModIsTheTruncatingRemainder := by
  unfold Obligations.ModIsTheTruncatingRemainder
  exact ⟨by decide, fun s => ⟨_, rfl, modQuad_modRule _ _ _⟩⟩

/-- Where the operands' signs agree the two remainders have one magnitude (R509). -/
theorem abs_floorRemainder_of_same_sign {x y : ℚ} (hy : y ≠ 0) (h : 0 ≤ x / y) :
    |floorRemainder x y| = truncRemainder x y := by
  rw [abs_floorRemainder_eq x hy, truncRemainder_eq x hy, abs_of_nonneg h]

/-- Where the signs differ the floored remainder is what the truncating one leaves of the divisor (R509). -/
theorem abs_floorRemainder_of_opposite_sign {x y : ℚ} (hy : y ≠ 0) (h : x / y ≤ 0) (h0 : truncRemainder x y ≠ 0) :
    |floorRemainder x y| = |y| - truncRemainder x y := by
  rw [truncRemainder_eq x hy, abs_of_nonpos h] at h0 ⊢
  have hfract : Int.fract (-(x / y)) ≠ 0 := right_ne_zero_of_mul h0
  rw [abs_floorRemainder_eq x hy, ← neg_neg (x / y), Int.fract_neg hfract, mul_sub, mul_one, neg_neg]

theorem abs_floorRemainder_of_truncRemainder_eq_zero {x y : ℚ} (hy : y ≠ 0) (h0 : truncRemainder x y = 0) :
    |floorRemainder x y| = 0 := by
  rcases le_total 0 (x / y) with h | h
  · rw [abs_floorRemainder_of_same_sign hy h, h0]
  · rw [truncRemainder_eq x hy, abs_of_nonpos h, mul_eq_zero_iff_left (abs_ne_zero.2 hy), Int.fract_neg_eq_zero] at h0
    rw [abs_floorRemainder_eq x hy, h0, mul_zero]

/-- The sign of a quotient by the sign bits. -/
theorem val_div_val_nonneg {a b : Quad} (h : quadSign a = quadSign b) : 0 ≤ val a / val b := by
  rw [val_eq_ite_abs a, val_eq_ite_abs b, h]
  split
  · rw [neg_div_neg_eq]
    positivity
  · positivity

theorem val_div_val_nonpos {a b : Quad} (h : quadSign a ≠ quadSign b) : val a / val b ≤ 0 := by
  have h' : quadSign a = quadSign (flipSign b) := by
    rw [(flipSign_fields b).1]
    exact Bool.eq_not_of_ne h
  have := val_div_val_nonneg h'
  rwa [val_flipSign, div_neg, neg_nonneg] at this

/-- MODULO's last branch: what MOD left, taken from the divisor (R509). -/
theorem roundPack_magnitude_sub (s : Bool) {r b : Quad} (hle : |val r| ≤ |val b|) :
    roundPack s (magnitude b - magnitude r) unit = roundPackReal s ((|val b| - |val r| : ℚ) : ℝ) := by
  have hle' : magnitude r ≤ magnitude b := by
    rwa [abs_val, abs_val, div_le_div_iff_of_pos_right (Nat.cast_pos.2 unit_pos), Nat.cast_le] at hle
  rw [abs_val, abs_val, ← sub_div, ← Nat.cast_sub hle', roundPackReal_ratCast_div _ _ unit_pos]

theorem truncRemainder_le (x : ℚ) {y : ℚ} (hy : y ≠ 0) : truncRemainder x y ≤ |y| := by
  rw [truncRemainder_eq x hy]
  exact mul_le_of_le_one_right (abs_nonneg y) (Int.fract_lt_one _).le

/-- MODULO past its first tests, in terms of what MOD gives (R509). -/
theorem moduloQuad_eq (nan : Quad) {a b : Quad} (ha : isFinite a = true) (hb : isNaN b = false)
    (hz : isZero b = false) :
    moduloQuad nan a b =
      if isZero (modQuad nan a b) then signedZero (quadSign b)
      else if quadSign (modQuad nan a b) = quadSign b then modQuad nan a b
      else if isInf b then b
      else roundPack (quadSign b) (magnitude b - magnitude (modQuad nan a b)) unit := by
  simp [moduloQuad, not_nan_of_finite ha, not_inf_of_finite ha, hb, hz]

/-- R509 for finite operands: MOD's exact remainder is a zero, has the divisor's sign, or is taken from the divisor. -/
theorem moduloQuad_of_finite (nan : Quad) {a b : Quad} (ha : isFinite a = true) (hb : isFinite b = true)
    (hz : isZero b = false) :
    moduloQuad nan a b = roundPackReal (quadSign b) ((|floorRemainder (val a) (val b)| : ℚ) : ℝ) := by
  have hb0 : val b ≠ 0 := abs_pos.1 (abs_val_pos hz)
  obtain ⟨-, -, -, hmod⟩ := modQuad_modRule nan a b
  obtain ⟨hr, hval⟩ := hmod ha hb hz
  rw [moduloQuad_eq nan ha (not_nan_of_finite hb) hz, not_inf_of_finite hb, if_neg Bool.false_ne_true]
  generalize modQuad nan a b = r at hr hval
  have hsign : quadSign r = quadSign a := by rw [hr, roundPackReal_sign]
  split_ifs with h0 hs
  · rw [val_of_isZero h0, abs_zero] at hval
    rw [abs_floorRemainder_of_truncRemainder_eq_zero hb0 hval.symm, Rat.cast_zero, roundPackReal_zero]
  · rw [hsign] at hs
    rw [abs_floorRemainder_of_same_sign hb0 (val_div_val_nonneg hs), hr, hs]
  · rw [hsign] at hs
    have htrunc : truncRemainder (val a) (val b) ≠ 0 := by rwa [← hval, Ne, abs_eq_zero, val_eq_zero_iff]
    rw [abs_floorRemainder_of_opposite_sign hb0 (val_div_val_nonpos hs) htrunc, ← hval]
    exact roundPack_magnitude_sub _ (hval.trans_le (truncRemainder_le _ hb0))

/-- R509: the floored remainder, case by case. -/
theorem moduloQuad_moduloRule (nan a b : Quad) : ModuloRule nan a b (moduloQuad nan a b) := by
  refine ⟨fun h => ?_, fun h => ?_, fun ha hb => ?_, fun ha hb hz => moduloQuad_of_finite nan ha hb hz⟩
  · simp [moduloQuad, h]
  · simp [moduloQuad, h]
  · obtain ⟨-, -, hmod, -⟩ := modQuad_modRule nan a b
    rw [moduloQuad_eq nan ha (not_nan_of_inf hb) (isZero_eq_false_of_inf hb), hmod ha hb, if_pos hb]

/-- Settles O36: `moduloQuad_moduloRule`. -/
theorem moduloIsTheFlooredRemainder : Obligations.ModuloIsTheFlooredRemainder := by
  unfold Obligations.ModuloIsTheFlooredRemainder
  exact ⟨by decide, fun s => ⟨_, rfl, moduloQuad_moduloRule _ _ _⟩⟩

end Sys2Proof.Machine
end

section
/-! PROOFS. The laws of the arithmetic commands (spec/41_arith.md rule R510), from the rules of each. -/

namespace Sys2Proof.Machine

/-- A zero sum is a zero that does not depend on the order, and two infinities of one sign are one quad (R510 (a)). -/
theorem addQuad_comm (nan : Quad) {a b : Quad} (ha : isNaN a = false) (hb : isNaN b = false) :
    addQuad nan a b = addQuad nan b a := by
  obtain ⟨-, hinf₂, hinfA, hinfB, hsum, hzero⟩ := addQuad_addRule nan a b
  obtain ⟨-, hinf₂', hinfB', hinfA', hsum', hzero'⟩ := addQuad_addRule nan b a
  cases hia : isInf a with
  | true =>
    cases hib : isInf b with
    | true =>
      rw [hinf₂ hia hib, hinf₂' hib hia]
      refine if_ctx_congr eq_comm (fun h => ?_) fun _ => rfl
      rw [(isInf_iff_eq a).1 hia, (isInf_iff_eq b).1 hib, h]
    | false =>
      have hbf := isFinite_of_not_nan_not_inf hb hib
      rw [hinfA hia hbf, hinfA' hbf hia]
  | false =>
    have haf := isFinite_of_not_nan_not_inf ha hia
    cases hib : isInf b with
    | true => rw [hinfB haf hib, hinfB' hib haf]
    | false =>
      have hbf := isFinite_of_not_nan_not_inf hb hib
      rw [add_comm] at hsum' hzero'
      by_cases h : val a + val b = 0
      · rw [hzero haf hbf h, hzero' hbf haf h]
        refine if_ctx_congr (by rw [and_left_comm, eq_comm (a := quadSign a)]) (fun h => ?_) fun _ => rfl
        obtain ⟨hzb, hza, hs⟩ := h
        rw [(isZero_iff_eq a).1 hza, (isZero_iff_eq b).1 hzb, hs]
      · rw [hsum haf hbf h, hsum' hbf haf h]

theorem mulQuad_comm (nan a b : Quad) : mulQuad nan a b = mulQuad nan b a := by
  simp only [mulQuad, Bool.xor_comm (quadSign a), Bool.or_comm (isNaN a), Bool.or_comm (isInf a),
    Bool.or_comm (isZero a), Nat.mul_comm (magnitude a)]

/-- +0 is neutral for ADD but at −0 (R510 (b)). -/
theorem addQuad_zero (nan : Quad) {a : Quad} (ha : isNaN a = false) :
    addQuad nan a 0 = if isZero a then 0 else a := by
  have hfin : isFinite 0 = true := by decide
  have hval : val 0 = 0 := val_of_isZero (by decide)
  obtain ⟨-, -, hinf, -, hsum, hzero⟩ := addQuad_addRule nan a 0
  rw [hval, add_zero] at hsum hzero
  cases hi : isInf a with
  | true => rw [hinf hi hfin, isZero_eq_false_of_inf hi, if_neg Bool.false_ne_true]
  | false =>
    have haf := isFinite_of_not_nan_not_inf ha hi
    cases hz : isZero a with
    | false =>
      have hne : val a ≠ 0 := abs_pos.1 (abs_val_pos hz)
      rw [hsum haf hfin hne, nearestOf_val haf hz, if_neg Bool.false_ne_true]
    | true =>
      rw [hzero haf hfin (val_of_isZero hz), if_pos rfl, (isZero_iff_eq a).1 hz]
      cases quadSign a <;> decide

/-- Two infinities add up to themselves or to a NaN (R510 (d)). -/
theorem addQuad_inf (nan : Quad) (s t : Bool) :
    addQuad nan (signedInf s) (signedInf t) = if s = t then signedInf s else nan := by
  simp [addQuad]

/-- 1 is neutral for MUL (R510 (c)). -/
theorem mulQuad_one (nan : Quad) {a : Quad} (ha : isNaN a = false) : mulQuad nan a oneQuad = a := by
  have hone : isFinite oneQuad = true := isFinite_signedOne false
  have hsign : (quadSign a ^^ quadSign oneQuad) = quadSign a := by rw [oneQuad, quadSign_signedOne, Bool.xor_false]
  obtain ⟨-, hinf, hfin⟩ := mulQuad_mulRule nan a oneQuad
  rw [hsign] at hinf hfin
  cases hi : isInf a with
  | true =>
    rw [hinf ha (not_nan_of_finite hone) (.inl hi), isZero_eq_false_of_inf hi]
    exact ((isInf_iff_eq a).1 hi).symm
  | false =>
    have haf := isFinite_of_not_nan_not_inf ha hi
    rw [hfin haf hone, val_oneQuad, mul_one, Rat.cast_abs]
    exact roundPackIsExactOnQuads a haf

/-- The arithmetic commands (R500 to R509). -/
def arithCommands : List Instr := [.add, .sub, .mul, .div, .neg, .abs, .floor, .ceil, .mod, .modulo]

/-- An arithmetic command's result is a function of A and B alone (R510 (e)). -/
theorem exec_arith_eq_finishR {i : Instr} (hi : i ∈ arithCommands) :
    ∃ f : Quad → Quad → Quad, ∀ s, exec i s = finishR s (f s.a s.b) := by
  cases i with
  | add => exact ⟨fun a b => addQuad (qNaN .add 0 [a, b]) a b, fun _ => rfl⟩
  | sub => exact ⟨fun a b => addQuad (qNaN .sub 0 [a, b]) a (flipSign b), fun _ => rfl⟩
  | mul => exact ⟨fun a b => mulQuad (qNaN .mul 0 [a, b]) a b, fun _ => rfl⟩
  | div => exact ⟨fun a b => divQuad (qNaN .div 0 [a, b]) a b, fun _ => rfl⟩
  | neg => exact ⟨fun a _ => flipSign a, fun _ => rfl⟩
  | abs => exact ⟨fun a _ => clearSign a, fun _ => rfl⟩
  | floor => exact ⟨fun a _ => floorQuad (qNaN .floor 0 [a]) a, fun _ => rfl⟩
  | ceil => exact ⟨fun a _ => ceilQuad (qNaN .ceil 0 [a]) a, fun _ => rfl⟩
  | mod => exact ⟨fun a b => modQuad (qNaN .mod 0 [a, b]) a b, fun _ => rfl⟩
  | modulo => exact ⟨fun a b => moduloQuad (qNaN .modulo 0 [a, b]) a b, fun _ => rfl⟩
  | _ => simp [arithCommands] at hi

/-- The results of ADD and of MUL for exchanged operands (R510 (a)). -/
theorem exec_comm {i : Instr} (hi : i ∈ [Instr.add, .mul]) {s s' : State} (ha : s'.a = s.b) (hb : s'.b = s.a) :
    ∃ t t', exec i s = .next t ∧ exec i s' = .next t' ∧
      (isNaN s.a = false → isNaN s.b = false → t'.r = t.r) ∧
      (isNaN s.a = true ∨ isNaN s.b = true → isNaN t.r = true ∧ isNaN t'.r = true) := by
  have hNaN (u : State) : Delivers (isNaN u.a || isNaN u.b) i u :=
    delivers_of_mem_nanBinary (by fin_cases hi <;> decide) u
  obtain ⟨t, ht, -, hr⟩ := hNaN s
  obtain ⟨t', ht', -, hr'⟩ := hNaN s'
  rw [ha, hb, Bool.or_comm] at hr'
  refine ⟨t, t', ht, ht', fun hna hnb => ?_, fun h => ?_⟩
  · rcases List.mem_pair.1 hi with rfl | rfl <;> cases ht <;> cases ht'
    · simp only [State.withST_r, State.withR_r, ha, hb]
      rw [qNaN_comm hi hna hnb, addQuad_comm _ hna hnb]
    · simp only [State.withST_r, State.withR_r, ha, hb]
      rw [qNaN_comm hi hna hnb, mulQuad_comm]
  · have h' := Bool.or_eq_true_iff.2 h
    exact ⟨hr.isNaN_of_operand h', hr'.isNaN_of_operand h'⟩

/-- Settles O37, law by law. -/
theorem arithmeticLaws : Obligations.ArithmeticLaws := by
  unfold Obligations.ArithmeticLaws
  refine ⟨fun s s' i hi ha hb => exec_comm hi ha hb, fun s ha hb => ?_, fun s ha hb => ?_, fun s ha hb => ⟨?_, ?_⟩,
    fun s ha hb => ?_, fun s s' i hi ha hb => ?_⟩
  · rw [exec, execAdd, hb, addQuad_zero _ ha, finishR_eq]
  · have hone : (0x3FFF0000000000000000000000000000 : Quad) = oneQuad := by decide
    rw [exec, execMul, hb, hone, mulQuad_one _ ha, finishR_eq]
  · rw [exec, execAdd, ha, hb, addQuad_inf, if_pos rfl, finishR_eq]
  · refine ⟨_, rfl, ?_⟩
    have hflip : flipSign (signedInf false) = signedInf true := by decide
    rw [ha, hb, hflip, addQuad_inf, if_neg Bool.false_ne_true]
    exact isNaN_qNaN _ _ _
  · obtain ⟨-, -, -, hzero, -⟩ := divQuad_divRule (qNaN .div 0 [s.a, s.b]) s.a s.b
    rw [exec, execDiv, hzero ha hb, finishR_eq]
  · obtain ⟨f, hf⟩ := exec_arith_eq_finishR hi
    refine ⟨_, _, hf s, hf s', ?_⟩
    rw [State.withST_r, State.withST_r, State.withR_r, State.withR_r, ha, hb]

end Sys2Proof.Machine
end

section
/-! PROOFS. The comparison commands (spec/42_compare.md rules R600 to R608): the machine's order in units is the order of
the extended reals, and what each command writes is a function of the relation. -/

namespace Sys2Proof.Machine

/-! ### The order in units -/

/-- The units that stand for +∞ in `extended` (R600). -/
def infUnits : ℤ := 2 ^ 32878

/-- The extended real that a number of units between −∞'s and +∞'s stands for. -/
noncomputable def extOfUnits (n : ℤ) : EReal :=
  if n = infUnits then ⊤ else if n = -infUnits then ⊥ else ((n / unit : ℝ) : EReal)

theorem infUnits_pos : 0 < infUnits := pow_pos two_pos _

/-- Every finite magnitude is below the units of +∞: at most 113 bits times 2^32765 (R400, R403). -/
theorem magnitude_lt_infUnits {q : Quad} (hf : isFinite q = true) : (magnitude q : ℤ) < infUnits := by
  have hexp := (isFinite_iff q).1 hf
  have hpow : 2 ^ (quadExp q - 1) ≤ 2 ^ 32765 := pow_le_pow_right₀ one_le_two (by omega)
  have hlt := Nat.mul_lt_mul_of_lt_of_le (significand_lt q) hpow (pow_pos two_pos _)
  rw [← magnitude_eq_significand] at hlt
  rw [infUnits, show 32878 = 113 + 32765 from rfl, pow_add]
  exact_mod_cast hlt

theorem abs_scaled_lt_infUnits {q : Quad} (hf : isFinite q = true) : |scaled q| < infUnits := by
  rw [Int.abs_eq_natAbs, natAbs_scaled]
  exact magnitude_lt_infUnits hf

theorem extended_of_isInf {q : Quad} (hi : isInf q = true) :
    extended q = if quadSign q then -infUnits else infUnits := by
  rw [extended, if_pos hi, infUnits]

theorem extended_of_isFinite {q : Quad} (hf : isFinite q = true) : extended q = scaled q := by
  rw [extended, not_inf_of_finite hf, if_neg Bool.false_ne_true]

theorem abs_extended_le_infUnits {q : Quad} (hn : isNaN q = false) : |extended q| ≤ infUnits := by
  cases hi : isInf q with
  | true =>
    rw [extended_of_isInf hi, apply_ite abs, abs_neg, ite_self, abs_of_pos infUnits_pos]
  | false =>
    have hf := isFinite_of_not_nan_not_inf hn hi
    rw [extended_of_isFinite hf]
    exact (abs_scaled_lt_infUnits hf).le

theorem extended_mem_Icc {q : Quad} (hn : isNaN q = false) : extended q ∈ Set.Icc (-infUnits) infUnits :=
  abs_le.1 (abs_extended_le_infUnits hn)

/-- The machine's units of a quad that is not a NaN stand for its `ext` (R600). -/
theorem extReal_eq_extOfUnits {q : Quad} (hn : isNaN q = false) : extReal q = extOfUnits (extended q) := by
  cases hi : isInf q with
  | true =>
    have hpos := infUnits_pos
    rw [extReal, if_pos hi, extended_of_isInf hi, extOfUnits]
    cases quadSign q with
    | true => rw [if_pos rfl, if_pos rfl, if_neg (by omega), if_pos rfl]
    | false => rw [if_neg Bool.false_ne_true, if_neg Bool.false_ne_true, if_pos rfl]
  | false =>
    have hf := isFinite_of_not_nan_not_inf hn hi
    obtain ⟨hlo, hhi⟩ := abs_lt.1 (abs_scaled_lt_infUnits hf)
    rw [extReal, hi, if_neg Bool.false_ne_true, extended_of_isFinite hf, extOfUnits, if_neg hhi.ne, if_neg hlo.ne',
      valReal, val_eq_scaled]
    push_cast
    rfl

/-- More units stand for a greater extended real: only the last stands for ⊤ and only the first for ⊥. -/
theorem extOfUnits_strictMonoOn : StrictMonoOn extOfUnits (Set.Icc (-infUnits) infUnits) := by
  rintro m ⟨hmlo, -⟩ n ⟨-, hnhi⟩ hmn
  have hm : m ≠ infUnits := by omega
  have hn : n ≠ -infUnits := by omega
  rw [extOfUnits, extOfUnits, if_neg hm, if_neg hn]
  by_cases hbot : m = -infUnits <;> by_cases htop : n = infUnits
  · rw [if_pos hbot, if_pos htop]
    exact bot_lt_top
  · rw [if_pos hbot, if_neg htop]
    exact EReal.bot_lt_coe _
  · rw [if_neg hbot, if_pos htop]
    exact EReal.coe_lt_top _
  · rw [if_neg hbot, if_neg htop, EReal.coe_lt_coe_iff]
    exact div_lt_div_of_pos_right (Int.cast_lt.2 hmn) (Nat.cast_pos.2 unit_pos)

section
variable {a b : Quad} (ha : isNaN a = false) (hb : isNaN b = false)
include ha hb

theorem extended_lt_iff : extended a < extended b ↔ extReal a < extReal b := by
  rw [extReal_eq_extOfUnits ha, extReal_eq_extOfUnits hb,
    extOfUnits_strictMonoOn.lt_iff_lt (extended_mem_Icc ha) (extended_mem_Icc hb)]

theorem extended_eq_iff : extended a = extended b ↔ extReal a = extReal b := by
  rw [extReal_eq_extOfUnits ha, extReal_eq_extOfUnits hb,
    extOfUnits_strictMonoOn.injOn.eq_iff (extended_mem_Icc ha) (extended_mem_Icc hb)]

/-! ### The relation -/

theorem compareQuad_of_not_nan :
    compareQuad a b =
      if extended a < extended b then .lt else if extended a = extended b then .eq else .gt := by
  rw [compareQuad, ha, hb]
  rfl

theorem compareQuad_eq_lt (h : extReal a < extReal b) : compareQuad a b = .lt := by
  rw [compareQuad_of_not_nan ha hb, if_pos ((extended_lt_iff ha hb).2 h)]

theorem compareQuad_eq_eq (h : extReal a = extReal b) : compareQuad a b = .eq := by
  have heq := (extended_eq_iff ha hb).2 h
  rw [compareQuad_of_not_nan ha hb, if_neg heq.not_lt, if_pos heq]

theorem compareQuad_eq_gt (h : extReal b < extReal a) : compareQuad a b = .gt := by
  have hlt := (extended_lt_iff hb ha).2 h
  rw [compareQuad_of_not_nan ha hb, if_neg hlt.not_gt, if_neg hlt.ne']

theorem compareQuad_ne_un : compareQuad a b ≠ .un := by
  rw [compareQuad_of_not_nan ha hb]
  split_ifs <;> exact Relation.noConfusion

end

theorem compareQuad_eq_un {a b : Quad} (h : isNaN a = true ∨ isNaN b = true) : compareQuad a b = .un :=
  if_pos (Bool.or_eq_true_iff.2 h)

/-! ### The commands -/

/-- The six commands that test the relation of two ordered operands (R602 to R607). -/
def orderTests : List Instr := [.ceq, .cne, .clt, .cle, .cgt, .cge]

/-- Whether the test of R602 to R607 accepts the relation; no other command accepts one. -/
def accepts (r : Relation) : Instr → Bool
  | .ceq => r == .eq
  | .cne => r == .lt || r == .gt
  | .clt => r == .lt
  | .cle => r == .lt || r == .eq
  | .cgt => r == .gt
  | .cge => r == .gt || r == .eq
  | _ => false

theorem exec_orderTest {i : Instr} (hi : i ∈ orderTests) (s : State) :
    exec i s = .next ((s.withRI (boolWord (accepts (compareQuad s.a s.b) i))).withST 0) := by
  unfold orderTests at hi
  fin_cases hi <;> rfl

/-- Tests that agree on the relation of the operands write the same word. -/
theorem exec_orderTests_of_accepts {s : State} {r : Relation} (hr : compareQuad s.a s.b = r) {l : List Instr} {p : Bool}
    (hl : ∀ i ∈ l, i ∈ orderTests ∧ accepts r i = p) :
    ∀ i ∈ l, exec i s = .next ((s.withRI (boolWord p)).withST 0) := by
  intro i hi
  obtain ⟨hmem, hp⟩ := hl i hi
  rw [exec_orderTest hmem, hr, hp]

theorem exec_cmp {s : State} {r : Relation} (hr : compareQuad s.a s.b = r) :
    exec .cmp s = .next ((s.withRI (relationCode r)).withST 0) := by
  rw [← hr]
  rfl

/-- CUN is the test for the relation `un` (R608). -/
theorem exec_cun (s : State) :
    exec .cun s = .next ((s.withRI (if compareQuad s.a s.b = .un then 1 else 0)).withST 0) := by
  rw [← boolWord_eq_ite beq_iff_eq]
  rfl

/-- CMP and the order tests, those that accept the relation and those that do not. -/
theorem exec_of_relation {s : State} {r : Relation} (hr : compareQuad s.a s.b = r) {accepting rejecting : List Instr}
    (hacc : ∀ i ∈ accepting, i ∈ orderTests ∧ accepts r i = true)
    (hrej : ∀ i ∈ rejecting, i ∈ orderTests ∧ accepts r i = false) :
    exec .cmp s = .next ((s.withRI (relationCode r)).withST 0) ∧
      (∀ i ∈ accepting, exec i s = .next ((s.withRI 1).withST 0)) ∧
      ∀ i ∈ rejecting, exec i s = .next ((s.withRI 0).withST 0) :=
  ⟨exec_cmp hr, exec_orderTests_of_accepts hr hacc, exec_orderTests_of_accepts hr hrej⟩

/-- Settles O38: the relation of the operands, and what the commands write for it. -/
theorem comparisonsOrderTheExtendedReals : Obligations.ComparisonsOrderTheExtendedReals := by
  unfold Obligations.ComparisonsOrderTheExtendedReals
  refine ⟨by decide, by decide, by decide, by decide, by decide, by decide, by decide, by decide, fun s =>
    ⟨fun hnan => ?_, fun ha hb => ⟨?_, fun hlt => ?_, fun heq => ?_, fun hgt => ?_⟩⟩⟩
  · have hr := compareQuad_eq_un hnan
    refine ⟨exec_cmp hr, ?_, exec_orderTests_of_accepts (p := false) hr (by decide)⟩
    rw [exec_cun, if_pos hr]
  · rw [exec_cun, if_neg (compareQuad_ne_un ha hb)]
  · exact exec_of_relation (compareQuad_eq_lt ha hb hlt) (by decide) (by decide)
  · exact exec_of_relation (compareQuad_eq_eq ha hb heq) (by decide) (by decide)
  · exact exec_of_relation (compareQuad_eq_gt ha hb hgt) (by decide) (by decide)

end Sys2Proof.Machine
end

section
/-! PROOFS. The conversions (spec/43_convert_const.md rules R700, R710): an integer or a binary64 pattern is a significand
of fewer than 113 bits times a power of two in a quad's range, which RoundPack gives unrounded. -/

namespace Sys2Proof.Machine

/-- The machine's rounder is exact on a fraction n/d = m·2^k that fits a quad's significand and exponent (R421). -/
theorem roundPack_exact (s : Bool) {n d m : ℕ} {k : ℤ} (hd : 0 < d) (hm : m < 2 ^ 113) (hk : -16494 ≤ k)
    (hk' : k ≤ 16271) (h : (n : ℚ) / d = m * 2 ^ k) :
    quadSign (roundPack s n d) = s ∧ isFinite (roundPack s n d) = true ∧ |val (roundPack s n d)| = m * 2 ^ k := by
  have hreal : ((m * 2 ^ k : ℚ) : ℝ) = m * 2 ^ k := by push_cast; rfl
  rw [← roundPackReal_ratCast_div s n hd, h]
  refine ⟨roundPackReal_sign s _, isFinite_roundPackReal s ?_ ?_, abs_val_roundPackReal_exact s hm hk hk' rfl⟩
  · rw [hreal]
    positivity
  · rw [hreal]
    exact natCast_mul_zpow_lt_threshold hm hk'

/-! ### Integers -/

theorem intQuad_zero : intQuad 0 = 0 := by decide

/-- An integer of fewer than 113 bits is converted exactly (R700). -/
theorem intQuad_exact {n : ℤ} (hn : n.natAbs < 2 ^ 113) : isFinite (intQuad n) = true ∧ val (intQuad n) = n := by
  obtain ⟨hsign, hfinite, habs⟩ :=
    roundPack_exact (decide (n < 0)) (n := n.natAbs) (k := 0) one_pos hn (by decide) (by decide) (by simp)
  refine ⟨hfinite, ?_⟩
  rw [intQuad, roundSigned, val_eq_ite_abs, hsign, habs, zpow_zero, mul_one, Nat.cast_natAbs, Int.cast_abs]
  rcases lt_or_ge n 0 with h | h
  · rw [if_pos (decide_eq_true h), abs_of_neg (Int.cast_lt_zero.2 h), neg_neg]
  · rw [if_neg (by simpa using h), abs_of_nonneg (Int.cast_nonneg h)]

/-! ### Doubles -/

theorem doubleSign_eq_decide (n : Word) : doubleSign n = decide (2 ^ 63 ≤ n.toNat) :=
  (BitVec.msb_eq_getLsbD_last n).symm.trans (BitVec.msb_eq_decide n)

theorem doubleExp_eq (n : Word) : doubleExp n = n.toNat / 2 ^ 52 % 2 ^ 11 := by
  rw [doubleExp, BitVec.extractLsb'_toNat, Nat.shiftRight_eq_div_pow]

theorem doubleFrac_eq (n : Word) : doubleFrac n = n.toNat % 2 ^ 52 := by
  rw [doubleFrac, BitVec.extractLsb'_toNat, Nat.shiftRight_zero]

/-- The fraction R710 rounds for a normal double is its significand times a power of two. -/
theorem mul_two_pow_sub_div (m e b : ℕ) :
    ((m * 2 ^ (e - b) : ℕ) : ℚ) / (2 ^ (b - e) : ℕ) = m * 2 ^ ((e : ℤ) - b) := by
  have hsub : (e : ℤ) - b = (e - b : ℕ) - (b - e : ℕ) := by omega
  rw [hsub, zpow_sub₀ two_ne_zero, zpow_natCast, zpow_natCast]
  push_cast
  rw [mul_div_assoc]

/-- R710: the double, case by case. -/
theorem doubleQuad_doubleRule (nan : Quad) (n : Word) : DoubleRule nan n (doubleQuad nan n) := by
  have hexp : doubleExp n < 2 ^ 11 := BitVec.isLt _
  have hfrac : doubleFrac n < 2 ^ 52 := BitVec.isLt _
  unfold DoubleRule
  rw [← doubleSign_eq_decide, ← doubleExp_eq, ← doubleFrac_eq]
  refine ⟨fun he hf => ?_, fun he hf => ?_, fun he hf => ?_, fun he hf => ?_, fun he he' => ?_⟩
  · simp [doubleQuad, he, hf]
  · simp [doubleQuad, he, hf]
  · simp [doubleQuad, he, hf]
  · have hq : doubleQuad nan n = roundPack (doubleSign n) (doubleFrac n) (2 ^ 1074) := by
      simp [doubleQuad, he, hf, -Nat.reducePow]
    rw [hq]
    refine roundPack_exact _ (by positivity) (by omega) (by decide) (by decide) ?_
    rw [zpow_neg, div_eq_mul_inv]
    norm_cast
  · have hq : doubleQuad nan n = roundPack (doubleSign n) ((2 ^ 52 + doubleFrac n) * 2 ^ (doubleExp n - 1075))
        (2 ^ (1075 - doubleExp n)) := by simp [doubleQuad, he, he']
    rw [hq]
    exact_mod_cast roundPack_exact _ (Nat.two_pow_pos _) (by omega) (by omega) (by omega)
      (mul_two_pow_sub_div (2 ^ 52 + doubleFrac n) (doubleExp n) 1075)

/-- Settles O39: a 64-bit integer and a double have fewer than 113 significant bits. -/
theorem conversionsAreExact : Obligations.ConversionsAreExact := by
  unfold Obligations.ConversionsAreExact
  refine ⟨by decide, by decide, fun s => ⟨⟨intQuad s.nInt, rfl, fun hn => ?_, ?_⟩, _, rfl, doubleQuad_doubleRule _ _⟩⟩
  · rw [State.nInt, hn]
    exact intQuad_zero
  · have hlo := s.n.val.le_toInt
    have hhi := s.n.val.toInt_lt
    exact intQuad_exact (n := s.n.val.toInt) (by omega)

end Sys2Proof.Machine
end

section
/-! PROOFS. The constant and limits tables (spec/43_convert_const.md rules R720, R730): the rows, and the two constants
that are roots against RoundPack of the reals they name. -/

namespace Sys2Proof.Machine

/-! ### Rounding a real to a known pattern -/

/-- An integer less than half away is the one `RNE_int` gives (R422). -/
theorem rneReal_eq_of_abs_sub_lt {x : ℝ} {m : ℕ} (hx : 0 ≤ x) (h : |x - m| < 1 / 2) : rneReal x = m := by
  have hle := (rneReal_spec hx).1
  have hdist : |((rneReal x : ℤ) : ℝ) - (m : ℤ)| < 1 := by
    push_cast
    calc |(rneReal x : ℝ) - m| ≤ |(rneReal x : ℝ) - x| + |x - m| := abs_sub_le _ _ _
      _ < 1 := by rw [abs_sub_comm]; linarith
  have hzero : (rneReal x : ℤ) - m = 0 := Int.abs_lt_one_iff.1 (by exact_mod_cast hdist)
  omega

/-- RoundPack of a positive real from its binade and the integer nearest to it in quanta (R421). -/
theorem nearestQuad_eq_packRounded {y : ℝ} {e : ℤ} {m : ℕ} (h1 : (2 : ℝ) ^ e ≤ y) (h2 : y < 2 ^ (e + 1))
    (hm : |y / 2 ^ quantumExp e - m| < 1 / 2) : nearestQuad y = packRounded false (quantumExp e) m := by
  have hy : 0 < y := (zpow_pos two_pos e).trans_le h1
  have hsign : signReal y = false := by
    rw [← Bool.not_eq_true, signReal_iff]
    exact hy.not_gt
  rw [nearestQuad, hsign, abs_of_pos hy, roundPackReal_of_pos _ hy, log_eq_of_bounds h1 h2,
    rneReal_eq_of_abs_sub_lt (by positivity) hm]

/-- The significand of entries 11 and 12 of R721, the integer nearest to sqrt(2)·2^112. -/
def sqrtTwoSignificand : ℕ := 0x16A09E667F3BCC908B2FB1366EA95

theorem abs_sqrt_two_sub_lt : |Real.sqrt 2 * 2 ^ 112 - sqrtTwoSignificand| < 1 / 2 := by
  have hlo : ((sqrtTwoSignificand : ℝ) - 1 / 2) / 2 ^ 112 < Real.sqrt 2 :=
    Real.lt_sqrt_of_sq_lt (by norm_num [sqrtTwoSignificand])
  have hhi : Real.sqrt 2 < ((sqrtTwoSignificand : ℝ) + 1 / 2) / 2 ^ 112 :=
    (Real.sqrt_lt' (by positivity)).2 (by norm_num [sqrtTwoSignificand])
  rw [div_lt_iff₀ (by positivity)] at hlo
  rw [lt_div_iff₀ (by positivity)] at hhi
  exact abs_sub_lt_iff.2 ⟨by linarith, by linarith⟩

theorem nearestQuad_sqrt_two : nearestQuad (Real.sqrt 2) = 0x3FFF6A09E667F3BCC908B2FB1366EA95 := by
  have hquanta : Real.sqrt 2 / 2 ^ quantumExp 0 = Real.sqrt 2 * 2 ^ 112 := by
    rw [show quantumExp 0 = -112 from rfl, zpow_neg, div_inv_eq_mul]
    rfl
  rw [nearestQuad_eq_packRounded (e := 0) ?_ ?_ (hquanta ▸ abs_sqrt_two_sub_lt)]
  · decide
  · rw [zpow_zero]
    exact Real.one_le_sqrt.2 one_le_two
  · norm_num [Real.sqrt_lt']

/-- 1/sqrt(2) is sqrt(2)/2, one binade below with the same significand. -/
theorem nearestQuad_inv_sqrt_two : nearestQuad (1 / Real.sqrt 2) = 0x3FFE6A09E667F3BCC908B2FB1366EA95 := by
  have hhalf : 1 / Real.sqrt 2 = Real.sqrt 2 / 2 := Real.sqrt_div_self'.symm
  have hquanta : Real.sqrt 2 / 2 / 2 ^ quantumExp (-1) = Real.sqrt 2 * 2 ^ 112 := by
    rw [show quantumExp (-1) = -113 from rfl, zpow_neg, div_inv_eq_mul, show (113 : ℤ) = 1 + 112 from rfl,
      zpow_add₀ two_ne_zero, zpow_one, ← mul_assoc, div_mul_cancel₀ _ two_ne_zero]
    rfl
  rw [hhalf, nearestQuad_eq_packRounded (e := -1) ?_ ?_ (hquanta ▸ abs_sqrt_two_sub_lt)]
  · decide
  · rw [zpow_neg_one, ← one_div]
    exact div_le_div_of_nonneg_right (Real.one_le_sqrt.2 one_le_two) zero_le_two
  · norm_num [Real.sqrt_lt', div_lt_iff₀]

/-! ### The tables -/

theorem exec_const_of_eq_some {k : ℕ} {q : Quad} (h : constTable k = some q) (s : State) :
    exec (.const k) s = .next ((s.withR q).withST 0) := by
  rw [exec, execConst, h]
  rfl

/-- CONST with a selector above the table's last row reports BAD_OPERAND (R720). -/
theorem exec_const_of_twelve_lt {k : ℕ} (hk : 12 < k) (s : State) : exec (.const k) s = .next (s.withST 2) := by
  rw [exec, execConst, (constTable_eq_none_iff k).2 hk]
  rfl

/-- Rows of the constant table, at the command (R720). -/
theorem exec_const_of_rows {rows : List (ℕ × Quad)} (h : ∀ p ∈ rows, constTable p.1 = some p.2) :
    ∀ s : State, ∀ k q, (k, q) ∈ rows → exec (.const k) s = .next ((s.withR q).withST 0) :=
  fun s k q hmem => exec_const_of_eq_some (h (k, q) hmem) s

/-- Quad rows of the limits table, at the command (R730). -/
theorem exec_limit_of_quadRows {rows : List (ℕ × Quad)} (h : ∀ p ∈ rows, limitQuad p.1 = some p.2) :
    ∀ s : State, ∀ k q, (k, q) ∈ rows → exec (.limit k) s = .next ((s.withR q).withST 0) := by
  intro s k q hmem
  rw [exec, execLimit, h (k, q) hmem]
  rfl

/-- Integer rows of the limits table, at the command (R730). -/
theorem exec_limit_of_intRows {rows : List (ℕ × Word)}
    (h : ∀ p ∈ rows, limitQuad p.1 = none ∧ (limitInt p.1).map (BitVec.ofInt 64) = some p.2) :
    ∀ s : State, ∀ k v, (k, v) ∈ rows → exec (.limit k) s = .next ((s.withRI v).withST 0) := by
  intro s k v hmem
  obtain ⟨hquad, hint⟩ := h (k, v) hmem
  obtain ⟨n, hn, rfl⟩ := Option.map_eq_some_iff.1 hint
  rw [exec, execLimit, hquad, hn]
  rfl

/-- Settles O40: the word by the encoder, the table row by row, and the two roots by their nearest integers of quanta. -/
theorem constantsAreTheTable : Obligations.ConstantsAreTheTable := by
  unfold Obligations.ConstantsAreTheTable
  refine ⟨fun k hk => decodeInvertsEncode (.const k) (decide_eq_true hk), exec_const_of_rows (by decide),
    fun s => ⟨?_, ?_⟩, fun s k hk => exec_const_of_twelve_lt hk s⟩
  · rw [nearestQuad_sqrt_two]
    exact exec_const_of_eq_some rfl s
  · rw [nearestQuad_inv_sqrt_two]
    exact exec_const_of_eq_some rfl s

/-- Settles O41: the word by the encoder, the table row by row. -/
theorem limitsAreTheTable : Obligations.LimitsAreTheTable := by
  unfold Obligations.LimitsAreTheTable
  exact ⟨fun k hk => decodeInvertsEncode (.limit k) (decide_eq_true hk), exec_limit_of_quadRows (by decide),
    exec_limit_of_intRows (by decide), fun s k hk => exec_limit_of_nine_lt hk s⟩

end Sys2Proof.Machine
end

section
/-! PROOFS. SQRT (spec/44_transcendental.md rule R810): the integer square root of the normalized significand and its rounding
against RoundPack of the real root. -/

namespace Sys2Proof.Machine

theorem signReal_eq_false_of_nonneg {y : ℝ} (h : 0 ≤ y) : signReal y = false := by
  rw [← Bool.not_eq_true, signReal_iff]
  exact h.not_gt

theorem nearestQuad_of_nonneg {y : ℝ} (h : 0 ≤ y) : nearestQuad y = roundPackReal false y := by
  rw [nearestQuad, signReal_eq_false_of_nonneg h, abs_of_nonneg h]

/-- The machine's choice between f and f + 1 is the nearest integer to the root: f + 1/2 squares to f² + f + 1/4, which
no integer is (R422, R810). -/
theorem abs_sqrt_sub_lt {n f : ℕ} (h1 : f * f ≤ n) (h2 : n < (f + 1) * (f + 1)) :
    |Real.sqrt n - ((if f * f + f < n then f + 1 else f : ℕ) : ℝ)| < 1 / 2 := by
  have hlo : (f : ℝ) ≤ Real.sqrt n := Real.le_sqrt_of_sq_le (by exact_mod_cast (pow_two f).trans_le h1)
  have hhi : Real.sqrt n < f + 1 := by
    rw [Real.sqrt_lt' (by positivity), pow_two]
    exact_mod_cast h2
  split_ifs with h
  · have hmid : (f : ℝ) + 1 / 2 < Real.sqrt n := by
      have hn : ((f * f + f + 1 : ℕ) : ℝ) ≤ n := Nat.cast_le.2 h
      push_cast at hn
      exact Real.lt_sqrt_of_sq_lt (by linarith)
    push_cast
    exact abs_sub_lt_iff.2 ⟨by linarith, by linarith⟩
  · have hmid : Real.sqrt n < f + 1 / 2 := by
      have hn : (n : ℝ) ≤ ((f * f + f : ℕ) : ℝ) := Nat.cast_le.2 (not_lt.1 h)
      push_cast at hn
      exact (Real.sqrt_lt' (by positivity)).2 (by linarith)
    exact abs_sub_lt_iff.2 ⟨by linarith, by linarith⟩

/-- The root of M·2^(X − 112) is the root of an integer times an even power's root (R810). -/
theorem sqrt_mul_zpow (m : ℕ) (x : ℤ) :
    Real.sqrt (m * 2 ^ (x - 112)) = Real.sqrt ((m * 2 ^ (112 + (x % 2).toNat) : ℕ) : ℝ) * 2 ^ (x / 2 - 112) := by
  have hx : x - 112 = ((112 + (x % 2).toNat : ℕ) : ℤ) + ((x / 2 - 112) + (x / 2 - 112)) := by omega
  have hpow : (0 : ℝ) ≤ 2 ^ (x / 2 - 112) := zpow_nonneg zero_le_two _
  rw [hx, zpow_add₀ two_ne_zero, zpow_natCast, ← mul_assoc, Real.sqrt_mul (by positivity), zpow_add₀ two_ne_zero,
    Real.sqrt_mul_self hpow]
  push_cast
  rfl

/-- The integer whose root is taken has 225 or 226 bits (R810). -/
theorem rootOperand_bounds {m : ℕ} (h1 : 2 ^ 112 ≤ m) (h2 : m < 2 ^ 113) (x : ℤ) :
    2 ^ 224 ≤ m * 2 ^ (112 + (x % 2).toNat) ∧ m * 2 ^ (112 + (x % 2).toNat) < 2 ^ 226 := by
  have hr : (x % 2).toNat < 2 := by omega
  constructor
  · calc 2 ^ 224 = 2 ^ 112 * 2 ^ 112 := pow_add 2 112 112
      _ ≤ m * 2 ^ (112 + (x % 2).toNat) := Nat.mul_le_mul h1 (Nat.pow_le_pow_right two_pos (by omega))
  · calc m * 2 ^ (112 + (x % 2).toNat)
      _ < 2 ^ 113 * 2 ^ (112 + (x % 2).toNat) := Nat.mul_lt_mul_of_pos_right h2 (Nat.two_pow_pos _)
      _ ≤ 2 ^ 113 * 2 ^ 113 := Nat.mul_le_mul_left _ (Nat.pow_le_pow_right two_pos (by omega))
      _ = 2 ^ 226 := (pow_add 2 113 113).symm

/-- The root lies in the binade that starts at 2^112. -/
theorem sqrt_bounds {n : ℕ} (h1 : 2 ^ 224 ≤ n) (h2 : n < 2 ^ 226) :
    (2 : ℝ) ^ 112 ≤ Real.sqrt n ∧ Real.sqrt n < 2 ^ 113 :=
  ⟨Real.le_sqrt_of_sq_le (by rw [← pow_mul]; exact_mod_cast h1),
    (Real.sqrt_lt' (by positivity)).2 (by rw [← pow_mul]; exact_mod_cast h2)⟩

/-- R810's computation is RoundPack of the real root. -/
theorem roundRoot_eq_roundPackReal {m : ℕ} {x : ℤ} (h1 : 2 ^ 112 ≤ m) (h2 : m < 2 ^ 113) (hx : -32764 ≤ x) :
    roundRoot m x = roundPackReal false (Real.sqrt (m * 2 ^ (x - 112))) := by
  have hquantum : quantumExp (x / 2) = x / 2 - 112 := by
    rw [quantumExp, max_eq_left (by omega)]
  have hroot := sqrt_mul_zpow m x
  obtain ⟨hnlo, hnhi⟩ := rootOperand_bounds h1 h2 x
  rw [roundRoot]
  generalize m * 2 ^ (112 + (x % 2).toNat) = n at hroot hnlo hnhi ⊢
  obtain ⟨hf1, hf2⟩ := isqrt_spec n hnhi
  obtain ⟨hlo, hhi⟩ := sqrt_bounds hnlo hnhi
  have hpow : (0 : ℝ) < 2 ^ (x / 2 - 112) := zpow_pos two_pos _
  have hdiv : Real.sqrt (m * 2 ^ (x - 112)) / 2 ^ quantumExp (x / 2) = Real.sqrt n := by
    rw [hroot, hquantum, mul_div_cancel_right₀ _ hpow.ne']
  rw [← nearestQuad_of_nonneg (Real.sqrt_nonneg _),
    nearestQuad_eq_packRounded (e := x / 2) ?_ ?_ (hdiv ▸ abs_sqrt_sub_lt hf1 hf2)]
  · rw [hroot, show x / 2 = ((112 : ℕ) : ℤ) + (x / 2 - 112) by push_cast; ring, zpow_add₀ two_ne_zero, zpow_natCast]
    simpa using mul_le_mul_of_nonneg_right hlo hpow.le
  · rw [hroot, show x / 2 + 1 = ((113 : ℕ) : ℤ) + (x / 2 - 112) by push_cast; ring, zpow_add₀ two_ne_zero, zpow_natCast]
    exact mul_lt_mul_of_pos_right hhi hpow

/-- The normalizer's exponent is far above the least one whose half is still in a normal quad's range (R420). -/
theorem le_normalize_exponent {q : Quad} (hz : isZero q = false) : -32764 ≤ (normalize q).2.2 := by
  rw [normalize_eq hz]
  dsimp only
  unfold unitExp
  omega

/-- The last branch of R810. -/
theorem sqrtQuad_of_finite_pos (nan : Quad) {a : Quad} (hf : isFinite a = true) (hz : isZero a = false)
    (hs : quadSign a = false) : sqrtQuad nan a = roundPackReal false (Real.sqrt (valReal a)) := by
  obtain ⟨-, h1, h2, hval, -⟩ := normalizerIsExact a hf hz
  have hreal : valReal a = (normalize a).2.1 * 2 ^ ((normalize a).2.2 - 112) := by
    rw [valReal, val_eq_ite_abs, hs, if_neg Bool.false_ne_true, hval]
    push_cast
    rfl
  rw [hreal, ← roundRoot_eq_roundPackReal h1 h2 (le_normalize_exponent hz)]
  simp [sqrtQuad, not_nan_of_finite hf, not_inf_of_finite hf, hz, hs]

/-- Settles O42: the special inputs by the branches, the last one by `sqrtQuad_of_finite_pos`. -/
theorem sqrtIsCorrectlyRounded : Obligations.SqrtIsCorrectlyRounded := by
  unfold Obligations.SqrtIsCorrectlyRounded
  refine ⟨by decide, fun s => ⟨_, rfl, fun hn => ?_, fun hz => ?_, fun hn hz hs => ?_, fun ha => ?_,
    sqrtQuad_of_finite_pos _⟩⟩
  · simp [sqrtQuad, hn]
  · simp [sqrtQuad, not_nan_of_finite (isFinite_of_isZero hz), hz]
  · simp [sqrtQuad, hn, hz, hs]
  · simp [sqrtQuad, ha, isZero_eq_false_of_inf]

end Sys2Proof.Machine
end

section
/-! PROOFS. POWI (spec/44_transcendental.md rule R814): the machine's loop on the exponent is the fold over its binary
digits. -/

namespace Sys2Proof.Machine

/-- One turn of the loop of R814 on (r, base). -/
def digitStep (p : Quad × Quad) (d : Bool) : Quad × Quad := (if d then loopMul p.1 p.2 else p.1, loopMul p.2 p.2)

theorem squareDigits_eq_foldl (x : Quad) (digits : List Bool) :
    squareDigits x digits = digits.foldl digitStep (oneQuad, x) := rfl

theorem powiLoop_zero (fuel : ℕ) (r base : Quad) : powiLoop fuel 0 r base = r := by
  cases fuel <;> rfl

/-- The digits of a positive number: the lowest, then those of its half. -/
theorem bits_of_ne_zero {e : ℕ} (he : e ≠ 0) : e.bits = decide (e % 2 = 1) :: (e / 2).bits := by
  have hbit : Nat.bit (decide (e % 2 = 1)) (e / 2) = e := by
    rcases Nat.mod_two_eq_zero_or_one e with h | h <;> simp [Nat.bit, h] <;> omega
  conv_lhs => rw [← hbit]
  exact Nat.bits_append_bit _ _ fun h => by
    have := Nat.div_add_mod e 2
    rw [decide_eq_true_iff]
    omega

/-- With fuel for every digit, the loop folds its turn over the digits of the exponent; the square that the machine leaves
out after the last digit reaches no product (R814). -/
theorem powiLoop_eq_foldl (fuel : ℕ) {e : ℕ} (he : e < 2 ^ fuel) (r base : Quad) :
    powiLoop fuel e r base = (e.bits.foldl digitStep (r, base)).1 := by
  induction fuel generalizing e r base with
  | zero =>
    obtain rfl : e = 0 := by omega
    rfl
  | succ fuel ih =>
    by_cases h0 : e = 0
    · rw [h0, powiLoop_zero, Nat.zero_bits, List.foldl_nil]
    · rw [powiLoop, if_neg h0, bits_of_ne_zero h0, List.foldl_cons]
      have hstep : digitStep (r, base) (decide (e % 2 = 1)) =
          (if e % 2 = 1 then loopMul r base else r, loopMul base base) := by
        simp only [digitStep, decide_eq_true_iff]
      rw [hstep]
      by_cases hlast : e / 2 = 0
      · rw [hlast, powiLoop_zero, Nat.zero_bits, List.foldl_nil]
      · rw [if_neg hlast]
        exact ih (by omega) _ _

/-- The fuel of 64 turns is enough for every 64-bit exponent (R814). -/
theorem powiLoop_64_eq_squareDigits {n : ℤ} (h : n.natAbs < 2 ^ 64) (x : Quad) :
    powiLoop 64 n.natAbs oneQuad x = (squareDigits x n.natAbs.bits).1 :=
  powiLoop_eq_foldl 64 h oneQuad x

theorem powiQuad_of_nonneg (nan : Quad) {x : Quad} (hn : isNaN x = false) {n : ℤ} (hfuel : n.natAbs < 2 ^ 64)
    (h : 0 ≤ n) : powiQuad nan x n = (squareDigits x n.natAbs.bits).1 := by
  simp [powiQuad, hn, h.not_gt, powiLoop_64_eq_squareDigits hfuel]

theorem powiQuad_of_neg (nan : Quad) {x : Quad} (hn : isNaN x = false) {n : ℤ} (hfuel : n.natAbs < 2 ^ 64) (h : n < 0) :
    powiQuad nan x n = divQuad (qNaN .div 0 [oneQuad, (squareDigits x n.natAbs.bits).1]) oneQuad
      (squareDigits x n.natAbs.bits).1 := by
  simp [powiQuad, hn, h, powiLoop_64_eq_squareDigits hfuel]

/-- Settles O43: the loop by `powiLoop_eq_foldl`, the last division by DIV's rule, the first power by 1's neutrality. -/
theorem powiIsTheSquaringLoop : Obligations.PowiIsTheSquaringLoop := by
  unfold Obligations.PowiIsTheSquaringLoop
  refine ⟨by decide, fun s =>
    ⟨powiQuad (qNaN .powi 0 [s.a, s.n.val.setWidth 128]) s.a s.n.val.toInt, rfl, fun hn => if_pos hn, ?_⟩⟩
  have hfuel : s.n.val.toInt.natAbs < 2 ^ 64 := by
    have hlo := s.n.val.le_toInt
    have hhi := s.n.val.toInt_lt
    omega
  refine ⟨fun hn h => powiQuad_of_nonneg _ hn hfuel h, fun hn h => ?_, fun hn h => ?_, fun hn h => ?_⟩
  · rw [powiQuad_of_neg _ hn hfuel h]
    exact divQuad_divRule _ _ _
  · rw [powiQuad_of_nonneg _ hn hfuel (by rw [h]; decide), h]
    rfl
  · rw [powiQuad_of_nonneg _ hn hfuel (by rw [h]; decide), h]
    exact (mulQuad_comm _ _ _).trans (mulQuad_one _ hn)

end Sys2Proof.Machine
end

section
/-! PROOFS. The table of FN_f (spec/44_transcendental.md rules R801 to R803): at an ordinary input each function's result is
the table's value, which meets the accuracy contract. -/

namespace Sys2Proof.Machine

/-- The operand the table gets beside the first: the second one for POW and ATAN2, +0 for the others (R802). -/
def Fn.operand (f : Fn) (b : Quad) : Quad :=
  match f with
  | .pow | .atan2 => b
  | .exp | .log | .sin | .cos | .tan | .cot | .sinh | .cosh | .tanh | .asin | .acos | .atan => signedZero false

theorem Fn.operand_second (f : Fn) (s : State) : f.operand (f.second s) = f.second s := by cases f <;> rfl

theorem exactValue_operand (f : Fn) (a b : Quad) : exactValue f a (f.operand b) = exactValue f a b := by cases f <;> rfl

theorem isFinite_signedZero (s : Bool) : isFinite (signedZero s) = true := isFinite_of_isZero (isZero_signedZero s)

theorem isFinite_of_ordinaryInput {f : Fn} {a b : Quad} (h : ordinaryInput f a b = true) :
    isFinite a = true ∧ isFinite b = true := by
  unfold ordinaryInput at h
  rw [Bool.and_eq_true, Bool.and_eq_true] at h
  exact h.1

theorem ordinaryInput_operand {f : Fn} {a b : Quad} (h : ordinaryInput f a b = true) :
    ordinaryInput f a (f.operand b) = true := by
  obtain ⟨-, hb⟩ := isFinite_of_ordinaryInput h
  have hzero := isFinite_signedZero false
  cases f with
  | pow | atan2 => exact h
  | _ => simpa [ordinaryInput, Fn.operand, hb, hzero] using h

theorem ne_signedInf_of_finite {q : Quad} (h : isFinite q = true) (s : Bool) : q ≠ signedInf s := by
  rintro rfl
  exact absurd (not_inf_of_finite h) (by simp)

/-- At an ordinary input every rule takes its last branch (R803). -/
theorem tableResult_of_ordinaryInput (fn : FnTable) (nan : Quad) {f : Fn} {a b : Quad}
    (h : ordinaryInput f a b = true) : tableResult f fn nan a b = fn f a (f.operand b) := by
  obtain ⟨ha, hb⟩ := isFinite_of_ordinaryInput h
  have hna := not_nan_of_finite ha
  have hnb := not_nan_of_finite hb
  have hia := not_inf_of_finite ha
  have hib := not_inf_of_finite hb
  have hinfA := ne_signedInf_of_finite ha
  have hinfB := ne_signedInf_of_finite hb
  cases f <;> simp only [ordinaryInput, ha, hb, Bool.and_eq_true, Bool.not_eq_true', bne_iff_ne, true_and, and_true] at h
  case exp | log => simp [tableResult, expQuad, logQuad, fn1, Fn.operand, hna, hinfA, h]
  case pow => simp [tableResult, powQuad, Fn.operand, hna, hnb, hib, hinfA, h]
  case sin | cos | tan | cot =>
    simp [tableResult, sinQuad, cosQuad, tanQuad, cotQuad, fn1, Fn.operand, hna, hia, h]
  case sinh | cosh | tanh => simp [tableResult, sinhQuad, coshQuad, tanhQuad, fn1, Fn.operand, hna, hia, h]
  case asin | acos | atan => simp [tableResult, asinQuad, acosQuad, atanQuad, fn1, Fn.operand, hna, hia, h]
  case atan2 => simp [tableResult, atan2Quad, Fn.operand, hna, hnb, hia, hinfB, h]

/-- Each function's command leaves its result from the block's table in R (R802). -/
theorem exec_command_eq_finishR (f : Fn) (s : State) :
    ∃ nan, exec f.command s = finishR s (tableResult f Config.fn nan s.a (f.second s)) := by
  cases f <;> exact ⟨_, rfl⟩

/-- An acceptable infinity is the exact value rounded: R801's other case is a finite quad. -/
theorem Acc.eq_nearestQuad_of_isInf {u : ℚ} {y : ℝ} {q : Quad} (h : Acc u y q) (hi : isInf q = true) :
    q = nearestQuad y := by
  rcases h with h | ⟨hf, -⟩
  · exact h
  · rw [not_inf_of_finite hf] at hi
    cases hi

/-- The table's value at an ordinary input is the last branch of its rule (R801, R802). -/
theorem tableValue_of_ordinaryInput {f : Fn} {a b : Quad} (h : ordinaryInput f a b = true) :
    TableValue f a b (Config.fn f a b) :=
  ⟨rfl, Config.fn_acc h, Config.fn_not_nan h⟩

theorem tableResult_tableValue (nan : Quad) {f : Fn} {a b : Quad} (h : ordinaryInput f a b = true) :
    TableValue f a (f.operand b) (tableResult f Config.fn nan a b) := by
  rw [tableResult_of_ordinaryInput Config.fn nan h]
  exact tableValue_of_ordinaryInput (ordinaryInput_operand h)

/-- Settles O51: the command's result is the table's value, and the contract speaks of that. -/
theorem accurateTableGivesAccurateResults : Obligations.AccurateTableGivesAccurateResults := by
  unfold Obligations.AccurateTableGivesAccurateResults
  refine ⟨fun s f h => ?_, Config.half_le_ulpBound, fun u fn hm f nan a b h => ?_⟩
  · obtain ⟨nan, hexec⟩ := exec_command_eq_finishR f s
    obtain ⟨heq, hacc, hnan⟩ := tableResult_tableValue nan h
    rw [Fn.operand_second] at heq hacc
    refine ⟨_, hexec, rfl, ?_⟩
    rw [State.withST_r, State.withR_r]
    exact ⟨heq, hacc, hnan, hacc.eq_nearestQuad_of_isInf⟩
  · rw [tableResult_of_ordinaryInput fn nan h, ← exactValue_operand]
    exact hm f a (f.operand b) (ordinaryInput_operand h)

end Sys2Proof.Machine
end

section
/-! PROOFS. The functions of one operand (spec/44_transcendental.md rules R811, R812, R815 to R825): the special inputs by
the branches, the last branch and its sign by the table. -/

namespace Sys2Proof.Machine

/-! ### The table's value at a finite operand -/

theorem TableValue.quadSign_eq_false {f : Fn} {a b q : Quad} (h : TableValue f a b q) (hy : 0 < exactValue f a b) :
    quadSign q = false :=
  (h.2.1.sign hy.ne').trans (signReal_eq_false_of_nonneg hy.le)

/-- The last branch of a function whose only special operands are the others (R803). -/
theorem tableValue_of_finite {f : Fn} {a : Quad}
    (hf : ∀ b, ordinaryInput f a b = (isFinite a && isFinite b && !isZero a)) (ha : isFinite a = true)
    (hz : isZero a = false) : TableValue f a (signedZero false) (fn1 Config.fn f a) := by
  refine tableValue_of_ordinaryInput ?_
  rw [hf, ha, isFinite_signedZero, hz]
  rfl

/-- The shape that R815, R816 and R818 to R822 share. -/
theorem oneOperandRule_ite {f : Fn} {nan atInf atZero a : Quad}
    (hf : ∀ b, ordinaryInput f a b = (isFinite a && isFinite b && !isZero a)) :
    OneOperandRule f nan atInf atZero a
      (if isNaN a then nan else if isInf a then atInf else if isZero a then atZero else fn1 Config.fn f a) := by
  refine ⟨fun hn => if_pos hn, fun hi => ?_, fun hz => ?_, fun ha hz => ?_⟩
  · simp [not_nan_of_inf hi, hi]
  · have ha := isFinite_of_isZero hz
    simp [not_nan_of_finite ha, not_inf_of_finite ha, hz]
  · simpa [not_nan_of_finite ha, not_inf_of_finite ha, hz] using tableValue_of_finite hf ha hz

/-! ### EXP and LOG -/

theorem signedInf_false_ne_true : signedInf false ≠ signedInf true := by decide

theorem val_pos_of_quadSign {q : Quad} (hz : isZero q = false) (hs : quadSign q = false) : 0 < val q := by
  rw [val_eq_ite_abs, hs, if_neg Bool.false_ne_true]
  exact abs_val_pos hz

theorem expQuad_expRule (nan a : Quad) : ExpRule nan a (expQuad Config.fn nan a) := by
  have htable (ha : isFinite a = true) (hz : isZero a = false) :
      TableValue .exp a (signedZero false) (expQuad Config.fn nan a) :=
    tableResult_tableValue nan (f := .exp) (b := signedZero false) (by simp [ordinaryInput, ha, hz, isFinite_signedZero])
  refine ⟨fun hn => if_pos hn, fun h => ?_, fun h => ?_, fun hz => ?_, fun ha hz => ?_, fun ha hv => ?_⟩
  · simp [expQuad, h]
  · simp [expQuad, h, signedInf_false_ne_true.symm]
  · have ha := isFinite_of_isZero hz
    simp [expQuad, not_nan_of_finite ha, ne_signedInf_of_finite ha, hz, oneQuad]
  · exact ⟨htable ha hz, (htable ha hz).quadSign_eq_false (Real.exp_pos _)⟩
  · have hz : isZero a = false := by
      rw [← Bool.not_eq_true, ← val_eq_zero_iff, hv]
      norm_num
    rw [(htable ha hz).1]
    exact (Config.fn_named a _ ha).1 hv

/-- The logarithm of a positive quad is far below the overflow threshold. -/
theorem abs_log_valReal_lt {a : Quad} (ha : isFinite a = true) (hz : isZero a = false) (hs : quadSign a = false) :
    |Real.log (valReal a)| < (2 : ℝ) ^ (16384 : ℤ) - 2 ^ (16270 : ℤ) := by
  have hpos : 0 < valReal a := Rat.cast_pos.2 (val_pos_of_quadSign hz hs)
  have hval := abs_valReal_eq_significand a
  rw [abs_of_pos hpos] at hval
  have hexp : -16494 ≤ unitExp a ∧ unitExp a ≤ 16271 := by
    have := (isFinite_iff a).1 ha
    unfold unitExp
    omega
  have hhi : valReal a < (2 : ℝ) ^ (16384 : ℤ) - 2 ^ (16270 : ℤ) :=
    hval ▸ natCast_mul_zpow_lt_threshold (significand_lt a) hexp.2
  have hlo : (2 : ℝ) ^ (-16494 : ℤ) ≤ valReal a := by
    rw [hval]
    exact (zpow_le_zpow_right₀ one_le_two hexp.1).trans
      (le_mul_of_one_le_left (zpow_nonneg zero_le_two _) (Nat.one_le_cast.2 (significand_pos hz)))
  have hlog : -16494 ≤ Real.log (valReal a) := by
    have h1 := Real.log_le_log (zpow_pos two_pos _) hlo
    rw [Real.log_zpow] at h1
    have h2 := Real.log_two_lt_d9
    push_cast at h1
    linarith
  have hbound : ((16494 : ℕ) : ℝ) * 2 ^ (0 : ℤ) < (2 : ℝ) ^ (16384 : ℤ) - 2 ^ (16270 : ℤ) :=
    natCast_mul_zpow_lt_threshold (by norm_num) (by norm_num)
  have hbelow := Real.log_le_sub_one_of_pos hpos
  rw [zpow_zero, mul_one, Nat.cast_ofNat] at hbound
  exact abs_lt.2 ⟨(neg_lt_neg hbound).trans_le hlog, hbelow.trans_lt ((sub_one_lt _).trans hhi)⟩

theorem logQuad_logRule (nan a : Quad) : LogRule nan a (logQuad Config.fn nan a) := by
  refine ⟨fun hn => if_pos hn, fun hz => ?_, fun hn hz hs => ?_, fun h => ?_, fun h => ?_, fun ha hz hs h1 => ?_⟩
  · simp [logQuad, not_nan_of_finite (isFinite_of_isZero hz), hz]
  · simp [logQuad, hn, hz, hs]
  · simp [logQuad, h, isZero_eq_false_of_inf]
  · have hz : isZero oneQuad = false := by decide
    have hs : quadSign oneQuad = false := quadSign_signedOne false
    have hfin : isFinite oneQuad = true := isFinite_signedOne false
    rw [h, ← oneQuad]
    simp [logQuad, not_nan_of_finite hfin, ne_signedInf_of_finite hfin, hz, hs]
  · have htable : TableValue .log a (signedZero false) (logQuad Config.fn nan a) :=
      tableResult_tableValue nan (f := .log) (b := signedZero false)
        (by simp [ordinaryInput, ha, hz, hs, isFinite_signedZero, oneQuad, h1])
    exact ⟨htable, htable.2.1.finite (abs_log_valReal_lt ha hz hs)⟩

/-! ### Overflow and underflow under the contract -/

theorem ulp_of_pos {y : ℝ} (hy : 0 < y) : ulp y = 2 ^ quantumExp (Int.log 2 y) := by
  rw [ulp, if_neg hy.ne', abs_of_pos hy]

/-- The pattern of the largest finite value (R404). -/
def maxQuad : Quad := 0x7FFEFFFFFFFFFFFFFFFFFFFFFFFFFFFF

theorem valReal_maxQuad : valReal maxQuad = (2 ^ 113 - 1) * 2 ^ (16271 : ℤ) := by
  have hpos : 0 ≤ valReal maxQuad := Rat.cast_nonneg.2 (val_pos_of_quadSign (by decide) (by decide)).le
  have h := abs_valReal_eq_significand maxQuad
  rw [abs_of_nonneg hpos, show significand maxQuad = 2 ^ 113 - 1 by decide, show unitExp maxQuad = 16271 by decide] at h
  rw [h]
  norm_num

theorem valReal_le_maxQuad {q : Quad} (hq : isFinite q = true) : valReal q ≤ valReal maxQuad := by
  have hsig : (significand q : ℝ) ≤ 2 ^ 113 - 1 := by
    rw [le_sub_iff_add_le]
    exact_mod_cast significand_lt q
  have hexp : unitExp q ≤ 16271 := by
    have := (isFinite_iff q).1 hq
    unfold unitExp
    omega
  calc valReal q ≤ |valReal q| := le_abs_self _
    _ = significand q * 2 ^ unitExp q := abs_valReal_eq_significand q
    _ ≤ (2 ^ 113 - 1) * 2 ^ (16271 : ℤ) :=
      mul_le_mul hsig (zpow_le_zpow_right₀ one_le_two hexp) (zpow_nonneg zero_le_two _) (by norm_num)
    _ = valReal maxQuad := valReal_maxQuad.symm

/-- A real past the largest finite value has a unit of the last binade or more. -/
theorem le_ulp_of_maxQuad_lt {y : ℝ} (h : valReal maxQuad < y) : (2 : ℝ) ^ (16271 : ℤ) ≤ ulp y := by
  have hbinade : (2 : ℝ) ^ (16383 : ℤ) ≤ y := by
    refine le_trans ?_ h.le
    rw [valReal_maxQuad, show (16383 : ℤ) = (112 : ℕ) + 16271 by norm_num, zpow_add₀ two_ne_zero, zpow_natCast]
    exact mul_le_mul_of_nonneg_right (by norm_num) (zpow_nonneg zero_le_two _)
  have hy : 0 < y := (zpow_pos two_pos _).trans_le hbinade
  have hlog : 16383 ≤ Int.log 2 y :=
    (Int.zpow_le_iff_le_log (b := 2) (by decide) hy).1 (by rw [Nat.cast_ofNat]; exact hbinade)
  rw [ulp_of_pos hy]
  refine zpow_le_zpow_right₀ one_le_two ?_
  unfold quantumExp
  omega

/-- An acceptable result for a real above the largest finite value by more than the bound is +∞ (R801, R811). -/
theorem Acc.eq_inf_of_overflow {u : ℚ} {y : ℝ} {q : Quad} (h : Acc u y q) (hu : 1 / 2 ≤ u)
    (hy : valReal maxQuad + u * ulp y < y) : q = signedInf false := by
  have hu' : (1 / 2 : ℝ) ≤ u := by simpa using (Rat.cast_le (K := ℝ)).2 hu
  have hulp0 : 0 ≤ ulp y := by
    unfold ulp
    split_ifs <;> positivity
  have hmax : valReal maxQuad < y := by
    have := mul_nonneg (one_half_pos.le.trans hu') hulp0
    linarith
  have hulp := le_ulp_of_maxQuad_lt hmax
  rcases h with rfl | ⟨hf, herr, -⟩
  · have hmax0 : 0 ≤ valReal maxQuad := by
      rw [valReal_maxQuad]
      exact mul_nonneg (by norm_num) (zpow_nonneg zero_le_two _)
    have hthreshold : (2 : ℝ) ^ (16384 : ℤ) - 2 ^ (16270 : ℤ) = valReal maxQuad + 1 / 2 * 2 ^ (16271 : ℤ) := by
      rw [valReal_maxQuad, show (16384 : ℤ) = (113 : ℕ) + 16271 by norm_num, show (16270 : ℤ) = 16271 + -1 by norm_num,
        zpow_add₀ two_ne_zero, zpow_add₀ two_ne_zero, zpow_natCast]
      ring
    rw [nearestQuad_of_nonneg (hmax0.trans hmax.le)]
    refine roundPackReal_of_overflow false ?_
    have hbound : 1 / 2 * 2 ^ (16271 : ℤ) ≤ u * ulp y :=
      mul_le_mul hu' hulp (zpow_nonneg zero_le_two _) (one_half_pos.le.trans hu')
    rw [hthreshold]
    linarith
  · have hle := valReal_le_maxQuad hf
    have herr' := (abs_le.1 herr).1
    linarith

/-- A positive quad below three of the smallest subnormals is one of the three patterns 0, 1 and 2 (R403). -/
theorem toNat_le_two_of_valReal_lt {q : Quad} (hs : quadSign q = false) (hv : valReal q < 3 * 2 ^ (-16494 : ℤ)) :
    q.toNat ≤ 2 := by
  have hmag : magnitude q < 3 := by
    have habs : |val q| = val q := by rw [val_eq_ite_abs q, hs, if_neg Bool.false_ne_true, abs_abs]
    have hlt : val q < 3 * 2 ^ (-16494 : ℤ) := by
      rw [← Rat.cast_lt (K := ℝ), Rat.cast_mul, Rat.cast_ofNat, Rat.cast_zpow, Rat.cast_ofNat]
      exact hv
    rw [← habs, abs_val, unit_cast, zpow_neg, ← div_eq_mul_inv, div_lt_div_iff_of_pos_right (zpow_pos two_pos _)] at hlt
    exact_mod_cast hlt
  have hexp : quadExp q = 0 := by
    by_contra h
    rw [magnitude, if_neg h] at hmag
    have := Nat.le_mul_of_pos_right (2 ^ 112 + quadFrac q) (Nat.two_pow_pos (quadExp q - 1))
    omega
  rw [magnitude, if_pos hexp, quadFrac_eq_fracOf, fracOf] at hmag
  rw [quadExp_eq_expOf, expOf] at hexp
  rw [quadSign_eq_decide, decide_eq_false_iff_not] at hs
  omega

/-- An acceptable result under a bound of 2 for a positive real below every rounding threshold (R801, R811). -/
theorem Acc.toNat_le_two {u : ℚ} {y : ℝ} {q : Quad} (h : Acc u y q) (hu : u ≤ 2) (hy : 0 < y)
    (hsmall : y ≤ 2 ^ (-16495 : ℤ)) : q.toNat ≤ 2 := by
  rcases h with rfl | ⟨hf, herr, hs⟩
  · rw [nearestQuad_of_nonneg hy.le, (isZero_iff_eq _).1 ((isZero_roundPackReal_iff false hy.le).2 hsmall),
      roundPackReal_sign]
    decide
  · have hlog : Int.log 2 y < -16382 := by
      refine (Int.lt_zpow_iff_log_lt (b := 2) (by decide) hy).1 ?_
      rw [Nat.cast_ofNat]
      exact hsmall.trans_lt (zpow_lt_zpow_right₀ one_lt_two (by decide))
    have hulp : ulp y = 2 ^ (-16494 : ℤ) := by
      rw [ulp_of_pos hy, quantumExp, max_eq_right hlog.le]
      rfl
    have hunit : (0 : ℝ) < 2 ^ (-16494 : ℤ) := zpow_pos two_pos _
    have hu' : (u : ℝ) ≤ 2 := by exact_mod_cast (Rat.cast_le (K := ℝ)).2 hu
    have hlt : (2 : ℝ) ^ (-16495 : ℤ) < 2 ^ (-16494 : ℤ) := zpow_lt_zpow_right₀ one_lt_two (by norm_num)
    rw [hulp] at herr
    have herr' := (abs_le.1 herr).2
    have hbound := mul_le_mul_of_nonneg_right hu' hunit.le
    refine toNat_le_two_of_valReal_lt ((hs hy.ne').trans (signReal_eq_false_of_nonneg hy.le)) ?_
    linarith

theorem exp_neg_20000_le : Real.exp (-20000) ≤ 2 ^ (-16495 : ℤ) := by
  have h1 : (2 : ℝ) ^ (7 * 4000) ≤ Real.exp 20000 := by
    convert two_pow_le_exp 4000 using 2
    norm_num
  have h : (2 : ℝ) ^ (16495 : ℕ) ≤ Real.exp 20000 := (pow_le_pow_right₀ one_le_two (by norm_num)).trans h1
  rw [Real.exp_neg, zpow_neg]
  exact inv_anti₀ (zpow_pos two_pos _) (by exact_mod_cast h)

/-- Settles O44: the two rules, and the two facts about acceptable results near the ends of the range. -/
theorem expAndLogFollowTheirRules : Obligations.ExpAndLogFollowTheirRules := by
  unfold Obligations.ExpAndLogFollowTheirRules
  exact ⟨by decide, by decide, fun s => ⟨⟨_, rfl, expQuad_expRule _ _⟩, _, rfl, logQuad_logRule _ _⟩,
    fun u y q hu hacc hy => hacc.eq_inf_of_overflow hu hy,
    fun u q hu hacc => hacc.toNat_le_two hu (Real.exp_pos _) exp_neg_20000_le⟩

end Sys2Proof.Machine
end

section
/-! PROOFS. The trigonometric, hyperbolic and inverse trigonometric functions (spec/44_transcendental.md rules R815 to R825):
the shape they share, and what their rules say of the sign. -/

namespace Sys2Proof.Machine

/-! ### Trigonometric functions -/

theorem sinQuad_rule (nan a : Quad) : OneOperandRule .sin nan nan a a (sinQuad Config.fn nan a) :=
  oneOperandRule_ite fun _ => rfl

/-- A sine is never zero at a nonzero finite A (R815). -/
theorem isZero_sinQuad (nan : Quad) {a : Quad} (ha : isFinite a = true) (hz : isZero a = false) :
    isZero (sinQuad Config.fn nan a) = false := by
  obtain ⟨-, -, -, htable⟩ := sinQuad_rule nan a
  obtain ⟨-, hsin, -⟩ := Config.fn_named a (signedZero false) ha
  rw [(htable ha hz).1]
  exact hsin hz

/-- Settles O46: the shape that the four share, and the sine. -/
theorem trigonometricFunctionsFollowTheirRules : Obligations.TrigonometricFunctionsFollowTheirRules := by
  unfold Obligations.TrigonometricFunctionsFollowTheirRules
  refine ⟨by decide, by decide, by decide, by decide, fun s =>
    ⟨⟨_, rfl, sinQuad_rule _ _, isZero_sinQuad _⟩, ⟨_, rfl, oneOperandRule_ite fun _ => rfl⟩,
      ⟨_, rfl, oneOperandRule_ite fun _ => rfl⟩, _, rfl, oneOperandRule_ite fun _ => rfl⟩⟩

/-- Settles O47: SINCOS calls the same two functions, with the NaNs of SIN and COS unless A is a NaN. -/
theorem sincosGivesSinAndCos : Obligations.SincosGivesSinAndCos := by
  unfold Obligations.SincosGivesSinAndCos
  refine ⟨by decide, fun s => ⟨_, _, _, _, rfl, rfl, rfl, fun hn => ?_, fun hn => ?_⟩⟩
  · simp [sincosNaN, hn]
  · simp [sinQuad, cosQuad, hn, quadClass_sincosNaN]

/-! ### Hyperbolic functions -/

theorem sinhQuad_rule (nan a : Quad) : OneOperandRule .sinh nan a a a (sinhQuad Config.fn nan a) :=
  oneOperandRule_ite fun _ => rfl

theorem coshQuad_rule (nan a : Quad) :
    OneOperandRule .cosh nan (signedInf false) (signedOne false) a (coshQuad Config.fn nan a) :=
  oneOperandRule_ite fun _ => rfl

/-- SINH at ±12000 (R820). -/
theorem sinhQuad_of_abs_val (nan : Quad) {a : Quad} (ha : isFinite a = true) (hv : |val a| = 12000) :
    sinhQuad Config.fn nan a = signedInf (quadSign a) := by
  obtain ⟨-, -, -, htable⟩ := sinhQuad_rule nan a
  obtain ⟨-, -, hpos, hneg⟩ := Config.fn_named a (signedZero false) ha
  have hz : isZero a = false := by
    rw [← Bool.not_eq_true, ← val_eq_zero_iff, ← abs_eq_zero, hv]
    norm_num
  have hval := val_eq_ite_abs a
  rw [hv] at hval
  rw [(htable ha hz).1]
  cases hs : quadSign a with
  | false => exact hpos (by rw [hval, hs, if_neg Bool.false_ne_true])
  | true => exact hneg (by rw [hval, hs, if_pos rfl])

/-- COSH is never negative (R821). -/
theorem quadSign_coshQuad (nan : Quad) {a : Quad} (hn : isNaN a = false) :
    quadSign (coshQuad Config.fn nan a) = false := by
  obtain ⟨-, hinf, hzero, htable⟩ := coshQuad_rule nan a
  cases hi : isInf a with
  | true => rw [hinf hi, quadSign_signedInf]
  | false =>
    cases hz : isZero a with
    | true => rw [hzero hz, quadSign_signedOne]
    | false => exact (htable (isFinite_of_not_nan_not_inf hn hi) hz).quadSign_eq_false (Real.cosh_pos _)

/-- Settles O48: the shape that the three share, the named values of SINH and the sign of COSH. -/
theorem hyperbolicFunctionsFollowTheirRules : Obligations.HyperbolicFunctionsFollowTheirRules := by
  unfold Obligations.HyperbolicFunctionsFollowTheirRules
  exact ⟨by decide, by decide, by decide, fun s => ⟨⟨_, rfl, sinhQuad_rule _ _, sinhQuad_of_abs_val _⟩,
    ⟨_, rfl, coshQuad_rule _ _, quadSign_coshQuad _⟩, _, rfl, oneOperandRule_ite fun _ => rfl⟩⟩

/-! ### Inverse trigonometric functions -/

theorem unit_pos_rat : (0 : ℚ) < unit := Nat.cast_pos.2 unit_pos

theorem aboveOne_iff (q : Quad) : aboveOne q = true ↔ 1 < |val q| := by
  rw [aboveOne, decide_eq_true_iff, abs_val, one_lt_div unit_pos_rat, Nat.cast_lt]

theorem aboveOne_eq_false_iff (q : Quad) : aboveOne q = false ↔ |val q| ≤ 1 := by
  rw [← Bool.not_eq_true, aboveOne_iff, not_lt]

/-- 1.0 has one pattern (R404). -/
theorem eq_oneQuad_of_val {q : Quad} (hq : isFinite q = true) (hv : val q = 1) : q = oneQuad := by
  have hz : isZero q = false := by
    rw [← Bool.not_eq_true, ← val_eq_zero_iff, hv]
    exact one_ne_zero
  rw [← nearestOf_val hq hz, hv, ← val_oneQuad]
  exact nearestOf_val (isFinite_signedOne false) (by decide)

/-- The shape that R823 and R824 share: a domain of [−1, 1] and one exact input in it. -/
theorem arcRule_ite {f : Fn} {nan a p : Quad} {exact : Prop} [Decidable exact]
    (hexact : exact → isFinite a = true ∧ |val a| ≤ 1)
    (hf : isFinite a = true → |val a| ≤ 1 → ¬exact → ordinaryInput f a (signedZero false) = true) :
    ArcRule f nan a
      (if isNaN a then nan else if isInf a || aboveOne a then nan else if exact then p else fn1 Config.fn f a) exact p := by
  have hin (ha : isFinite a = true) (hv : |val a| ≤ 1) : isNaN a = false ∧ (isInf a || aboveOne a) = false := by
    rw [not_nan_of_finite ha, not_inf_of_finite ha, Bool.false_or, aboveOne_eq_false_iff]
    exact ⟨rfl, hv⟩
  refine ⟨fun hn => if_pos hn, fun hi => ?_, fun ha hv => ?_, fun he => ?_, fun ha hv he => ?_⟩
  · simp [hi]
  · simp [(aboveOne_iff a).2 hv]
  · obtain ⟨ha, hv⟩ := hexact he
    obtain ⟨hn, hdom⟩ := hin ha hv
    simp [hn, hdom, he]
  · obtain ⟨hn, hdom⟩ := hin ha hv
    rw [hn, hdom, if_neg Bool.false_ne_true, if_neg Bool.false_ne_true, if_neg he]
    exact tableValue_of_ordinaryInput (hf ha hv he)

theorem asinQuad_arcRule (nan a : Quad) : ArcRule .asin nan a (asinQuad Config.fn nan a) (isZero a = true) a := by
  refine arcRule_ite (fun hz => ⟨isFinite_of_isZero hz, ?_⟩) fun ha hv hz => ?_
  · rw [val_of_isZero hz, abs_zero]
    exact zero_le_one
  · simp [ordinaryInput, ha, (aboveOne_eq_false_iff a).2 hv, hz, isFinite_signedZero]

theorem acosQuad_arcRule (nan a : Quad) :
    ArcRule .acos nan a (acosQuad Config.fn nan a) (a = oneQuad) (signedZero false) := by
  refine arcRule_ite (fun h => ?_) fun ha hv h1 => ?_
  · rw [h, val_oneQuad, abs_one]
    exact ⟨isFinite_signedOne false, le_rfl⟩
  · simp [ordinaryInput, ha, (aboveOne_eq_false_iff a).2 hv, h1, isFinite_signedZero]

/-- ACOS is never negative (R824): it is 0 at 1.0 alone. -/
theorem quadSign_acosQuad (nan : Quad) {a : Quad} (ha : isFinite a = true) (hv : |val a| ≤ 1) :
    quadSign (acosQuad Config.fn nan a) = false := by
  obtain ⟨-, -, -, hone, htable⟩ := acosQuad_arcRule nan a
  by_cases h1 : a = oneQuad
  · rw [hone h1, quadSign_signedZero]
  · refine (htable ha hv h1).quadSign_eq_false (Real.arccos_pos.2 ?_)
    have hlt : val a < 1 := (abs_le.1 hv).2.lt_of_ne fun h => h1 (eq_oneQuad_of_val ha h)
    rw [valReal]
    exact_mod_cast hlt

/-- R825: the branch at ±∞ comes after the one at ±0. -/
theorem atanQuad_rule (nan a : Quad) :
    OneOperandRule .atan nan (withSign (quadSign a) piHalfQuad) a a (atanQuad Config.fn nan a) := by
  refine ⟨fun hn => if_pos hn, fun hi => ?_, fun hz => ?_, fun ha hz => ?_⟩
  · simp [atanQuad, not_nan_of_inf hi, isZero_eq_false_of_inf hi, hi]
  · simp [atanQuad, not_nan_of_finite (isFinite_of_isZero hz), hz]
  · exact tableResult_tableValue nan (f := .atan) (b := signedZero false)
      (by simp [ordinaryInput, ha, hz, isFinite_signedZero])

/-- Settles O49: the two arcs with a domain, the sign of ACOS, and ATAN. -/
theorem inverseTrigonometricFunctionsFollowTheirRules : Obligations.InverseTrigonometricFunctionsFollowTheirRules := by
  unfold Obligations.InverseTrigonometricFunctionsFollowTheirRules
  refine ⟨by decide, by decide, by decide, fun s => ⟨⟨_, rfl, asinQuad_arcRule _ _⟩,
    ⟨_, rfl, acosQuad_arcRule _ _, quadSign_acosQuad _⟩, _, rfl, ?_⟩⟩
  have hpi : withSign (quadSign s.a) piHalfQuad =
      if quadSign s.a then 0xBFFF921FB54442D18469898CC51701B8 else 0x3FFF921FB54442D18469898CC51701B8 := by
    cases quadSign s.a <;> decide
  rw [← hpi]
  exact atanQuad_rule _ _

end Sys2Proof.Machine
end

section
/-! PROOFS. POW and ATAN2 (spec/44_transcendental.md rules R813, R826): the machine's tests of the exponent are the rule's over
exact values, and each branch of the rule's chain. -/

namespace Sys2Proof.Machine

/-! ### The tests of R813 -/

theorem magnitude_of_val_eq_intCast {y : Quad} {k : ℤ} (h : val y = k) : magnitude y = k.natAbs * unit := by
  rw [val_eq_scaled, div_eq_iff unit_ne_zero] at h
  have hscaled : scaled y = k * (unit : ℤ) := by exact_mod_cast h
  rw [← natAbs_scaled, hscaled, Int.natAbs_mul, Int.natAbs_natCast]

theorem isInteger_iff (y : Quad) : isInteger y = true ↔ IntValued y := by
  constructor
  · intro h
    exact ⟨(Bool.and_eq_true_iff.1 h).1, exists_int_of_isInteger h⟩
  · rintro ⟨hf, k, hk⟩
    rw [isInteger, hf, magnitude_of_val_eq_intCast hk, Nat.mul_mod_left]
    rfl

theorem isOddInteger_iff (y : Quad) : isOddInteger y = true ↔ OddInt y := by
  have hodd {k : ℤ} (hk : val y = k) : magnitude y / unit % 2 = 1 ↔ k % 2 = 1 := by
    rw [magnitude_of_val_eq_intCast hk, Nat.mul_div_cancel _ unit_pos]
    omega
  rw [isOddInteger, Bool.and_eq_true, isInteger_iff, beq_iff_eq]
  constructor
  · rintro ⟨⟨hf, k, hk⟩, h⟩
    refine ⟨hf, k / 2, ?_⟩
    have := (hodd hk).1 h
    rw [hk]
    exact_mod_cast (by omega : k = 2 * (k / 2) + 1)
  · rintro ⟨hf, k, hk⟩
    have hk' : val y = (2 * k + 1 : ℤ) := by rw [hk]; push_cast; rfl
    exact ⟨⟨hf, _, hk'⟩, (hodd hk').2 (by omega)⟩

theorem isNegative_iff {y : Quad} (hn : isNaN y = false) : isNegative y = true ↔ BelowZero y := by
  rw [isNegative, Bool.and_eq_true, Bool.not_eq_true', BelowZero]
  cases hi : isInf y with
  | true =>
    have hinf := (isInf_iff_eq y).1 hi
    have hfin : isFinite y ≠ true := fun h => by simp [not_inf_of_finite h] at hi
    rw [isZero_eq_false_of_inf hi, and_iff_left rfl, or_iff_left fun h => hfin h.1]
    exact ⟨fun hs => by rw [hinf, hs], fun h => by rw [h, quadSign_signedInf]⟩
  | false =>
    have hfin := isFinite_of_not_nan_not_inf hn hi
    rw [or_iff_right (ne_signedInf_of_finite hfin true), and_iff_right hfin, val_lt_zero_iff]

theorem belowOne_iff (q : Quad) : belowOne q = true ↔ isFinite q = true ∧ |val q| < 1 := by
  rw [belowOne, Bool.and_eq_true, decide_eq_true_iff, abs_val, div_lt_one unit_pos_rat, Nat.cast_lt]

theorem eq_signedInf_true_iff {y : Quad} (hi : isInf y = true) : y = signedInf true ↔ quadSign y = true :=
  ⟨fun h => by rw [h, quadSign_signedInf], fun hs => by rw [(isInf_iff_eq y).1 hi, hs]⟩

theorem abs_val_signedOne (s : Bool) : |val (signedOne s)| = 1 := by
  have hval : val (signedOne s) = (-1) ^ s.toNat := by
    rw [signedOne, val, quadSign_mkQuad, quadExp_mkQuad _ _ _ (by decide), quadFrac_mkQuad _ _ _ (by decide)]
    norm_num
  rw [hval, abs_neg_one_pow]

/-! ### POW -/

/-- R813's branches are the machine's, in the same order. -/
theorem powQuad_powRule (nan x y : Quad) : PowRule nan x y (powQuad Config.fn nan x y) := by
  unfold PowRule
  by_cases hnan : isNaN x = true ∨ isNaN y = true
  · rw [if_pos hnan]
    simp [powQuad, hnan]
  rw [if_neg hnan, ← oneQuad]
  obtain ⟨hnx, hny⟩ : isNaN x = false ∧ isNaN y = false := by simpa using hnan
  by_cases hone : isZero y = true ∨ x = oneQuad
  · rw [if_pos hone]
    rcases hone with hy0 | rfl
    · simp [powQuad, hnx, hny, hy0]
    · simp [powQuad, hnx, hny]
  rw [if_neg hone]
  obtain ⟨hy0, hx1⟩ : isZero y = false ∧ x ≠ oneQuad := by simpa using hone
  simp only [← isNegative_iff hny, ← isOddInteger_iff, ← isInteger_iff]
  by_cases hx0 : isZero x = true
  · rw [if_pos hx0]
    refine ⟨fun hb ho => ?_, fun hb ho => ?_, fun hb ho => ?_, fun hb ho => ?_⟩ <;>
      simp [powQuad, hnx, hny, hy0, hx1, hx0, hb, ho]
  rw [if_neg hx0]
  by_cases hyInf : isInf y = true
  · rw [if_pos hyInf]
    have hs := eq_signedInf_true_iff hyInf
    refine ⟨fun h => ?_, fun hf hv => ?_, fun hv => ?_⟩
    · subst h
      simp [powQuad, hnx, hny, hy0, hx0, hyInf, oneQuad]
    · have hne : x ≠ signedOne true := by
        rintro rfl
        exact hv.ne (abs_val_signedOne true)
      simp [powQuad, hnx, hny, hy0, hx1, hx0, hyInf, hs, hne, (belowOne_iff x).2 ⟨hf, hv⟩]
    · have hne : x ≠ signedOne true := by
        rintro rfl
        exact (hv (isFinite_signedOne true)).ne' (abs_val_signedOne true)
      have hbelow : belowOne x ≠ true := fun h => by
        obtain ⟨hf, hlt⟩ := (belowOne_iff x).1 h
        exact hlt.not_gt (hv hf)
      simp [powQuad, hnx, hny, hy0, hx1, hx0, hyInf, hs, hne, hbelow]
  rw [if_neg hyInf]
  by_cases hpos : x = signedInf false
  · rw [if_pos hpos]
    subst hpos
    refine ⟨fun hb => ?_, fun hb => ?_⟩ <;> simp [powQuad, hny, hy0, hx1, hx0, hyInf, hb]
  rw [if_neg hpos]
  by_cases hneg : x = signedInf true
  · rw [if_pos hneg]
    subst hneg
    refine ⟨fun ho hb => ?_, fun ho hb => ?_, fun ho hb => ?_, fun ho hb => ?_⟩ <;>
      simp [powQuad, hny, hy0, hx1, hx0, hyInf, hpos, hb, ho]
  rw [if_neg hneg]
  have hxf := isFinite_of_not_nan_not_inf hnx (isInf_eq_false_of_ne hpos hneg)
  have hyf := isFinite_of_not_nan_not_inf hny (eq_false_of_ne_true hyInf)
  have hnegx : isNegative x = true ↔ val x < 0 := by
    rw [isNegative, Bool.and_eq_true, Bool.not_eq_true', val_lt_zero_iff]
  refine ⟨fun hv hi => ?_, fun h => tableResult_tableValue nan (f := .pow) (b := y) ?_⟩
  · simp [powQuad, hnx, hny, hy0, hx1, hx0, hyInf, hpos, hneg, hnegx.2 hv, hi]
  · have hdom : isNegative x = false ∨ isInteger y = true :=
      h.imp_left fun hv => eq_false_of_ne_true fun hn => (hnegx.1 hn).not_gt hv
    simpa [ordinaryInput, hxf, hyf, hx0, hy0, hx1] using hdom

/-- Settles O45: `powQuad_powRule`. -/
theorem powFollowsItsRule : Obligations.PowFollowsItsRule := by
  unfold Obligations.PowFollowsItsRule
  exact ⟨by decide, fun s => ⟨_, rfl, powQuad_powRule _ _ _⟩⟩

/-! ### ATAN2 -/

/-- The angle of a point off the axis has its second coordinate's sign (R826). -/
theorem TableValue.quadSign_atan2 {y x q : Quad} (h : TableValue .atan2 y x q) (hz : isZero y = false) :
    quadSign q = quadSign y := by
  have hy : valReal y ≠ 0 := by
    rw [valReal, Rat.cast_ne_zero, Ne, val_eq_zero_iff, hz]
    exact Bool.false_ne_true
  have hangle : exactValue .atan2 y x ≠ 0 := fun h0 => hy (Complex.arg_eq_zero_iff.1 h0).2
  rw [h.2.1.sign hangle, Bool.eq_iff_iff, signReal_iff]
  calc exactValue .atan2 y x < 0 ↔ valReal y < 0 := Complex.arg_neg_iff
    _ ↔ val y < 0 := by rw [valReal, Rat.cast_lt_zero]
    _ ↔ quadSign y = true := by rw [val_lt_zero_iff, hz, and_iff_left rfl]

/-- R826's branches are the machine's, in the same order. -/
theorem atan2Quad_atan2Rule (nan y x : Quad) : Atan2Rule nan y x (atan2Quad Config.fn nan y x) := by
  unfold Atan2Rule
  by_cases hnan : isNaN y = true ∨ isNaN x = true
  · rw [if_pos hnan]
    simp [atan2Quad, hnan]
  rw [if_neg hnan]
  obtain ⟨hny, hnx⟩ : isNaN y = false ∧ isNaN x = false := by simpa using hnan
  by_cases hy0 : isZero y = true
  · rw [if_pos hy0]
    simp [atan2Quad, hny, hnx, hy0, piQuad]
  rw [if_neg hy0]
  by_cases hyInf : isInf y = true
  · rw [if_pos hyInf]
    refine ⟨fun h => ?_, fun h => ?_, fun hf => ?_⟩
    · simp [atan2Quad, hny, hy0, hyInf, h, piThreeQuarterQuad]
    · simp [atan2Quad, hny, hy0, hyInf, h, signedInf_false_ne_true, piQuarterQuad]
    · simp [atan2Quad, hny, hnx, hy0, hyInf, ne_signedInf_of_finite hf, piHalfQuad]
  rw [if_neg hyInf]
  by_cases hx0 : isZero x = true
  · rw [if_pos hx0]
    simp [atan2Quad, hny, hnx, hy0, hyInf, hx0, piHalfQuad]
  rw [if_neg hx0]
  have hyf := isFinite_of_not_nan_not_inf hny (eq_false_of_ne_true hyInf)
  refine ⟨fun h => ?_, fun h => ?_, fun hf => ?_⟩
  · subst h
    simp [atan2Quad, hny, hy0, hyInf, hx0, piQuad]
  · subst h
    simp [atan2Quad, hny, hy0, hyInf, hx0, signedInf_false_ne_true]
  · have htable : TableValue .atan2 y x (atan2Quad Config.fn nan y x) :=
      tableResult_tableValue nan (f := .atan2) (b := x) (by simp [ordinaryInput, hyf, hf, hy0, hx0])
    exact ⟨htable, htable.quadSign_atan2 (eq_false_of_ne_true hy0)⟩

/-- Settles O50: `atan2Quad_atan2Rule`. -/
theorem atan2FollowsItsRule : Obligations.Atan2FollowsItsRule := by
  unfold Obligations.Atan2FollowsItsRule
  exact ⟨by decide, fun s => ⟨_, rfl, atan2Quad_atan2Rule _ _ _⟩⟩

end Sys2Proof.Machine
end

section
/-! PROOFS. PARSE (spec/45_text.md rules R900 to R910): what it does with the text it reads, which texts it takes for a token
or a decimal, and that the decimal's value is rounded once. -/

namespace Sys2Proof.Machine

/-! ### The command on the text it reads -/

theorem readBytes_of_holdsText {s : State} {t : List Byte} (h : HoldsText s t) :
    readBytes s.tbuf 0 s.tlen.toNat = .ok t := by
  obtain ⟨hlen, -, hbytes⟩ := h
  refine readBytes_eq_ok.2 ⟨hlen.symm, fun k hk => ?_⟩
  rw [zero_add]
  exact hbytes k (hlen ▸ hk)

/-- PARSE of a text that is there reports PARSE_ERROR or gives the parser's quad (R900). -/
theorem exec_parse_cases {s : State} {t : List Byte} (h : HoldsText s t) :
    (parseText t = none ∧ exec .parse s = .next (s.withST 3)) ∨
      ∃ q x, parseText t = some (q, x) ∧ exec .parse s = .next ((s.withR q).withST (if x then 0x100 else 0)) := by
  have hread := readBytes_of_holdsText h
  rcases parseCommand_cases Config.tbufSize s with ⟨hlen, -⟩ | ⟨-, ⟨k, hk, -⟩ | ⟨u, hu, hcases⟩⟩
  · exact absurd h.2.1 (by rw [← h.1]; exact not_le.2 hlen)
  · rw [hread] at hk
    cases hk
  · rw [hread] at hu
    cases hu
    exact hcases

theorem exec_parse_of_some {s : State} {t : List Byte} {p : Quad × Bool} (h : HoldsText s t)
    (ht : parseText t = some p) : exec .parse s = .next ((s.withR p.1).withST (if p.2 then 0x100 else 0)) := by
  rcases exec_parse_cases h with ⟨hnone, -⟩ | ⟨q, x, hsome, he⟩
  · rw [hnone] at ht
    cases ht
  · rw [hsome] at ht
    cases ht
    exact he

/-! ### The bytes of a number -/

/-- A byte of a spelt word is a letter, so none of the other bytes of the grammar (R902). -/
theorem Spells.letter_le {word body : List Byte} (h : Spells word body) (hw : ∀ l ∈ word, 0x61 ≤ l.toNat) :
    ∀ b ∈ body, 0x41 ≤ b.toNat := by
  unfold Spells at h
  induction h with
  | nil => simp
  | cons hb _ ih =>
    have hl := hw _ List.mem_cons_self
    refine List.forall_mem_cons.2 ⟨?_, ih fun l hm => hw l (List.mem_cons_of_mem _ hm)⟩
    rcases hb with rfl | rfl <;> bv_omega

theorem InfText.letter_le {body : List Byte} (h : InfText body) : ∀ b ∈ body, 0x41 ≤ b.toNat :=
  h.elim (fun h => h.letter_le (by decide)) fun h => h.letter_le (by decide)

theorem NanText.letter_le {body : List Byte} (h : NanText body) : ∀ b ∈ body, 0x41 ≤ b.toNat :=
  Spells.letter_le h (by decide)

/-- Bytes of value 0x41 and above are neither blanks nor signs (R901, R902). -/
theorem ne_blank_sign_of_letter_le {b : Byte} (h : 0x41 ≤ b.toNat) : b ≠ 0x20 ∧ b ≠ 0x2B ∧ b ≠ 0x2D := by
  refine ⟨?_, ?_, ?_⟩ <;> rintro rfl <;> exact absurd h (by decide)

theorem SignText.ne_blank {sg : List Byte} {neg : Bool} (h : SignText sg neg) : ∀ b ∈ sg, b ≠ 0x20 := by
  rcases h with ⟨rfl, -⟩ | ⟨rfl, -⟩ | ⟨rfl, -⟩ <;> decide

theorem DecimalText.ne_blank {body i f x : List Byte} {xneg : Bool} (h : DecimalText body i f x xneg) :
    ∀ b ∈ body, b ≠ 0x20 := by
  obtain ⟨-, hi, hf, hx, point, mark, rfl, hpoint, hmark⟩ := h
  have digits {l : List Byte} (hl : ∀ b ∈ l, DigitByte b) : ∀ b ∈ l, b ≠ 0x20 := fun b hb => (hl b hb).ne.2.2.2.2.2
  have hp : ∀ b ∈ point, b ≠ 0x20 := by
    rcases hpoint with ⟨rfl, -⟩ | rfl
    · simp
    · exact List.forall_mem_cons.2 ⟨by decide, digits hf⟩
  have hm : ∀ b ∈ mark, b ≠ 0x20 := by
    rcases hmark with ⟨rfl, -⟩ | ⟨-, e, sg, rfl, he, hsg⟩
    · simp
    · refine List.forall_mem_cons.2 ⟨?_, List.forall_mem_append.2 ⟨hsg.ne_blank, digits hx⟩⟩
      rcases he with rfl | rfl <;> decide
  exact List.forall_mem_append.2 ⟨List.forall_mem_append.2 ⟨digits hi, hp⟩, hm⟩

theorem DecimalText.head_digit {body i f x : List Byte} {xneg : Bool} (h : DecimalText body i f x xneg) :
    ∃ b ∈ body.head?, DigitByte b := by
  obtain ⟨hne, hi, -, -, point, mark, rfl, -, -⟩ := h
  obtain ⟨b, l, rfl⟩ := List.exists_cons_of_ne_nil hne
  exact ⟨b, rfl, hi b List.mem_cons_self⟩

/-- A decimal starts with a digit, so it is no token (R902). -/
theorem DecimalText.not_letters {body i f x : List Byte} {xneg : Bool} (h : DecimalText body i f x xneg) :
    ¬∀ b ∈ body, 0x41 ≤ b.toNat := by
  obtain ⟨b, hb, -, hhi⟩ := h.head_digit
  exact fun hl => absurd (hl b (List.mem_of_mem_head? hb)) (by omega)

/-! ### What PARSE takes a text for -/

/-- Blanks and sign are taken off a number, whatever it is (R901, R902). -/
theorem takeSign_stripBlanks {t body : List Byte} {neg : Bool} (h : SignedText t body neg)
    (hblank : ∀ b ∈ body, b ≠ 0x20) (hsign : ∀ b, body.head? = some b → b ≠ 0x2B ∧ b ≠ 0x2D) :
    takeSign (stripBlanks t) = (neg, body) := by
  obtain ⟨lead, sg, trail, rfl, hlead, htrail, hsg⟩ := h
  have hnb := List.forall_mem_append.2 ⟨hsg.ne_blank, hblank⟩
  rw [List.append_assoc lead, stripBlanks_append hlead htrail (fun b hb => hnb b (List.mem_of_mem_head? hb))
    (fun b hb => hnb b (List.mem_of_getLast? hb)), takeSign_append hsg hsign]

theorem takeSign_stripBlanks_of_letters {t body : List Byte} {neg : Bool} (h : SignedText t body neg)
    (hl : ∀ b ∈ body, 0x41 ≤ b.toNat) : takeSign (stripBlanks t) = (neg, body) :=
  takeSign_stripBlanks h (fun b hb => (ne_blank_sign_of_letter_le (hl b hb)).1)
    fun b hb => (ne_blank_sign_of_letter_le (hl b (List.mem_of_mem_head? hb))).2

theorem parseText_of_infText {t body : List Byte} {neg : Bool} (h : SignedText t body neg) (hb : InfText body) :
    parseText t = some (signedInf neg, false) := by
  rw [parseText, takeSign_stripBlanks_of_letters h hb.letter_le]
  exact if_pos ((isInfToken_iff body).2 hb)

theorem NanText.not_infText {body : List Byte} (h : NanText body) : isInfToken body = false := by
  have hlower : body.map toLower = [0x6E, 0x61, 0x6E] := by simpa [isNanToken] using (isNanToken_iff body).2 h
  rw [isInfToken, hlower]
  rfl

theorem parseText_of_nanText {t body : List Byte} {neg : Bool} (h : SignedText t body neg) (hb : NanText body) :
    parseText t = some (withSign neg 0x7FFF8000000000000000000000000000, false) := by
  rw [parseText, takeSign_stripBlanks_of_letters h hb.letter_le]
  dsimp only
  rw [hb.not_infText, (isNanToken_iff body).2 hb]
  rfl

/-- PARSE reads a decimal as the quad of its digits and its exponent (R904). -/
theorem parseText_of_decimalText {t body i f x : List Byte} {neg xneg : Bool} (h : SignedText t body neg)
    (hb : DecimalText body i f x xneg) : parseText t =
      some (decimalQuad neg (digitsNat (i ++ f)) (i ++ f).length (writtenExponent x xneg - f.length)) := by
  have hsign : ∀ b, body.head? = some b → b ≠ 0x2B ∧ b ≠ 0x2D := by
    obtain ⟨d, hd, hdigit⟩ := hb.head_digit
    intro b hbh
    obtain rfl := Option.some.inj (hd.symm.trans hbh)
    exact ⟨hdigit.ne.1, hdigit.ne.2.1⟩
  have hinf : isInfToken body = false :=
    eq_false_of_ne_true fun h => hb.not_letters ((isInfToken_iff body).1 h).letter_le
  have hnan : isNanToken body = false :=
    eq_false_of_ne_true fun h => hb.not_letters ((isNanToken_iff body).1 h).letter_le
  rw [parseText, takeSign_stripBlanks h hb.ne_blank hsign]
  dsimp only
  rw [hinf, hnan, (parseDecimal_eq_some_iff body _).2 ⟨i, f, x, xneg, hb, rfl⟩]
  simp only [decimalValue, digitsValue_map, List.length_map]
  rfl

/-- A text that PARSE takes is a blank-padded number of the grammar (R901, R902). -/
theorem wellFormedText_of_parseText {t : List Byte} (h : parseText t ≠ none) : WellFormedText t := by
  obtain ⟨lead, trail, hstrip, hlead, htrail⟩ := stripBlanks_spec t
  obtain ⟨sg, hsplit, hsg⟩ := takeSign_spec (stripBlanks t)
  refine ⟨(takeSign (stripBlanks t)).2, (takeSign (stripBlanks t)).1, ⟨lead, sg, trail, ?_, hlead, htrail, hsg⟩, ?_⟩
  · rw [List.append_assoc lead, ← hsplit]
    exact hstrip
  rw [parseText] at h
  split_ifs at h with hinf hnan
  · exact .inl ((isInfToken_iff _).1 hinf)
  · exact .inr (.inl ((isNanToken_iff _).1 hnan))
  · cases hd : parseDecimal (takeSign (stripBlanks t)).2 with
    | none => rw [hd] at h; exact absurd rfl h
    | some d =>
      obtain ⟨i, f, x, xneg, hdec, -⟩ := (parseDecimal_eq_some_iff _ d).1 hd
      exact .inr (.inr ⟨i, f, x, xneg, hdec⟩)

/-! ### Errors and tokens -/

/-- Reading stops at the first unwritten byte (R150). -/
theorem readBytes_eq_error_of_first {m : List Host.Cell} {n k : Nat} (hk : k < n) (hnone : readByte m k = none)
    (hfirst : ∀ j, j < k → readByte m j ≠ none) : readBytes m 0 n = .error k := by
  cases hread : readBytes m 0 n with
  | ok bs =>
    obtain ⟨hlen, hbytes⟩ := readBytes_eq_ok.1 hread
    have := hbytes k hk
    rw [zero_add, hnone, eq_comm, List.getElem?_eq_none_iff] at this
    omega
  | error j =>
    obtain ⟨-, -, hj, hbefore⟩ := readBytes_eq_error hread
    have hle : ¬j < k := fun h => hfirst j h hj
    have hge : ¬k < j := fun h => by simpa [hnone] using hbefore k (Nat.zero_le k) h
    rw [show j = k by omega]

/-- Settles O53: the length check comes first, a text the parser takes is well formed, and reading stops at the first
unwritten byte. -/
theorem parseErrors : Obligations.ParseErrors := by
  unfold Obligations.ParseErrors
  intro s
  refine ⟨fun hlen => if_pos hlen, fun t ht hmal => ?_, fun k hlen hk hnone hfirst => ?_⟩
  · exact (exec_parse_cases ht).elim And.right fun ⟨q, x, hsome, _⟩ =>
      absurd (wellFormedText_of_parseText (by simp [hsome])) hmal
  · rw [exec, execParse, parseCommand, if_neg (not_lt.2 hlen), readBytes_eq_error_of_first hk hnone hfirst]

/-- Settles O54: the parser's tokens, and the quiet NaN of either sign. -/
theorem parseSpecialTokens : Obligations.ParseSpecialTokens := by
  unfold Obligations.ParseSpecialTokens
  intro s t body neg ht hs
  refine ⟨fun hb => exec_parse_of_some ht (parseText_of_infText hs hb), fun hb => ?_⟩
  have hpattern : withSign neg 0x7FFF8000000000000000000000000000 =
      if neg then 0xFFFF8000000000000000000000000000 else 0x7FFF8000000000000000000000000000 := by
    cases neg <;> decide
  rw [← hpattern]
  exact exec_parse_of_some ht (parseText_of_nanText hs hb)

end Sys2Proof.Machine
end

section
/-! PROOFS. The value of a decimal (spec/45_text.md rules R904, R905, R910). -/

namespace Sys2Proof.Machine

theorem digitsNat_lt {t : List Byte} (h : ∀ b ∈ t, DigitByte b) : digitsNat t < 10 ^ t.length := by
  induction t with
  | nil => exact Nat.one_pos
  | cons b t ih =>
    obtain ⟨hb, ht⟩ := List.forall_mem_cons.1 h
    have hone : digitsNat [b] ≤ 9 := by
      unfold DigitByte at hb
      change 10 * 0 + (b.toNat - 0x30) ≤ 9
      omega
    rw [← List.singleton_append, digitsNat_append, List.length_append, List.length_singleton, pow_add]
    have := Nat.mul_le_mul_right (10 ^ t.length) hone
    have := ih ht
    omega

/-- 10^5000 lies above every quad and its inverse below half the smallest (R905). -/
theorem two_pow_16500_le_ten_pow_5000 : (2 : ℝ) ^ (16500 : ℤ) ≤ 10 ^ (5000 : ℤ) := by
  rw [show (16500 : ℤ) = 33 * 500 by rfl, show (5000 : ℤ) = 10 * 500 by rfl, zpow_mul, zpow_mul]
  exact zpow_le_zpow_left₀ (by decide) (by positivity) (by norm_num)

theorem roundPackReal_of_ten_zpow_le (s : Bool) {v : ℝ} (h : (10 : ℝ) ^ (5000 : ℤ) ≤ v) :
    roundPackReal s v = signedInf s := by
  refine roundPackReal_of_overflow s (le_trans ?_ (two_pow_16500_le_ten_pow_5000.trans h))
  exact (sub_le_self _ (zpow_pos two_pos _).le).trans (zpow_le_zpow_right₀ one_le_two (by decide))

theorem roundPackReal_of_le_ten_zpow (s : Bool) {v : ℝ} (hv : 0 ≤ v) (h : v ≤ 10 ^ (-5000 : ℤ)) :
    roundPackReal s v = signedZero s := by
  have hsmall : (10 : ℝ) ^ (-5000 : ℤ) ≤ 2 ^ (-16495 : ℤ) := by
    have := inv_anti₀ (zpow_pos two_pos _) two_pow_16500_le_ten_pow_5000
    rw [← zpow_neg, ← zpow_neg] at this
    exact this.trans (zpow_le_zpow_right₀ one_le_two (by decide))
  have hz := (isZero_iff_eq _).1 ((isZero_roundPackReal_iff s hv).2 (h.trans hsmall))
  rwa [roundPackReal_sign] at hz

theorem mul_ten_zpow_eq_div (m : ℕ) (e : ℤ) :
    (m : ℝ) * 10 ^ e = ((m * 10 ^ e.toNat : ℕ) : ℝ) / ((10 ^ (-e).toNat : ℕ) : ℝ) := by
  have he : e = e.toNat - ((-e).toNat : ℕ) := by omega
  conv_lhs => rw [he, zpow_sub₀ (by norm_num), zpow_natCast, zpow_natCast, ← mul_div_assoc]
  push_cast
  rfl

theorem abs_valReal_eq_magnitude (q : Quad) : |valReal q| = (magnitude q : ℝ) / unit := by
  rw [valReal, ← Rat.cast_abs, abs_val, Rat.cast_div, Rat.cast_natCast, Rat.cast_natCast]

/-- When a result is not the exact n/d (R904). -/
theorem isInexact_iff (q : Quad) (n : ℕ) {d : ℕ} (hd : 0 < d) :
    isInexact q n d = true ↔ isInf q = true ∨ |valReal q| ≠ (n : ℝ) / d := by
  have hu : (unit : ℝ) ≠ 0 := Nat.cast_ne_zero.2 unit_pos.ne'
  have hd' : (d : ℝ) ≠ 0 := Nat.cast_ne_zero.2 hd.ne'
  rw [isInexact, Bool.or_eq_true, decide_eq_true_iff, abs_valReal_eq_magnitude, Ne, Ne, div_eq_div_iff hu hd']
  norm_cast

/-- The quad of M·10^E is its correct rounding, and the clamps of R905 agree with it (R904, R910). -/
theorem decimalQuad_spec (s : Bool) {m len : ℕ} (hm : m ≠ 0) (hlen : m < 10 ^ len) (e : ℤ) :
    (decimalQuad s m len e).1 = roundPackReal s (m * 10 ^ e) ∧
      ((decimalQuad s m len e).2 = true ↔
        isInf (decimalQuad s m len e).1 = true ∨ |valReal (decimalQuad s m len e).1| ≠ m * 10 ^ e) := by
  have hten (k : ℤ) : (0 : ℝ) < 10 ^ k := zpow_pos (by norm_num) k
  have hpos : (0 : ℝ) < m * 10 ^ e := mul_pos (Nat.cast_pos.2 (Nat.pos_of_ne_zero hm)) (hten e)
  rw [decimalQuad, if_neg hm]
  split_ifs with hbig hsmall
  · have hle : (10 : ℝ) ^ (5000 : ℤ) ≤ m * 10 ^ e :=
      (zpow_le_zpow_right₀ (by norm_num) hbig.le).trans
        (le_mul_of_one_le_left (hten e).le (Nat.one_le_cast.2 (Nat.pos_of_ne_zero hm)))
    exact ⟨(roundPackReal_of_ten_zpow_le s hle).symm, iff_of_true rfl (.inl (isInf_signedInf s))⟩
  · have hle : (m : ℝ) * 10 ^ e ≤ 10 ^ (-5000 : ℤ) := by
      calc (m : ℝ) * 10 ^ e ≤ 10 ^ len * 10 ^ e := by
            gcongr
            exact_mod_cast hlen.le
        _ = 10 ^ ((len : ℤ) + e) := by rw [zpow_add₀ (by norm_num), zpow_natCast]
        _ ≤ 10 ^ (-5000 : ℤ) := zpow_le_zpow_right₀ (by norm_num) hsmall.le
    refine ⟨(roundPackReal_of_le_ten_zpow s hpos.le hle).symm, iff_of_true rfl (.inr ?_)⟩
    rw [valReal, val_of_isZero (isZero_signedZero s), Rat.cast_zero, abs_zero]
    exact hpos.ne
  · have hd : 0 < 10 ^ (-e).toNat := Nat.pow_pos (by decide)
    rw [mul_ten_zpow_eq_div]
    exact ⟨roundPack_eq_roundPackReal s _ hd, isInexact_iff _ _ hd⟩

/-- Settles O55: a token is exact, and a decimal is `decimalQuad` of its digits and exponent. -/
theorem parseDecimalsAreCorrectlyRounded : Obligations.ParseDecimalsAreCorrectlyRounded := by
  unfold Obligations.ParseDecimalsAreCorrectlyRounded
  intro s t body neg ht hs
  refine ⟨fun htoken => ?_, fun i f x xneg hb => ?_⟩
  · rcases htoken with hb | hb
    · exact ⟨_, exec_parse_of_some ht (parseText_of_infText hs hb)⟩
    · exact ⟨_, exec_parse_of_some ht (parseText_of_nanText hs hb)⟩
  · obtain ⟨-, hi, hf, -⟩ := id hb
    refine ⟨_, _, exec_parse_of_some ht (parseText_of_decimalText hs hb), fun hzero => ?_, fun hne => ?_⟩
    · rw [decimalQuad, if_pos hzero]
      exact ⟨rfl, rfl⟩
    · exact decimalQuad_spec neg hne (digitsNat_lt (List.forall_mem_append.2 ⟨hi, hf⟩)) _

end Sys2Proof.Machine
end

section
/-! PROOFS. FORMAT's options and its errors (spec/45_text.md rules R920, R930). -/

namespace Sys2Proof.Machine

/-! ### The options (R113, R920) -/

theorem foptPrec_eq (o : Word) : foptPrec o = o.toNat % 2 ^ 8 := by
  rw [foptPrec, BitVec.extractLsb'_toNat, Nat.shiftRight_zero]

theorem foptExpw_eq (o : Word) : foptExpw o = o.toNat / 2 ^ 8 % 16 := by
  rw [foptExpw, BitVec.extractLsb'_toNat, Nat.shiftRight_eq_div_pow]

theorem foptStyle_eq (o : Word) : foptStyle o = o.toNat / 2 ^ 12 % 4 := by
  rw [foptStyle, BitVec.extractLsb'_toNat, Nat.shiftRight_eq_div_pow]

theorem foptRm_eq (o : Word) : foptRm o = o.toNat / 2 ^ 14 % 4 := by
  rw [foptRm, BitVec.extractLsb'_toNat, Nat.shiftRight_eq_div_pow]

theorem foptWidth_eq (o : Word) : foptWidth o = o.toNat / 2 ^ 16 % 2 ^ 8 := by
  rw [foptWidth, BitVec.extractLsb'_toNat, Nat.shiftRight_eq_div_pow]

theorem foptReserved_eq (o : Word) : foptReserved o = o.toNat / 2 ^ 24 := by
  rw [foptReserved, BitVec.extractLsb'_toNat, Nat.shiftRight_eq_div_pow, Nat.mod_eq_of_lt]
  have := o.isLt
  omega

/-- R930's test of the reserved bits, STYLE and EXPW. -/
def LegalOptions (o : Word) : Prop :=
  o.toNat / 2 ^ 24 = 0 ∧ o.toNat / 2 ^ 12 % 4 = 0 ∧ o.toNat / 2 ^ 8 % 16 ≠ 0

theorem legalOptions_iff (o : Word) :
    ¬(foptReserved o ≠ 0 ∨ foptStyle o ≠ 0 ∨ foptExpw o = 0) ↔ LegalOptions o := by
  rw [foptReserved_eq, foptStyle_eq, foptExpw_eq, LegalOptions]
  tauto

/-! ### The command -/

/-- The state after a FORMAT that succeeds (R930). -/
def State.formatted (s : State) : State :=
  let text := (formatText s.a s.fopt).1
  let len := BitVec.ofNat 64 text.length
  (((s.withText text).withTLEN len).withRI len).withST (statusOk (formatText s.a s.fopt).2)

theorem formatCommand_of_legal (size : Nat) {s : State} (h : LegalOptions s.fopt) (hp : s.fopt.toNat % 2 ^ 8 ≤ 35) :
    formatCommand size s =
      if size < (formatText s.a s.fopt).1.length then .next (s.withST 6) else .next s.formatted := by
  rw [formatCommand, if_neg ((legalOptions_iff _).2 h), if_neg (by rw [foptPrec_eq]; exact not_lt.2 hp)]
  rfl

/-- Settles O56: the command's own tests in their order. -/
theorem formatErrorsInOrder : Obligations.FormatErrorsInOrder := by
  unfold Obligations.FormatErrorsInOrder
  refine ⟨fun s => rfl, fun size s => ⟨fun hbad => ?_, fun hres hstyle hexpw =>
    ⟨fun hprec => ?_, fun hprec hlen => ?_⟩⟩⟩
  · have hillegal : ¬LegalOptions s.fopt := by
      rw [LegalOptions]
      tauto
    exact if_pos (not_not.1 (mt (legalOptions_iff _).1 hillegal))
  · rw [formatCommand, if_neg ((legalOptions_iff _).2 ⟨hres, hstyle, hexpw⟩), if_pos (by rwa [foptPrec_eq])]
    rfl
  · rw [formatCommand_of_legal size ⟨hres, hstyle, hexpw⟩ hprec, if_pos hlen]

end Sys2Proof.Machine
end

section
/-! PROOFS. FORMAT's digits (spec/45_text.md rule R922): the exact value at the scale of the last digit, rounded once. -/

namespace Sys2Proof.Machine

/-! ### Rounding a fraction in the four modes -/

/-- The integer R922 rounds num/den to. -/
def roundFraction (rm : Nat) (neg : Bool) (num den : Nat) : Nat :=
  if roundsUp rm neg (num / den) (num % den) den then num / den + 1 else num / den

theorem roundFraction_bounds (rm : ℕ) (neg : Bool) (num den : ℕ) :
    num / den ≤ roundFraction rm neg num den ∧ roundFraction rm neg num den ≤ num / den + 1 := by
  unfold roundFraction
  split <;> omega

theorem roundFraction_of_nearest (neg : Bool) (num : ℕ) {den : ℕ} (hd : 0 < den) :
    |(num : ℚ) / den - roundFraction 0 neg num den| ≤ 1 / 2 ∧
      (|(num : ℚ) / den - roundFraction 0 neg num den| = 1 / 2 → roundFraction 0 neg num den % 2 = 0) := by
  obtain ⟨hsplit, hnonneg, hlt, -⟩ := div_eq_floor_add (num := num) hd
  have hup := roundsUp_eq_true_iff 0 neg (num / den) (num := num) hd
  rw [roundFraction, hsplit]
  generalize ((num % den : ℕ) : ℚ) / den = t at *
  split_ifs with h
  · have hhalf : 1 / 2 ≤ t ∧ (t = 1 / 2 → num / den % 2 = 1) := by
      rcases hup.1 h with ⟨-, hgt | ⟨heq, hodd⟩⟩ | ⟨h2, -⟩ | ⟨h3, -⟩
      · exact ⟨hgt.le, fun heq => absurd heq hgt.ne'⟩
      · exact ⟨heq.le, fun _ => hodd⟩
      · cases h2
      · cases h3
    rw [show (num / den : ℕ) + t - ((num / den + 1 : ℕ) : ℚ) = -(1 - t) by push_cast; ring, abs_neg,
      abs_of_pos (by linarith)]
    refine ⟨by linarith, fun heq => ?_⟩
    have := hhalf.2 (by linarith)
    omega
  · have hhalf : t ≤ 1 / 2 ∧ (t = 1 / 2 → num / den % 2 ≠ 1) :=
      ⟨not_lt.1 fun hgt => h (hup.2 (.inl ⟨rfl, .inl hgt⟩)),
        fun heq hodd => h (hup.2 (.inl ⟨rfl, .inr ⟨heq.symm, hodd⟩⟩))⟩
    rw [add_sub_cancel_left, abs_of_nonneg hnonneg]
    refine ⟨hhalf.1, fun heq => ?_⟩
    have := hhalf.2 heq
    omega

theorem roundFraction_of_down {rm : ℕ} {neg : Bool} (num : ℕ) {den : ℕ} (hd : 0 < den)
    (h : rm = 1 ∨ (rm = 2 ∧ neg = true) ∨ (rm = 3 ∧ neg = false)) :
    (roundFraction rm neg num den : ℚ) ≤ (num : ℚ) / den ∧ (num : ℚ) / den < roundFraction rm neg num den + 1 := by
  obtain ⟨hsplit, hnonneg, hlt, -⟩ := div_eq_floor_add (num := num) hd
  have hdown : ¬roundsUp rm neg (num / den) (num % den) den = true := by
    rw [roundsUp_eq_true_iff rm neg (num / den) hd]
    rcases h with rfl | ⟨rfl, rfl⟩ | ⟨rfl, rfl⟩ <;> simp
  rw [roundFraction, if_neg hdown, hsplit]
  constructor <;> linarith

theorem roundFraction_of_up {rm : ℕ} {neg : Bool} (num : ℕ) {den : ℕ} (hd : 0 < den)
    (h : (rm = 2 ∧ neg = false) ∨ (rm = 3 ∧ neg = true)) :
    (num : ℚ) / den ≤ roundFraction rm neg num den ∧ (roundFraction rm neg num den : ℚ) < (num : ℚ) / den + 1 := by
  obtain ⟨hsplit, hnonneg, hlt, -⟩ := div_eq_floor_add (num := num) hd
  have hup : roundsUp rm neg (num / den) (num % den) den = true ↔ (0 : ℚ) < ((num % den : ℕ) : ℚ) / den := by
    rw [roundsUp_eq_true_iff rm neg (num / den) hd]
    rcases h with ⟨rfl, rfl⟩ | ⟨rfl, rfl⟩ <;> simp
  rw [roundFraction, hsplit]
  split_ifs with hpos
  · rw [hup] at hpos
    push_cast
    constructor <;> linarith
  · rw [hup] at hpos
    constructor <;> linarith

/-- A quotient is a whole number exactly when it leaves no remainder. -/
theorem mod_ne_zero_iff_not_intCast (num : ℕ) {den : ℕ} (hd : 0 < den) :
    num % den ≠ 0 ↔ ∀ k : ℤ, (num : ℚ) / den ≠ k := by
  obtain ⟨hsplit, hnonneg, hlt, hpos⟩ := div_eq_floor_add (num := num) hd
  rw [← hpos, hsplit]
  generalize ((num % den : ℕ) : ℚ) / den = t at *
  generalize num / den = fl at *
  constructor
  · intro ht k hk
    have hlo : (fl : ℚ) < k := by linarith
    have hhi : (k : ℚ) < fl + 1 := by linarith
    norm_cast at hlo hhi
    omega
  · intro h
    refine lt_of_le_of_ne hnonneg fun h0 => h fl ?_
    rw [← h0, add_zero, Int.cast_natCast]

/-! ### The digits of a quad -/

/-- The decimal exponent of a finite nonzero quad, over the rationals (R922). -/
theorem decExp_abs_val {a : Quad} (hf : isFinite a = true) (hz : isZero a = false) :
    (10 : ℚ) ^ decExp (magnitude a) unit ≤ |val a| ∧ |val a| < (10 : ℚ) ^ (decExp (magnitude a) unit + 1) := by
  have h := decExp_spec hf hz
  rw [← abs_valReal_eq_magnitude, valReal] at h
  rw [← Rat.cast_le (K := ℝ), ← Rat.cast_lt (K := ℝ)]
  push_cast
  exact h

/-- Numerator of w, the value at the scale of the last of p + 1 digits, for the decimal exponent e (R922). -/
def digitsNum (p : Nat) (n : Nat) (e : Int) : Nat := n * 10 ^ (-(e - p)).toNat

/-- Denominator of w (R922). -/
def digitsDen (p : Nat) (d : Nat) (e : Int) : Nat := d * 10 ^ (e - p).toNat

theorem digitsDen_pos (p : ℕ) {d : ℕ} (hd : 0 < d) (e : ℤ) : 0 < digitsDen p d e :=
  Nat.mul_pos hd (Nat.pow_pos (by decide))

/-- R922's last two steps: the rounded w, or the carry into the next exponent. -/
theorem displayDigits_eq (rm p : ℕ) (neg : Bool) (n d : ℕ) :
    displayDigits rm p neg n d =
      if roundFraction rm neg (digitsNum p n (decExp n d)) (digitsDen p d (decExp n d)) = 10 ^ (p + 1) then
        ⟨10 ^ p, decExp n d + 1, decide (digitsNum p n (decExp n d) % digitsDen p d (decExp n d) ≠ 0)⟩
      else ⟨roundFraction rm neg (digitsNum p n (decExp n d)) (digitsDen p d (decExp n d)), decExp n d,
        decide (digitsNum p n (decExp n d) % digitsDen p d (decExp n d) ≠ 0)⟩ := rfl

/-- w as a fraction of naturals (R922). -/
theorem abs_val_scaled (a : Quad) (p : ℕ) (e : ℤ) :
    |val a| * (10 : ℚ) ^ ((p : ℤ) - e) = (digitsNum p (magnitude a) e : ℚ) / digitsDen p unit e := by
  rw [abs_val]
  exact scaled_by_ten _ _ p e

theorem displayDigits_inexact (rm p : ℕ) (neg : Bool) (n d : ℕ) : (displayDigits rm p neg n d).inexact =
    decide (digitsNum p n (decExp n d) % digitsDen p d (decExp n d) ≠ 0) := by
  rw [displayDigits_eq]
  split <;> rfl

/-- Settles O58: the digits are `roundFraction` of w, which rounds as each mode asks. -/
theorem formatDigitsAreRoundedOnce : Obligations.FormatDigitsAreRoundedOnce := by
  unfold Obligations.FormatDigitsAreRoundedOnce
  intro a rm p hf hz _
  obtain ⟨hlo, hhi⟩ := decExp_abs_val hf hz
  have hd := digitsDen_pos p unit_pos (decExp (magnitude a) unit)
  have hw := abs_val_scaled a p (decExp (magnitude a) unit)
  rw [displayDigits_inexact, decide_eq_true_iff, mod_ne_zero_iff_not_intCast _ hd, displayDigits_eq]
  generalize decExp (magnitude a) unit = e at *
  generalize hr : roundFraction rm _ _ _ = r
  refine ⟨_, _, r, hlo, hhi, rfl, ?_⟩
  rw [hw, ← hr]
  refine ⟨?_, fun h => roundFraction_of_down _ hd (.inl h), fun h hs => roundFraction_of_up _ hd (.inl ⟨h, hs⟩),
    fun h hs => roundFraction_of_down _ hd (.inr (.inl ⟨h, hs⟩)), fun h hs => roundFraction_of_up _ hd (.inr ⟨h, hs⟩),
    fun h hs => roundFraction_of_down _ hd (.inr (.inr ⟨h, hs⟩)), fun h => ?_, fun h => ?_, Iff.rfl⟩
  · rintro rfl
    exact roundFraction_of_nearest _ _ hd
  · rw [if_neg h]
    exact ⟨rfl, rfl⟩
  · rw [if_pos h]
    exact ⟨rfl, rfl⟩

end Sys2Proof.Machine
end

section
/-! PROOFS. The layout and the length of what FORMAT prints (spec/45_text.md rules R921 to R925, R930). -/

namespace Sys2Proof.Machine

/-! ### Printed digits -/

theorem fixedDigits_succ_cons (k n : ℕ) :
    fixedDigits (k + 1) n = digitByte (n / 10 ^ k % 10) :: fixedDigits k n := by
  induction k generalizing n with
  | zero => rw [pow_zero, Nat.div_one]; rfl
  | succ k ih =>
    rw [fixedDigits, ih, Nat.div_div_eq_div_mul, ← pow_succ', List.cons_append]
    rfl

/-- The digits of d with a point after the first (R921). -/
theorem mantissaBytes_eq (p d : ℕ) :
    mantissaBytes p d = digitByte (d / 10 ^ p % 10) :: (if p = 0 then [] else 0x2E :: fixedDigits p d) := by
  rw [mantissaBytes]
  split
  · rename_i h
    rw [h, fixedDigits_succ_cons, pow_zero]
    rfl
  · rw [fixedDigits_succ_cons, pow_zero, Nat.div_one]
    rfl

/-- The exponent's digits: those of n, padded with zeros to EXPW (R921). -/
def exponentDigits (expw n : Nat) : List Byte := fixedDigits (max expw (decimalLength n n)) n

theorem exponentBytes_eq (expw : ℕ) (e : ℤ) :
    exponentBytes expw e = [0x45, if e < 0 then 0x2D else 0x2B] ++ exponentDigits expw e.natAbs := rfl

theorem exponentDigits_digit {expw n : ℕ} : ∀ b ∈ exponentDigits expw n, DigitByte b := fun _ hb => fixedDigits_digit hb

@[simp] theorem length_exponentDigits (expw n : ℕ) :
    (exponentDigits expw n).length = max expw (decimalLength n n) := length_fixedDigits _ _

theorem digitsNat_exponentDigits (expw n : ℕ) : digitsNat (exponentDigits expw n) = n :=
  digitsNat_fixedDigits ((decimalLength_spec le_rfl).2.1.trans_le (Nat.pow_le_pow_right (by decide) (le_max_right _ _)))

theorem exponentDigits_zero (expw : ℕ) : exponentDigits expw 0 = List.replicate (max 1 expw) 0x30 := by
  rw [exponentDigits, fixedDigits_zero, max_comm]
  rfl

/-- An exponent longer than EXPW has no leading zero, but for 0 itself (R921). -/
theorem exponentDigits_of_longer {expw n : ℕ} (h : expw < (exponentDigits expw n).length) :
    (exponentDigits expw n).head? ≠ some 0x30 ∨ exponentDigits expw n = [0x30] := by
  rw [length_exponentDigits, lt_max_iff, or_iff_right (lt_irrefl _)] at h
  rw [exponentDigits, max_eq_right h.le]
  obtain ⟨hone, hlt, hge⟩ := decimalLength_spec (le_refl n)
  by_cases hn : n = 0
  · subst hn
    exact .inr rfl
  · obtain ⟨k, hk⟩ := Nat.exists_eq_add_of_le' hone
    have hlo := hge hn
    rw [hk, Nat.add_sub_cancel] at hlo
    rw [hk] at hlt ⊢
    obtain ⟨hhead, hne⟩ := head_fixedDigits hlo hlt
    rw [hhead]
    exact .inl fun h => hne (Option.some.inj h)

/-- A number below 10^k has at most k digits (R921). -/
theorem decimalLength_le {n k : ℕ} (hk : 1 ≤ k) (h : n < 10 ^ k) : decimalLength n n ≤ k := by
  obtain ⟨-, -, hge⟩ := decimalLength_spec (le_refl n)
  by_cases hn : n = 0
  · subst hn
    exact hk
  · have := (Nat.pow_lt_pow_iff_right (by decide)).1 ((hge hn).trans_lt h)
    omega

/-! ### The digits' range -/

theorem roundFraction_range {rm p num den : ℕ} {neg : Bool} (hd : 0 < den) (hlo : (10 : ℚ) ^ p ≤ (num : ℚ) / den)
    (hhi : (num : ℚ) / den < 10 ^ (p + 1)) :
    10 ^ p ≤ roundFraction rm neg num den ∧ roundFraction rm neg num den ≤ 10 ^ (p + 1) := by
  have hq : (0 : ℚ) < den := Nat.cast_pos.2 hd
  rw [le_div_iff₀ hq] at hlo
  rw [div_lt_iff₀ hq] at hhi
  have hfloor : 10 ^ p ≤ num / den := (Nat.le_div_iff_mul_le hd).2 (by exact_mod_cast hlo)
  have hceil : num / den < 10 ^ (p + 1) := (Nat.div_lt_iff_lt_mul hd).2 (by exact_mod_cast hhi)
  have := roundFraction_bounds rm neg num den
  omega

/-- The digits of a finite nonzero quad are p + 1 in number, the first not zero (R922). -/
theorem displayDigits_range (rm p : ℕ) (neg : Bool) {a : Quad} (hf : isFinite a = true) (hz : isZero a = false) :
    10 ^ p ≤ (displayDigits rm p neg (magnitude a) unit).digits ∧
      (displayDigits rm p neg (magnitude a) unit).digits < 10 ^ (p + 1) := by
  obtain ⟨hlo, hhi⟩ := decExp_abs_val hf hz
  have hd := digitsDen_pos p unit_pos (decExp (magnitude a) unit)
  have hw := abs_val_scaled a p (decExp (magnitude a) unit)
  rw [displayDigits_eq]
  generalize decExp (magnitude a) unit = e at *
  have hscale : (0 : ℚ) < 10 ^ ((p : ℤ) - e) := zpow_pos (by norm_num) _
  have hten (k : ℤ) : (10 : ℚ) ^ k * 10 ^ ((p : ℤ) - e) = 10 ^ (k + (p - e)) := (zpow_add₀ (by norm_num) _ _).symm
  have hwlo := mul_le_mul_of_nonneg_right hlo hscale.le
  have hwhi := mul_lt_mul_of_pos_right hhi hscale
  rw [hw, hten, show e + (p - e) = p by ring, zpow_natCast] at hwlo
  rw [hw, hten, show e + 1 + (p - e) = (p + 1 : ℕ) by push_cast; ring, zpow_natCast] at hwhi
  obtain ⟨hrlo, hrhi⟩ := roundFraction_range (rm := rm) (neg := neg) hd hwlo hwhi
  split_ifs with h
  · exact ⟨le_rfl, Nat.pow_lt_pow_right (by decide) (Nat.lt_succ_self p)⟩
  · exact ⟨hrlo, lt_of_le_of_ne hrhi h⟩

/-- The decimal exponent of a quad has at most four digits (R930). -/
theorem natAbs_displayDigits_exponent_lt (rm p : ℕ) (neg : Bool) {a : Quad} (hf : isFinite a = true)
    (hz : isZero a = false) : (displayDigits rm p neg (magnitude a) unit).exponent.natAbs < 10 ^ 4 := by
  obtain ⟨hlo, hhi⟩ := decExp_spec hf hz
  obtain ⟨hmin, hmax⟩ := magnitude_range hf hz
  have ten : (1 : ℝ) < 10 := by norm_num
  have h1 := (zpow_lt_zpow_iff_right₀ ten).1 (hlo.trans_lt hmax)
  have h2 := (zpow_lt_zpow_iff_right₀ ten).1 (hmin.trans_lt hhi)
  rw [displayDigits_eq]
  generalize decExp (magnitude a) unit = e at *
  split_ifs <;> dsimp only <;> omega

/-! ### The body -/

theorem formatBody_of_nan {a : Quad} (h : isNaN a = true) (o : Word) : formatBody a o = ([0x4E, 0x61, 0x4E], false) := by
  rw [formatBody, if_pos h]

theorem formatBody_of_inf {a : Quad} (h : isInf a = true) (o : Word) :
    formatBody a o = (signBytes (quadSign a) ++ [0x49, 0x6E, 0x66], false) := by
  rw [formatBody, if_neg (by simp [not_nan_of_inf h]), if_pos h]

theorem formatBody_of_zero {a : Quad} (h : isZero a = true) (o : Word) : formatBody a o =
    (signBytes (quadSign a) ++ mantissaBytes (foptPrec o) 0 ++ exponentBytes (foptExpw o) 0, false) := by
  have hf := isFinite_of_isZero h
  rw [formatBody, if_neg (by simp [not_nan_of_finite hf]), if_neg (by simp [not_inf_of_finite hf]), if_pos h]

/-- What FORMAT prints of a finite nonzero quad (R922). -/
def displayOf (a : Quad) (o : Word) : DecimalDigits :=
  displayDigits (foptRm o) (foptPrec o) (quadSign a) (magnitude a) unit

theorem formatBody_of_nonzero {a : Quad} (hf : isFinite a = true) (hz : isZero a = false) (o : Word) : formatBody a o =
    (signBytes (quadSign a) ++ mantissaBytes (foptPrec o) (displayOf a o).digits ++
      exponentBytes (foptExpw o) (displayOf a o).exponent, (displayOf a o).inexact) := by
  rw [formatBody, if_neg (by simp [not_nan_of_finite hf]), if_neg (by simp [not_inf_of_finite hf]), if_neg (by simp [hz])]
  rfl

/-- Settles O59: the body of each class, with the digits of `fixedDigits` and the exponent's of `exponentDigits`. -/
theorem formatBodyLayout : Obligations.FormatBodyLayout := by
  unfold Obligations.FormatBodyLayout
  intro a o
  rw [← foptPrec_eq, ← foptExpw_eq, ← foptRm_eq]
  refine ⟨fun h => formatBody_of_nan h o, fun h => formatBody_of_inf h o, fun h => ?_, fun hf hz => ?_⟩
  · rw [formatBody_of_zero h, mantissaBytes_eq, exponentBytes_eq, Int.natAbs_zero, exponentDigits_zero, fixedDigits_zero,
      Nat.zero_div]
    simp [signBytes, digitByte]
  · obtain ⟨hlo, hhi⟩ := displayDigits_range (foptRm o) (foptPrec o) (quadSign a) hf hz
    have hdigits := digitsNat_fixedDigits hhi
    obtain ⟨hhead, hne⟩ := head_fixedDigits hlo hhi
    rw [fixedDigits_succ_cons] at hdigits hhead
    rw [← Option.some.inj hhead] at hne
    refine ⟨_, _, _, _, rfl, ?_, digitByte_digit (Nat.mod_lt _ (by decide)), hne, fun b hb => fixedDigits_digit hb,
      length_fixedDigits _ _, hdigits, exponentDigits_digit, digitsNat_exponentDigits (foptExpw o) _, ?_,
      exponentDigits_of_longer⟩
    · rw [formatBody_of_nonzero hf hz, mantissaBytes_eq, exponentBytes_eq]
      simp only [List.append_assoc, List.cons_append, List.nil_append]
      rfl
    · rw [length_exponentDigits]
      exact le_max_left _ _

end Sys2Proof.Machine
end

section
/-! PROOFS. The text FORMAT stores (spec/45_text.md rules R925, R930): its length, and where its bytes go. -/

namespace Sys2Proof.Machine

/-! ### The length of the text -/

theorem length_padLeft (width : ℕ) (body : List Byte) : (padLeft width body).length = max width body.length := by
  rw [padLeft, List.length_append, List.length_replicate]
  omega

theorem length_mantissaBytes (p d : ℕ) : (mantissaBytes p d).length = if p = 0 then 1 else p + 2 := by
  rw [mantissaBytes_eq]
  split <;> simp

theorem length_exponentBytes (expw : ℕ) (e : ℤ) :
    (exponentBytes expw e).length = 2 + max expw (decimalLength e.natAbs e.natAbs) := by
  rw [exponentBytes_eq, List.length_append, length_exponentDigits]
  rfl

theorem length_signBytes (s : Bool) : (signBytes s).length = s.toNat := by cases s <;> rfl

/-- The length of a finite value's body, whose exponent has at most four digits (R921, R930). -/
theorem length_formatBody_of_finite {a : Quad} (hf : isFinite a = true) (o : Word) :
    ∃ k ≤ 4, (formatBody a o).1.length =
      (quadSign a).toNat + (if foptPrec o = 0 then 1 else foptPrec o + 2) + (2 + max (foptExpw o) k) := by
  cases hz : isZero a with
  | true =>
    refine ⟨1, by decide, ?_⟩
    rw [formatBody_of_zero hz, List.length_append, List.length_append, length_signBytes, length_mantissaBytes,
      length_exponentBytes]
    rfl
  | false =>
    have hexp := natAbs_displayDigits_exponent_lt (foptRm o) (foptPrec o) (quadSign a) hf hz
    refine ⟨_, decimalLength_le (by decide) hexp, ?_⟩
    rw [formatBody_of_nonzero hf hz, List.length_append, List.length_append, length_signBytes, length_mantissaBytes,
      length_exponentBytes, displayOf]

/-- The longest body (R930). -/
theorem length_formatBody_le (a : Quad) {o : Word} (hp : foptPrec o ≤ 35) : (formatBody a o).1.length ≤ 55 := by
  have hsign := (quadSign a).toNat_le
  rcases quad_trichotomy a with ⟨hnan, -, -⟩ | ⟨-, hinf, -⟩ | ⟨-, -, hf⟩
  · rw [formatBody_of_nan hnan]
    decide
  · rw [formatBody_of_inf hinf, List.length_append, length_signBytes]
    change _ + 3 ≤ 55
    omega
  · obtain ⟨k, hk, hlen⟩ := length_formatBody_of_finite hf o
    have hexpw : foptExpw o < 2 ^ 4 := BitVec.isLt _
    rw [hlen]
    split <;> omega

theorem length_formatText_le (a : Quad) {o : Word} (hp : foptPrec o ≤ 35) : (formatText a o).1.length ≤ 255 := by
  have hwidth : foptWidth o < 2 ^ 8 := BitVec.isLt _
  have := length_formatBody_le a hp
  rw [formatText, length_padLeft]
  omega

/-- At the reset options a finite value takes the whole field (R925). -/
theorem length_formatText_default {a : Quad} (hf : isFinite a = true) : (formatText a 0x2C0423).1.length = 44 := by
  obtain ⟨k, hk, hlen⟩ := length_formatBody_of_finite hf 0x2C0423
  have hsign := (quadSign a).toNat_le
  have hprec : foptPrec 0x2C0423 = 35 := by decide
  have hexpw : foptExpw 0x2C0423 = 4 := by decide
  have hwidth : foptWidth 0x2C0423 = 44 := by decide
  rw [hprec, hexpw, if_neg (by decide), max_eq_left hk] at hlen
  rw [formatText, length_padLeft, hwidth]
  omega

/-! ### The command's success -/

/-- FORMAT with legal options and a text that fits (R930). -/
theorem exec_format_of_fits {s : State} (h : LegalOptions s.fopt) (hp : s.fopt.toNat % 2 ^ 8 ≤ 35)
    (hfit : (formatText s.a s.fopt).1.length ≤ Config.tbufSize) : exec .format s = .next s.formatted := by
  rw [exec, execFormat, formatCommand_of_legal _ h hp, if_neg (not_lt.2 hfit)]

theorem State.formatted_tlen (s : State) :
    s.formatted.tlen = BitVec.ofNat 64 (formatText s.a s.fopt).1.length := rfl

theorem readByte_formatted (s : State) (k : ℕ) : readByte s.formatted.tbuf k =
    if k < (formatText s.a s.fopt).1.length then (formatText s.a s.fopt).1[k]? else readByte s.tbuf k := by
  change readByte (writeBytes s.tbuf 0 (formatText s.a s.fopt).1) k = _
  rw [readByte_writeBytes]
  simp only [Nat.zero_le, true_and, Nat.zero_add, Nat.sub_zero]

/-- Settles O57: the state after success, the text's bytes in the buffer, and the lengths. -/
theorem formatWritesTheText : Obligations.FormatWritesTheText := by
  unfold Obligations.FormatWritesTheText
  refine ⟨fun s hres hstyle hexpw hp hfit => ?_, fun a o => ?_, fun a o => rfl, fun a o hp => ?_,
    fun a hf => length_formatText_default hf⟩
  · refine ⟨s.formatted.tbuf, ?_, readByte_formatted s⟩
    rw [exec_format_of_fits ⟨hres, hstyle, hexpw⟩ hp hfit, State.formatted]
    generalize formatText s.a s.fopt = text
    rfl
  · rw [formatText, padLeft, foptWidth_eq]
  · exact length_formatText_le a (by rwa [foptPrec_eq])

end Sys2Proof.Machine
end

section
/-! PROOFS. The round trip (spec/45_text.md rule R932): 36 significant digits lie within an eighth of a unit in the last place
of the quad they were printed from, and no other quad is as near. -/

namespace Sys2Proof.Machine

/-! ### The quad next to a real -/

/-- Two different multiples of a positive step lie a step apart or more. -/
theorem le_abs_sub_of_multiples {h x y : ℝ} {m n : ℕ} (hh : 0 < h) (hx : x = m * h) (hy : y = n * h) (hne : x ≠ y) :
    h ≤ |x - y| := by
  have hmn : (m : ℤ) - n ≠ 0 := fun h0 => hne (by rw [hx, hy, show m = n by omega])
  have hone : (1 : ℝ) ≤ |(m : ℝ) - n| := by exact_mod_cast Int.one_le_abs hmn
  rw [hx, hy, ← sub_mul, abs_mul, abs_of_pos hh]
  exact le_mul_of_one_le_left hh.le hone

/-- A quad whose magnitude is not that of `a` is half a unit of `a` away or more: it lies on the grid of half units, or
two binades below (R400, R403). -/
theorem half_unit_le_abs_sub {a p : Quad} (hne : |valReal p| ≠ |valReal a|) :
    (2 : ℝ) ^ (unitExp a - 1) ≤ |(|valReal p| - |valReal a|)| := by
  have hgrid : (0 : ℝ) < 2 ^ (unitExp a - 1) := zpow_pos two_pos _
  have onGrid {q : Quad} (hq : unitExp a - 1 ≤ unitExp q) :
      |valReal q| = (significand q * 2 ^ (unitExp q - (unitExp a - 1)).toNat : ℕ) * (2 : ℝ) ^ (unitExp a - 1) := by
    push_cast
    rw [abs_valReal_eq_significand, mul_assoc, ← zpow_natCast, Int.toNat_of_nonneg (by omega), ← zpow_add₀ two_ne_zero,
      sub_add_cancel]
  rcases le_or_gt (unitExp a - 1) (unitExp p) with hp | hp
  · exact le_abs_sub_of_multiples hgrid (onGrid hp) (onGrid (by omega)) hne
  · have hnormal : quadExp a ≠ 0 := by unfold unitExp at hp; omega
    have ha : (2 : ℝ) ^ 113 * 2 ^ (unitExp a - 1) ≤ |valReal a| := by
      have hsig : (2 : ℝ) ^ 112 ≤ significand a := by
        rw [significand, if_neg hnormal]
        exact_mod_cast Nat.le_add_right (2 ^ 112) (quadFrac a)
      rw [abs_valReal_eq_significand, zpow_sub_one₀ two_ne_zero]
      have := mul_le_mul_of_nonneg_right hsig (zpow_pos two_pos (unitExp a)).le
      linarith
    have hpLow : |valReal p| ≤ 2 ^ 112 * 2 ^ (unitExp a - 1) := by
      have hsig : (significand p : ℝ) ≤ 2 ^ 113 := by exact_mod_cast (significand_lt p).le
      rw [abs_valReal_eq_significand]
      calc (significand p : ℝ) * 2 ^ unitExp p ≤ 2 ^ 113 * 2 ^ (unitExp a - 1 - 1) :=
            mul_le_mul hsig (zpow_le_zpow_right₀ one_le_two (by omega)) (zpow_pos two_pos _).le (by positivity)
        _ = 2 ^ 112 * 2 ^ (unitExp a - 1) := by rw [zpow_sub_one₀ two_ne_zero (unitExp a - 1)]; ring
    rw [abs_sub_comm]
    refine le_trans ?_ (le_abs_self _)
    linarith

theorem quad_eq_of_sign_of_abs {p q : Quad} (hp : isFinite p = true) (hq : isFinite q = true)
    (hs : quadSign p = quadSign q) (habs : |valReal p| = |valReal q|) : p = q := by
  rw [← roundPackIsExactOnQuads p hp, ← roundPackIsExactOnQuads q hq, hs, habs]

/-- A finite quad and an eighth of its unit stay below the overflow threshold (R423). -/
theorem abs_valReal_add_lt_threshold {a : Quad} (hf : isFinite a = true) :
    |valReal a| + 2 ^ unitExp a / 8 < (2 : ℝ) ^ (16384 : ℤ) - 2 ^ (16270 : ℤ) := by
  have he := (isFinite_iff a).1 hf
  have hsig : (significand a : ℝ) + 1 ≤ 2 ^ 113 := by exact_mod_cast significand_lt a
  have hunit : (2 : ℝ) ^ unitExp a ≤ 2 ^ (16271 : ℤ) := zpow_le_zpow_right₀ one_le_two (by unfold unitExp; omega)
  have htop : (2 : ℝ) ^ (16384 : ℤ) = 2 ^ 113 * 2 ^ (16271 : ℤ) := by
    rw [← zpow_natCast, ← zpow_add₀ two_ne_zero]
    rfl
  have hhalf : (2 : ℝ) ^ (16270 : ℤ) = 2 ^ (16271 : ℤ) / 2 := by
    rw [show (16270 : ℤ) = 16271 - 1 by rfl, zpow_sub_one₀ two_ne_zero]
    rfl
  have hpos : (0 : ℝ) < 2 ^ (16271 : ℤ) := zpow_pos two_pos _
  rw [abs_valReal_eq_significand, htop, hhalf]
  generalize (2 : ℝ) ^ (16271 : ℤ) = c at *
  calc (significand a : ℝ) * 2 ^ unitExp a + 2 ^ unitExp a / 8 = (significand a + 1 / 8) * 2 ^ unitExp a := by ring
    _ ≤ (2 ^ 113 - 7 / 8) * c := by
      refine mul_le_mul (by linarith) hunit (zpow_pos two_pos _).le ?_
      norm_num
    _ < 2 ^ 113 * c - c / 2 := by
      rw [sub_mul]
      linarith only [hpos]

/-- A real within an eighth of a quad's unit rounds to the quad (R421). -/
theorem roundPackReal_of_near {a : Quad} (hf : isFinite a = true) (hz : isZero a = false) {v : ℝ}
    (h : |(|valReal a| - v)| < 2 ^ unitExp a / 8) : roundPackReal (quadSign a) v = a := by
  obtain ⟨hlo, hhi⟩ := abs_lt.1 h
  have hunit : (0 : ℝ) < 2 ^ unitExp a := zpow_pos two_pos _
  have hge : (2 : ℝ) ^ unitExp a ≤ |valReal a| := by
    rw [abs_valReal_eq_significand]
    exact le_mul_of_one_le_left hunit.le (by exact_mod_cast significand_pos hz)
  have hv : 0 ≤ v := by linarith
  have hthreshold : v < (2 : ℝ) ^ (16384 : ℤ) - 2 ^ (16270 : ℤ) := by
    have := abs_valReal_add_lt_threshold hf
    linarith
  refine quad_eq_of_sign_of_abs (isFinite_roundPackReal _ hv hthreshold) hf (roundPackReal_sign _ v) ?_
  by_contra hne
  have hgap := half_unit_le_abs_sub hne
  have hnear := (roundPackReal_nearest (quadSign a) hv hthreshold a).1
  have htri := abs_sub_le |valReal (roundPackReal (quadSign a) v)| v |valReal a|
  rw [abs_sub_comm v] at htri
  rw [zpow_sub_one₀ two_ne_zero] at hgap
  linarith

/-! ### The printed decimal -/

/-- To nearest, the printed decimal is within half a unit of its last digit, which is at most |val(a)| over 10^p (R922). -/
theorem displayDigits_near (p : ℕ) {a : Quad} (hf : isFinite a = true) (hz : isZero a = false) {x : DecimalDigits}
    (hx : x = displayDigits 0 p (quadSign a) (magnitude a) unit) :
    |(|val a| - x.digits * 10 ^ (x.exponent - p))| ≤ |val a| / 10 ^ p / 2 := by
  obtain ⟨e, w, r, hlo, -, hw, hnear, -, -, -, -, -, hkeep, hcarry, -⟩ :=
    formatDigitsAreRoundedOnce a 0 p hf hz (Nat.zero_le 3)
  rw [← hx] at hkeep hcarry
  have ten : (10 : ℚ) ≠ 0 := by norm_num
  have hscale : (0 : ℚ) < 10 ^ (e - p) := zpow_pos (by norm_num) _
  have hval : |val a| = w * 10 ^ (e - p) := by
    rw [hw, mul_assoc, ← zpow_add₀ ten, show (p : ℤ) - e + (e - p) = 0 by ring, zpow_zero, mul_one]
  have hprinted : (x.digits : ℚ) * 10 ^ (x.exponent - p) = r * 10 ^ (e - p) := by
    by_cases hr : r = 10 ^ (p + 1)
    · obtain ⟨hd, he⟩ := hcarry hr
      rw [hd, he, hr, show e + 1 - (p : ℤ) = e - p + 1 by ring, zpow_add_one₀ ten]
      push_cast
      ring
    · obtain ⟨hd, he⟩ := hkeep hr
      rw [hd, he]
  have hunit : (10 : ℚ) ^ (e - p) ≤ |val a| / 10 ^ p := by
    rw [zpow_sub₀ ten, zpow_natCast]
    gcongr
  calc |(|val a| - x.digits * 10 ^ (x.exponent - p))| = |w - r| * 10 ^ (e - p) := by
        rw [hprinted, hval, ← sub_mul, abs_mul, abs_of_pos hscale]
    _ ≤ 1 / 2 * 10 ^ (e - p) := mul_le_mul_of_nonneg_right (hnear rfl).1 hscale.le
    _ ≤ |val a| / 10 ^ p / 2 := by linarith

/-- 36 significant digits to nearest round back to the quad: 2^113 is less than a quarter of 10^35 (R932). -/
theorem roundPackReal_displayDigits {a : Quad} (hf : isFinite a = true) (hz : isZero a = false) {x : DecimalDigits}
    (hx : x = displayDigits 0 35 (quadSign a) (magnitude a) unit) :
    roundPackReal (quadSign a) ((x.digits : ℝ) * 10 ^ (x.exponent - 35)) = a := by
  have hnear := displayDigits_near 35 hf hz hx
  rw [← Rat.cast_le (K := ℝ)] at hnear
  push_cast at hnear
  refine roundPackReal_of_near hf hz (lt_of_le_of_lt hnear ?_)
  have hunit : (0 : ℝ) < 2 ^ unitExp a := zpow_pos two_pos _
  have hlt : |valReal a| < 2 ^ 113 * 2 ^ unitExp a := by
    rw [abs_valReal_eq_significand]
    exact mul_lt_mul_of_pos_right (by exact_mod_cast significand_lt a) hunit
  rw [valReal] at hlt
  linarith

/-- A mantissa and an exponent as FORMAT prints them are a decimal of the grammar (R902, R921). -/
theorem decimalText_printed {p : ℕ} (hp : p ≠ 0) (d expw : ℕ) (e : ℤ) :
    DecimalText (mantissaBytes p d ++ exponentBytes expw e) [digitByte (d / 10 ^ p % 10)] (fixedDigits p d)
      (exponentDigits expw e.natAbs) (decide (e < 0)) := by
  have hne : exponentDigits expw e.natAbs ≠ [] := by
    have := (decimalLength_spec (le_refl e.natAbs)).1
    rw [← List.length_pos_iff, length_exponentDigits]
    omega
  refine ⟨List.cons_ne_nil _ _, ?_, fun b hb => fixedDigits_digit hb, exponentDigits_digit, 0x2E :: fixedDigits p d,
    exponentBytes expw e, ?_, .inr rfl, .inr ⟨hne, 0x45, [if e < 0 then 0x2D else 0x2B], rfl, .inr rfl, ?_⟩⟩
  · rintro b hb
    rw [List.mem_singleton.1 hb]
    exact digitByte_digit (Nat.mod_lt _ (by decide))
  · rw [mantissaBytes_eq, if_neg hp]
    rfl
  · by_cases he : e < 0
    · rw [if_pos he, decide_eq_true he]
      exact .inr (.inr ⟨rfl, rfl⟩)
    · rw [if_neg he, decide_eq_false he]
      exact .inr (.inl ⟨rfl, rfl⟩)

theorem digitsNat_printed {p d : ℕ} (hd : d < 10 ^ (p + 1)) :
    digitsNat ([digitByte (d / 10 ^ p % 10)] ++ fixedDigits p d) = d := by
  rw [List.singleton_append, ← fixedDigits_succ_cons]
  exact digitsNat_fixedDigits hd

/-- The value of the printed decimal (R904, R921). -/
theorem decimalReal_printed {p d : ℕ} (hd : d < 10 ^ (p + 1)) (expw : ℕ) (e : ℤ) :
    decimalReal [digitByte (d / 10 ^ p % 10)] (fixedDigits p d) (exponentDigits expw e.natAbs) (decide (e < 0)) =
      d * 10 ^ (e - p) := by
  have hexp : (if decide (e < 0) then -(e.natAbs : ℤ) else (e.natAbs : ℤ)) = e := by
    simp only [decide_eq_true_eq]
    split <;> omega
  rw [decimalReal, digitsNat_printed hd, digitsNat_exponentDigits, length_fixedDigits, hexp]

/-! ### FORMAT, then PARSE -/

/-- FORMAT's text is its body between blanks (R901, R925). -/
theorem signedText_formatText {a : Quad} {o : Word} {neg : Bool} {body : List Byte}
    (h : (formatBody a o).1 = signBytes neg ++ body) : SignedText (formatText a o).1 body neg := by
  refine ⟨List.replicate (foptWidth o - (formatBody a o).1.length) 0x20, signBytes neg, [], ?_,
    fun b hb => List.eq_of_mem_replicate hb, fun b hb => absurd hb List.not_mem_nil, ?_⟩
  · rw [formatText, padLeft, h, List.append_nil, List.append_assoc]
  · cases neg
    · exact .inl ⟨rfl, rfl⟩
    · exact .inr (.inr ⟨rfl, rfl⟩)

/-- After FORMAT the state holds FORMAT's text (R930). -/
theorem holdsText_of_exec_format {s t : State} (h : LegalOptions s.fopt) (hp : s.fopt.toNat % 2 ^ 8 ≤ 35)
    (hfit : (formatText s.a s.fopt).1.length ≤ Config.tbufSize) (hrun : exec .format s = .next t) :
    HoldsText t (formatText s.a s.fopt).1 := by
  have hlen := length_formatText_le s.a (o := s.fopt) (by rwa [foptPrec_eq])
  rw [exec_format_of_fits h hp hfit] at hrun
  cases hrun
  refine ⟨?_, hfit, fun k hk => (readByte_formatted s k).trans (if_pos hk)⟩
  rw [State.formatted_tlen, BitVec.toNat_ofNat, Nat.mod_eq_of_lt (by omega)]

/-- PARSE of a finite quad's text gives the quad back (R932). -/
theorem exec_parse_of_formatText {t : State} {a : Quad} {o : Word} (hf : isFinite a = true) (hprec : foptPrec o = 35)
    (hrm : foptRm o = 0) (ht : HoldsText t (formatText a o).1) :
    ∃ inexact : Bool, exec .parse t = .next ((t.withR a).withST (if inexact then 0x100 else 0)) := by
  cases hz : isZero a with
  | true =>
    have hbody := congrArg Prod.fst (formatBody_of_zero hz o)
    dsimp only at hbody
    rw [hprec, List.append_assoc] at hbody
    obtain ⟨q, inexact, hrun, hzero, -⟩ := (parseDecimalsAreCorrectlyRounded t _ _ _ ht (signedText_formatText hbody)).2
      _ _ _ _ (decimalText_printed (by decide) 0 _ 0)
    obtain ⟨rfl, -⟩ := hzero (digitsNat_printed (by decide))
    rw [← (isZero_iff_eq a).1 hz] at hrun
    exact ⟨inexact, hrun⟩
  | false =>
    have hbody := congrArg Prod.fst (formatBody_of_nonzero hf hz o)
    dsimp only at hbody
    have hx : displayOf a o = displayDigits 0 35 (quadSign a) (magnitude a) unit := by rw [displayOf, hprec, hrm]
    obtain ⟨hlo, hhi⟩ := displayDigits_range 0 35 (quadSign a) hf hz
    have hback := roundPackReal_displayDigits hf hz hx
    rw [← hx] at hlo hhi
    generalize displayOf a o = x at *
    rw [hprec, List.append_assoc] at hbody
    obtain ⟨q, inexact, hrun, -, hround⟩ := (parseDecimalsAreCorrectlyRounded t _ _ _ ht (signedText_formatText hbody)).2
      _ _ _ _ (decimalText_printed (by decide) x.digits _ x.exponent)
    have hne : x.digits ≠ 0 := (lt_of_lt_of_le (Nat.pow_pos (by decide)) hlo).ne'
    rw [digitsNat_printed hhi, decimalReal_printed hhi] at hround
    obtain ⟨rfl, -⟩ := hround hne
    push_cast at hrun
    rw [hback] at hrun
    exact ⟨inexact, hrun⟩

theorem statusCode_success (inexact : Bool) : statusCode (if inexact then 0x100 else 0) = 0 := by
  cases inexact <;> decide

/-- Settles O60: a NaN and an infinity by their tokens, a finite value by its printed decimal. -/
theorem formatThenParseRoundTrips : Obligations.FormatThenParseRoundTrips := by
  unfold Obligations.FormatThenParseRoundTrips
  intro s t hprec hexpw hstyle hres hfit hrun
  have ht := holdsText_of_exec_format ⟨hres, by omega, hexpw⟩ hprec.le hfit hrun
  have htokens := parseSpecialTokens t (formatText s.a s.fopt).1
  rcases quad_trichotomy s.a with ⟨hnan, -, -⟩ | ⟨hnan, hinf, -⟩ | ⟨hnan, -, hf⟩
  · have hbody : (formatBody s.a s.fopt).1 = signBytes false ++ [0x4E, 0x61, 0x4E] := by rw [formatBody_of_nan hnan]; rfl
    have hparse := (htokens _ _ ht (signedText_formatText hbody)).2 ((isNanToken_iff _).1 (by decide))
    refine ⟨_, hparse, rfl, fun h => ?_, fun _ => ?_⟩
    · rw [hnan] at h
      cases h
    · rw [State.withST_r, State.withR_r]
      decide
  · have hparse := (htokens _ _ ht (signedText_formatText (congrArg Prod.fst (formatBody_of_inf hinf s.fopt)))).1
      ((isInfToken_iff _).1 (by decide))
    refine ⟨_, hparse, rfl, fun _ => ?_, fun h => ?_⟩
    · rw [State.withST_r, State.withR_r]
      exact ((isInf_iff_eq s.a).1 hinf).symm
    · rw [hnan] at h
      cases h
  · have hrm : foptRm s.fopt = 0 := by
      rw [foptRm_eq]
      omega
    obtain ⟨inexact, hparse⟩ := exec_parse_of_formatText hf ((foptPrec_eq _).trans hprec) hrm ht
    refine ⟨_, hparse, statusCode_success inexact, fun _ => State.withR_r t s.a, fun h => ?_⟩
    rw [hnan] at h
    cases h

end Sys2Proof.Machine
end

section
/-! PROOFS. What a command does with ST (spec/60_exceptions.md rules R1000 to R1002): it writes all of it, whatever it held,
and nothing else when it fails. -/

namespace Sys2Proof.Machine

/-- A command that ends with an error code has changed nothing but ST (R1002). -/
theorem eq_withST_of_exec_error {i : Instr} {s t : State} (h : exec i s = .next t) (hcode : statusCode t.st ≠ 0) :
    t = s.withST t.st := by
  have hok : statusCode 0 = 0 := statusCode_success false
  by_cases hp : i = .parse
  · subst hp
    have h : parseCommand Config.tbufSize s = .next t := h
    rcases parseCommand_cases Config.tbufSize s with
      ⟨-, he⟩ | ⟨-, ⟨k, -, he⟩ | ⟨text, -, ⟨-, he⟩ | ⟨q, x, -, he⟩⟩⟩ <;> rw [he] at h <;> cases h
    · rfl
    · rfl
    · exact absurd (statusCode_success x) hcode
  by_cases hf : i = .format
  · subst hf
    have h : formatCommand Config.tbufSize s = .next t := h
    rcases formatCommand_cases Config.tbufSize s with ⟨e, -, he⟩ | ⟨-, -, he⟩ <;> rw [he] at h <;> cases h
    · rfl
    · exact absurd (statusCode_success _) hcode
  rcases exec_cases i s hp hf with
    ⟨q, he, -⟩ | ⟨v, he, -⟩ | ⟨-, v, q, he⟩ | ⟨-, q, q2, he⟩ | ⟨-, he⟩ <;> rw [he] at h <;> cases h
  · exact absurd hok hcode
  · exact absurd hok hcode
  · exact absurd hok hcode
  · exact absurd hok hcode
  · rfl

/-- Settles O15: a command by the outcomes it has, an illegal word by its CMD write (`validityOfCommandWords`). -/
theorem failedCommandChangesOnlyStatus : Obligations.FailedCommandChangesOnlyStatus := by
  unfold Obligations.FailedCommandChangesOnlyStatus
  exact ⟨fun _ _ _ => eq_withST_of_exec_error, validityOfCommandWords.2⟩

/-- No command reads ST and each one writes it last, so what it held makes no difference (R1001). -/
theorem exec_withST (i : Instr) (s : State) (v : Word) : exec i (s.withST v) = exec i s := by cases i <;> rfl

/-- Settles O16: the statuses a command ends with, its independence of the one before, and for an illegal word the status
its CMD write leaves (`validityOfCommandWords`). -/
theorem everyCommandWritesTheWholeStatus : Obligations.EveryCommandWritesTheWholeStatus := by
  unfold Obligations.EveryCommandWritesTheWholeStatus
  exact ⟨fun _ _ _ => exec_st_mem_statusesOf, exec_withST,
    fun s v rest hp hv => ⟨_, validityOfCommandWords.2 s v rest hp hv, rfl⟩⟩

end Sys2Proof.Machine
end

section
/-! PROOFS. Reset and hazards (spec/70_reset_and_hazards.md rules R1100, R1112): the operand registers no command writes,
and what the platform's reset does to the actions it meets. -/

namespace Sys2Proof.Machine

/-- Of the registers the host may write, commands have TLEN alone among their results (R114, R1112). -/
theorem notMem_resultRegs_of_regWritable {r : RegName} (hw : regWritable r = true) (hr : r ≠ .tlen) (i : Instr) :
    r ∉ resultRegs i := by
  have hresults : ∀ r' ∈ resultRegs i, r' = .tlen ∨ regWritable r' = false := by
    cases i with
    | limit k => rw [resultRegs]; split <;> decide
    | _ => simp [resultRegs, regWritable]
  intro hmem
  rcases hresults r hmem with h | h
  · exact hr h
  · rw [hw] at h
    cases h

/-- A command keeps the value and the mark of every register the host may write, TLEN aside (R1112). -/
theorem exec_keeps_writable {i : Instr} {s t : State} (h : exec i s = .next t) {r : RegName}
    (hw : regWritable r = true) (hr : r ≠ .tlen) :
    t.readReg r = s.readReg r ∧ t.regWritten r = s.regWritten r := by
  have hst : r ≠ .st := by
    rintro rfl
    cases hw
  exact (exec_keeps h).reg r (List.not_mem_cons_of_ne_of_not_mem hst (notMem_resultRegs_of_regWritable hw hr i))

/-- Settles O14: A, B, N, FOPT and CMD are host-writable and not TLEN, so `exec_keeps_writable` covers each. -/
theorem commandsNeverWriteOperands : Obligations.CommandsNeverWriteOperands := by
  unfold Obligations.CommandsNeverWriteOperands
  intro i s t h
  have hkeep (r : RegName) (hw : regWritable r = true) (hr : r ≠ .tlen) := exec_keeps_writable h hw hr
  exact ⟨Reg.eq_of_val_of_written (hkeep .aLo rfl (by decide)), Reg.eq_of_val_of_written (hkeep .aHi rfl (by decide)),
    Reg.eq_of_val_of_written (hkeep .bLo rfl (by decide)), Reg.eq_of_val_of_written (hkeep .bHi rfl (by decide)),
    Reg.eq_of_val_of_written (hkeep .n rfl (by decide)), (hkeep .fopt rfl (by decide)).1, (hkeep .cmd rfl (by decide)).1⟩

/-- A reset gives the reset state and keeps the actions still to come (R1100, log entry 11). -/
theorem step_reset {s : State} {rest : List Event} (hp : s.pending = .reset :: rest) :
    step s = .next { State.reset with pending := rest } := by
  rw [step, stepWith, hp]
  rfl

/-- A reset during an access, whichever it is, abandons it (R1100, log entry 11). -/
theorem step_resetDuring {s : State} {a : Access} {rest : List Event} (hp : s.pending = .resetDuring a :: rest) :
    step s = .next { State.reset with pending := rest } := by
  rw [step, stepWith, hp]
  rfl

/-- Settles O6: the reset state's fields as they are defined, and the step of each of the two reset actions. -/
theorem resetStateAndEvents : Obligations.ResetStateAndEvents := by
  unfold Obligations.ResetStateAndEvents
  have hmarks : ∀ r ∈ [RegName.aLo, .aHi, .bLo, .bHi, .n, .rLo, .rHi, .r2Lo, .r2Hi, .ri],
      State.reset.regWritten r = false := by decide
  have hbytes (i : Nat) : readByte State.reset.tbuf i = none := rfl
  exact ⟨⟨rfl, rfl, rfl, rfl, hmarks, hbytes⟩, fun _ _ => step_reset, fun _ _ _ => step_resetDuring⟩

/-- Settles O13, which is `inv_reset`: the text buffer is empty and ST is 0. -/
theorem resetMeetsInvariant : Obligations.ResetMeetsInvariant := inv_reset

end Sys2Proof.Machine
end
